-- ==== Sys2Proof/Word.lean ====
section
/-! DEFINITION. The word types of the machine (spec/00_scope.md R5, R9): every register and every datum is an
unsigned bit vector of a stated width, bit 0 the least significant. -/

namespace Sys2Proof

/-- A byte, 8 bits: the unit of memory and of the instruction stream (R9, R22). -/
abbrev Byte := BitVec 8

/-- A 64-bit linear address (R22). In `MODE32` the upper 32 bits are zero (R15, R70). -/
abbrev Addr := BitVec 64

/-- The value of an MMX register (R11). -/
abbrev Mm := BitVec 64

/-- The value of an XMM register, the low half of a YMM register (R13). -/
abbrev Xmm := BitVec 128

/-- The value of a full vector register: `VLMAX` is fixed at 256 bits (R4, R13; decision D5). -/
abbrev Ymm := BitVec 256

end Sys2Proof
end

