-- ==== Sys2Proof/Config.lean ====
section
/-! DEFINITION. The launch configuration `Cfg` (spec/00_scope.md R4): what the caller of a run fixes and no instruction
writes. The spec leaves every field OPEN; the model therefore carries the record in `State` as plain data, so that a
statement about every state is a statement about every configuration. The model has no free value: the spec leaves no
result of an executed instruction undefined (spec/93_implementation_defined.md U1 to U12). -/

namespace Sys2Proof

/-- `MAXLEN`, the longest instruction the decoder accepts, in bytes (R4, R52; decision D23). -/
def maxLen : Nat := 15

/-- The operating mode at launch. The spec models `mode64` and `mode32` only (R4, R17); a launch in one of the other
modes is refused (R3, R75; decision D3), and they stand here so that the model can refuse them by name. -/
inductive Mode where
  /-- 64-bit mode, 64-bit addressing. -/
  | mode64
  /-- A 32-bit code segment, 32-bit addressing. -/
  | mode32
  /-- Real-address mode: where the processor is after RESET (R27); refused. -/
  | realAddress
  /-- Virtual-8086 mode; refused. -/
  | virtual8086
  /-- A 16-bit code segment; refused. -/
  | code16
  /-- System-management mode; refused. -/
  | systemManagement
  deriving DecidableEq, Repr

/-- `NXMM`, the number of vector registers an instruction can reach (R4, R13). -/
def Mode.nxmm : Mode → Nat
  | .mode64 => 16
  | _ => 8

/-- The four CPUID feature flags of the opcode table (R4, R21). -/
structure Features where
  /-- `HAS_MMX`: CPUID.01H:EDX bit 23. -/
  mmx : Bool
  /-- `HAS_SSE2`: CPUID.01H:EDX bit 26. -/
  sse2 : Bool
  /-- `HAS_AVX`: CPUID.01H:ECX bit 28. -/
  avx : Bool
  /-- `HAS_AVX2`: CPUID.(EAX=07H, ECX=0):EBX bit 5. -/
  avx2 : Bool
  deriving DecidableEq, Repr

/-- The read-only record `Env` of enabling bits (R4, R20). -/
structure Env where
  /-- CR0 bit 2, emulation. -/
  cr0Em : Bool
  /-- CR0 bit 3, task switched. -/
  cr0Ts : Bool
  /-- CR4 bit 9. -/
  cr4Osfxsr : Bool
  /-- CR4 bit 18. -/
  cr4Osxsave : Bool
  /-- XCR0 bit 1. -/
  xcr0Sse : Bool
  /-- XCR0 bit 2. -/
  xcr0Avx : Bool
  /-- An unmasked x87 floating-point exception is pending (x87 status word ES = 1). -/
  x87Pending : Bool
  /-- CR0.AM = 1 and EFLAGS.AC = 1 and CPL = 3. -/
  acCheck : Bool
  deriving DecidableEq, Repr

/-- The two access kinds of `Plat.access` (R36). -/
inductive AccessKind where
  | read
  | fetch
  deriving DecidableEq, Repr

/-- What `Plat.access` may answer besides `Ok`: one of the vectors #GP (13), #SS (12), #PF (14) with its error code, 0 for
the first two (R36, R141). -/
inductive PlatFault where
  | gp
  | ss
  | pf (code : Nat)
  deriving DecidableEq, Repr

/-- A range of linear addresses, both ends included. -/
structure Span where
  first : Addr
  last : Addr
  deriving DecidableEq, Repr

/-- One entry of the platform's map: in an access of this kind that starts in the span `start` and is `minBytes` to
`maxBytes` long, every byte in the span `bytes` fails with this fault. -/
structure Region where
  kind : AccessKind
  start : Span
  minBytes : Nat
  maxBytes : Nat
  bytes : Span
  verdict : PlatFault
  deriving DecidableEq, Repr

/-- Every linear address. -/
def Span.all : Span := ⟨0, BitVec.allOnes 64⟩

/-- The entry that fails a span of bytes in whatever access touches them, as a page of memory does. -/
def Region.always (kind : AccessKind) (bytes : Span) (verdict : PlatFault) : Region :=
  { kind := kind, start := Span.all, minBytes := 1, maxBytes := 32, bytes := bytes, verdict := verdict }

/-- The platform function `Plat.access(kind, addr, n)` (R36) as plain data. A byte of an access gets the fault of the
first region that fails it there; a byte no region fails is admitted. A region may depend on the access's address and
length, so that every function of `(kind, addr, n)` can be written (`State.exists_plat_access`; notes/assumptions/5.md).
`devices` are the addresses whose data read has a side effect (R35). `beyondTop` is what the platform answers for the bytes
of one data read that run past the top of the address space: `none` leaves them to the regions, at the wrapped addresses. -/
structure Plat where
  regions : List Region
  devices : List Span
  beyondTop : Option PlatFault
  deriving DecidableEq, Repr

/-- The configuration of a run (R4), with the caller's word on the debug registers (R165). -/
structure Cfg where
  mode : Mode
  features : Features
  env : Env
  plat : Plat
  /-- An armed debug register covers the program or its data (R165). -/
  debugArmed : Bool
  deriving DecidableEq, Repr

end Sys2Proof
end

