-- ==== Sys2Proof/Syntax.lean ====
section
/-! DEFINITION. The instructions: one constructor for each of the 24 rows of spec/opcode_table.json, that is each of
the twelve forms of spec/30_encoding.md R73 once in each of its two spellings. The operands are the fields of the
encoding (R71, R72), the stored-inverted fields of a VEX byte as the values they stand for (R56). -/

namespace Sys2Proof

/-- The four low bits of a REX byte `0100WRXB` (R55). -/
structure Rex where
  w : Bool
  r : Bool
  x : Bool
  b : Bool
  deriving DecidableEq, Repr

/-- The bits `R`, `X`, `B` and `W` of a three-byte VEX prefix, not inverted (R56, R58). -/
structure Vex3 where
  r : Bool
  x : Bool
  b : Bool
  w : Bool
  deriving DecidableEq, Repr

/-- The memory operand's addressing form: one constructor per memory row of R66, the SIB rows split by whether the SIB
byte names a base register (R67). Three-bit fields are as encoded; the extension bits stand beside the operand. -/
inductive MemForm where
  /-- mod 00, rm not 4 or 5: `[base]`. -/
  | base (rm : BitVec 3)
  /-- mod 00, rm 5: RIP-relative in `MODE64`, absolute in `MODE32` (R68, R70). -/
  | disp32 (d : BitVec 32)
  /-- mod 01, rm not 4: `[base + disp8]`. -/
  | baseDisp8 (rm : BitVec 3) (d : BitVec 8)
  /-- mod 10, rm not 4: `[base + disp32]`. -/
  | baseDisp32 (rm : BitVec 3) (d : BitVec 32)
  /-- mod 00, rm 4, SIB base not 5: `[base + index*scale]`. -/
  | sib (scale : BitVec 2) (index base : BitVec 3)
  /-- mod 00, rm 4, SIB base 5: `[index*scale + disp32]`, no base register. -/
  | sibNoBase (scale : BitVec 2) (index : BitVec 3) (d : BitVec 32)
  /-- mod 01, rm 4: `[base + index*scale + disp8]`. -/
  | sibDisp8 (scale : BitVec 2) (index base : BitVec 3) (d : BitVec 8)
  /-- mod 10, rm 4: `[base + index*scale + disp32]`. -/
  | sibDisp32 (scale : BitVec 2) (index base : BitVec 3) (d : BitVec 32)
  deriving DecidableEq, Repr

/-- The operand of ModRM.mod and ModRM.r/m (R62): a register (mod 11) or memory. -/
inductive RmOp where
  | reg (rm : BitVec 3)
  | mem (m : MemForm)
  deriving DecidableEq, Repr

/-- The twelve forms in their two spellings, in the order of the opcode table. `reg` is ModRM.reg and `rm` the
operand of ModRM.r/m; `v` is VEX.vvvv, `r` VEX.R of a two-byte prefix. -/
inductive Instr where
  /-- `0F FC /r` -/
  | paddbMmx (reg : BitVec 3) (rm : RmOp)
  /-- `66 0F FC /r` -/
  | paddbSse (reg : BitVec 3) (rm : RmOp)
  /-- `REX 0F FC /r` -/
  | paddbMmxRex (rex : Rex) (reg : BitVec 3) (rm : RmOp)
  /-- `66 REX 0F FC /r` -/
  | paddbSseRex (rex : Rex) (reg : BitVec 3) (rm : RmOp)
  /-- `0F FD /r` -/
  | paddwMmx (reg : BitVec 3) (rm : RmOp)
  /-- `66 0F FD /r` -/
  | paddwSse (reg : BitVec 3) (rm : RmOp)
  /-- `REX 0F FD /r` -/
  | paddwMmxRex (rex : Rex) (reg : BitVec 3) (rm : RmOp)
  /-- `66 REX 0F FD /r` -/
  | paddwSseRex (rex : Rex) (reg : BitVec 3) (rm : RmOp)
  /-- `0F FE /r` -/
  | padddMmx (reg : BitVec 3) (rm : RmOp)
  /-- `66 0F FE /r` -/
  | padddSse (reg : BitVec 3) (rm : RmOp)
  /-- `REX 0F FE /r` -/
  | padddMmxRex (rex : Rex) (reg : BitVec 3) (rm : RmOp)
  /-- `66 REX 0F FE /r` -/
  | padddSseRex (rex : Rex) (reg : BitVec 3) (rm : RmOp)
  /-- `VEX.128 FC /r`, two-byte prefix -/
  | vpaddb128C5 (r : Bool) (v : BitVec 4) (reg : BitVec 3) (rm : RmOp)
  /-- `VEX.128 FC /r`, three-byte prefix -/
  | vpaddb128C4 (x : Vex3) (v : BitVec 4) (reg : BitVec 3) (rm : RmOp)
  /-- `VEX.256 FC /r`, two-byte prefix -/
  | vpaddb256C5 (r : Bool) (v : BitVec 4) (reg : BitVec 3) (rm : RmOp)
  /-- `VEX.256 FC /r`, three-byte prefix -/
  | vpaddb256C4 (x : Vex3) (v : BitVec 4) (reg : BitVec 3) (rm : RmOp)
  /-- `VEX.128 FD /r`, two-byte prefix -/
  | vpaddw128C5 (r : Bool) (v : BitVec 4) (reg : BitVec 3) (rm : RmOp)
  /-- `VEX.128 FD /r`, three-byte prefix -/
  | vpaddw128C4 (x : Vex3) (v : BitVec 4) (reg : BitVec 3) (rm : RmOp)
  /-- `VEX.256 FD /r`, two-byte prefix -/
  | vpaddw256C5 (r : Bool) (v : BitVec 4) (reg : BitVec 3) (rm : RmOp)
  /-- `VEX.256 FD /r`, three-byte prefix -/
  | vpaddw256C4 (x : Vex3) (v : BitVec 4) (reg : BitVec 3) (rm : RmOp)
  /-- `VEX.128 FE /r`, two-byte prefix -/
  | vpaddd128C5 (r : Bool) (v : BitVec 4) (reg : BitVec 3) (rm : RmOp)
  /-- `VEX.128 FE /r`, three-byte prefix -/
  | vpaddd128C4 (x : Vex3) (v : BitVec 4) (reg : BitVec 3) (rm : RmOp)
  /-- `VEX.256 FE /r`, two-byte prefix -/
  | vpaddd256C5 (r : Bool) (v : BitVec 4) (reg : BitVec 3) (rm : RmOp)
  /-- `VEX.256 FE /r`, three-byte prefix -/
  | vpaddd256C4 (x : Vex3) (v : BitVec 4) (reg : BitVec 3) (rm : RmOp)
  deriving DecidableEq, Repr

end Sys2Proof
end

