-- ==== Sys2Proof/WellFormed.lean ====
section
/-! DEFINITION. Which terms of `Instr` are instructions: those some byte sequence of the mode decodes to
(spec/30_encoding.md R55, R57, R63, R66, R67). -/

namespace Sys2Proof

/-- R66, R67: with mod 00 the values rm 4 and rm 5 and SIB base 5 mean other rows of the table, with mod 01 and 10 the
value rm 4 does. -/
def MemForm.wf : MemForm → Bool
  | .base rm => rm != 4#3 && rm != 5#3
  | .disp32 _ => true
  | .baseDisp8 rm _ => rm != 4#3
  | .baseDisp32 rm _ => rm != 4#3
  | .sib _ _ bs => bs != 5#3
  | .sibNoBase _ _ _ => true
  | .sibDisp8 _ _ _ _ => true
  | .sibDisp32 _ _ _ _ => true

def RmOp.wf : RmOp → Bool
  | .reg _ => true
  | .mem m => m.wf

/-- The spec gives a meaning to instructions in these two modes only (R3). -/
def Mode.modelled : Mode → Bool
  | .mode64 => true
  | .mode32 => true
  | _ => false

/-- What the mode allows of a VEX prefix's register extension: anything in `MODE64`; in `MODE32` no bit that would
name a register above 7 (R57, R63). -/
def vexExtensionWf (mode : Mode) (r x b : Bool) (v : BitVec 4) : Bool :=
  mode == .mode64 || (!r && !x && !b && !v.msb)

/-- An instruction of the spec in this mode: the mode is one the spec models, a REX prefix stands in `MODE64` only
(R55), a VEX prefix names registers the mode has (R57), and the addressing form is a row of R66. -/
def Instr.wf (mode : Mode) : Instr → Bool
  | .paddbMmx _ rm | .paddwMmx _ rm | .padddMmx _ rm
  | .paddbSse _ rm | .paddwSse _ rm | .padddSse _ rm => mode.modelled && rm.wf
  | .paddbMmxRex _ _ rm | .paddwMmxRex _ _ rm | .padddMmxRex _ _ rm
  | .paddbSseRex _ _ rm | .paddwSseRex _ _ rm | .padddSseRex _ _ rm => mode == .mode64 && rm.wf
  | .vpaddb128C5 r v _ rm | .vpaddw128C5 r v _ rm | .vpaddd128C5 r v _ rm
  | .vpaddb256C5 r v _ rm | .vpaddw256C5 r v _ rm | .vpaddd256C5 r v _ rm =>
    mode.modelled && vexExtensionWf mode r false false v && rm.wf
  | .vpaddb128C4 x v _ rm | .vpaddw128C4 x v _ rm | .vpaddd128C4 x v _ rm
  | .vpaddb256C4 x v _ rm | .vpaddw256C4 x v _ rm | .vpaddd256C4 x v _ rm =>
    mode.modelled && vexExtensionWf mode x.r x.x x.b v && rm.wf

end Sys2Proof
end

