-- ==== Sys2Proof/Decode.lean ====
section
/-! DEFINITION. The decoder (spec/30_encoding.md R50 to R76), total on any bytes, and the encoder written from the same
tables. The decoder reads a list of bytes in address order; a list that ends before the instruction does is `truncated`,
and the step says what stood in the way of the next byte (a fetch fault, or the length limit of R52). -/

namespace Sys2Proof

/-! ### Lane widths and the shape of an encoding -/

/-- The lane width an opcode byte selects (R50). -/
inductive Elem where
  | byte
  | word
  | dword
  deriving DecidableEq, Repr

/-- The opcode byte of a lane width (R50, R61). -/
def Elem.opcode : Elem → Byte
  | .byte => 0xFC#8
  | .word => 0xFD#8
  | .dword => 0xFE#8

/-- The lane width an opcode byte selects, none for an opcode outside the spec (R51 steps 3 and 4). -/
def Elem.ofOpcode (op : Byte) : Option Elem :=
  if op = 0xFC#8 then some .byte
  else if op = 0xFD#8 then some .word
  else if op = 0xFE#8 then some .dword
  else none

/-- An instruction taken apart as the formats of R71 and R72 lay it out: the legacy format with or without the `66`
byte and with or without REX, the two-byte and the three-byte VEX format with VEX.L. -/
inductive Shape where
  | legacy (sse : Bool) (rex : Option Rex) (e : Elem) (reg : BitVec 3) (rm : RmOp)
  | c5 (l r : Bool) (v : BitVec 4) (e : Elem) (reg : BitVec 3) (rm : RmOp)
  | c4 (l : Bool) (x : Vex3) (v : BitVec 4) (e : Elem) (reg : BitVec 3) (rm : RmOp)
  deriving DecidableEq, Repr

/-- The row of the opcode table a shape belongs to (R73). -/
def Shape.toInstr : Shape → Instr
  | .legacy false none .byte reg rm => .paddbMmx reg rm
  | .legacy false none .word reg rm => .paddwMmx reg rm
  | .legacy false none .dword reg rm => .padddMmx reg rm
  | .legacy true none .byte reg rm => .paddbSse reg rm
  | .legacy true none .word reg rm => .paddwSse reg rm
  | .legacy true none .dword reg rm => .padddSse reg rm
  | .legacy false (some rex) .byte reg rm => .paddbMmxRex rex reg rm
  | .legacy false (some rex) .word reg rm => .paddwMmxRex rex reg rm
  | .legacy false (some rex) .dword reg rm => .padddMmxRex rex reg rm
  | .legacy true (some rex) .byte reg rm => .paddbSseRex rex reg rm
  | .legacy true (some rex) .word reg rm => .paddwSseRex rex reg rm
  | .legacy true (some rex) .dword reg rm => .padddSseRex rex reg rm
  | .c5 false r v .byte reg rm => .vpaddb128C5 r v reg rm
  | .c5 false r v .word reg rm => .vpaddw128C5 r v reg rm
  | .c5 false r v .dword reg rm => .vpaddd128C5 r v reg rm
  | .c5 true r v .byte reg rm => .vpaddb256C5 r v reg rm
  | .c5 true r v .word reg rm => .vpaddw256C5 r v reg rm
  | .c5 true r v .dword reg rm => .vpaddd256C5 r v reg rm
  | .c4 false x v .byte reg rm => .vpaddb128C4 x v reg rm
  | .c4 false x v .word reg rm => .vpaddw128C4 x v reg rm
  | .c4 false x v .dword reg rm => .vpaddd128C4 x v reg rm
  | .c4 true x v .byte reg rm => .vpaddb256C4 x v reg rm
  | .c4 true x v .word reg rm => .vpaddw256C4 x v reg rm
  | .c4 true x v .dword reg rm => .vpaddd256C4 x v reg rm

/-- The shape of an instruction's encoding: the row's columns "opcode string" and "format". -/
def Instr.shape : Instr → Shape
  | .paddbMmx reg rm => .legacy false none .byte reg rm
  | .paddwMmx reg rm => .legacy false none .word reg rm
  | .padddMmx reg rm => .legacy false none .dword reg rm
  | .paddbSse reg rm => .legacy true none .byte reg rm
  | .paddwSse reg rm => .legacy true none .word reg rm
  | .padddSse reg rm => .legacy true none .dword reg rm
  | .paddbMmxRex rex reg rm => .legacy false (some rex) .byte reg rm
  | .paddwMmxRex rex reg rm => .legacy false (some rex) .word reg rm
  | .padddMmxRex rex reg rm => .legacy false (some rex) .dword reg rm
  | .paddbSseRex rex reg rm => .legacy true (some rex) .byte reg rm
  | .paddwSseRex rex reg rm => .legacy true (some rex) .word reg rm
  | .padddSseRex rex reg rm => .legacy true (some rex) .dword reg rm
  | .vpaddb128C5 r v reg rm => .c5 false r v .byte reg rm
  | .vpaddw128C5 r v reg rm => .c5 false r v .word reg rm
  | .vpaddd128C5 r v reg rm => .c5 false r v .dword reg rm
  | .vpaddb256C5 r v reg rm => .c5 true r v .byte reg rm
  | .vpaddw256C5 r v reg rm => .c5 true r v .word reg rm
  | .vpaddd256C5 r v reg rm => .c5 true r v .dword reg rm
  | .vpaddb128C4 x v reg rm => .c4 false x v .byte reg rm
  | .vpaddw128C4 x v reg rm => .c4 false x v .word reg rm
  | .vpaddd128C4 x v reg rm => .c4 false x v .dword reg rm
  | .vpaddb256C4 x v reg rm => .c4 true x v .byte reg rm
  | .vpaddw256C4 x v reg rm => .c4 true x v .word reg rm
  | .vpaddd256C4 x v reg rm => .c4 true x v .dword reg rm

/-! ### Length -/

/-- The number of bytes after the ModRM byte: SIB and displacement (R66, R69). -/
def RmOp.trailerLength : RmOp → Nat
  | .reg _ => 0
  | .mem (.base _) => 0
  | .mem (.disp32 _) => 4
  | .mem (.baseDisp8 _ _) => 1
  | .mem (.baseDisp32 _ _) => 4
  | .mem (.sib _ _ _) => 1
  | .mem (.sibNoBase _ _ _) => 5
  | .mem (.sibDisp8 _ _ _ _) => 2
  | .mem (.sibDisp32 _ _ _ _) => 5

/-- `len`, the number of bytes of the instruction (R51 step 6, R76). -/
def Shape.length : Shape → Nat
  | .legacy sse rex _ _ rm => sse.toNat + rex.isSome.toNat + 3 + rm.trailerLength
  | .c5 _ _ _ _ _ rm => 4 + rm.trailerLength
  | .c4 _ _ _ _ _ rm => 5 + rm.trailerLength

/-- `len`, the number of bytes of the instruction (R51 step 6, R76). -/
def Instr.length (i : Instr) : Nat := i.shape.length

/-! ### The decoder -/

/-- Why bytes are not an instruction of the spec (R51; the reasons of R75). -/
inductive NotInSpec where
  /-- Another instruction, or none: the spec has no meaning for the bytes. -/
  | outOfScope
  /-- One of the twelve forms after legacy prefixes the spec does not admit (R53, R54). -/
  | badPrefixes
  deriving DecidableEq, Repr

/-- The decoder's answer (R51), `truncated` for a list of bytes that ends before the instruction does. -/
inductive Decoded where
  | instr (i : Instr)
  | ud
  | refused (why : NotInSpec)
  | truncated
  deriving DecidableEq, Repr

/-- The segment-override bytes and the address-size byte (R54). -/
def isRefusedPrefix (b : Byte) : Bool :=
  b == 0x67#8 || b == 0x26#8 || b == 0x2E#8 || b == 0x36#8 || b == 0x3E#8 || b == 0x64#8 || b == 0x65#8

/-- The legacy-prefix bytes (R51 step 1). -/
def isLegacyPrefix (b : Byte) : Bool :=
  b == 0xF0#8 || b == 0xF2#8 || b == 0xF3#8 || b == 0x66#8 || isRefusedPrefix b

/-- The list `P` of legacy prefixes and the bytes after it (R51 step 1). -/
def splitPrefixes : List Byte → List Byte × List Byte
  | [] => ([], [])
  | b :: bs =>
    if isLegacyPrefix b then (b :: (splitPrefixes bs).1, (splitPrefixes bs).2) else ([], b :: bs)

/-- A REX byte, `0100WRXB` (R55). -/
def isRexByte (b : Byte) : Bool := b.extractLsb' 4 4 == 4#4

def Rex.ofByte (b : Byte) : Rex := ⟨b[3], b[2], b[1], b[0]⟩

/-- A one-byte displacement and the bytes after it (R69). -/
def takeDisp8 : List Byte → Option (BitVec 8 × List Byte)
  | d :: bs => some (d, bs)
  | [] => none

/-- A four-byte displacement, least significant byte first, and the bytes after it (R69). -/
def takeDisp32 : List Byte → Option (BitVec 32 × List Byte)
  | d0 :: d1 :: d2 :: d3 :: bs => some (d3 ++ d2 ++ d1 ++ d0, bs)
  | _ => none

/-- The memory operand of a SIB byte, ModRM.mod given (R66, R67), and the bytes after it. -/
def parseSib (mod : BitVec 2) (sib : Byte) (bs : List Byte) : Option (RmOp × List Byte) :=
  let scale := sib.extractLsb' 6 2
  let index := sib.extractLsb' 3 3
  let base := sib.extractLsb' 0 3
  if mod = 0#2 then
    if base = 5#3 then (takeDisp32 bs).map fun p => (.mem (.sibNoBase scale index p.1), p.2)
    else some (.mem (.sib scale index base), bs)
  else if mod = 1#2 then (takeDisp8 bs).map fun p => (.mem (.sibDisp8 scale index base p.1), p.2)
  else (takeDisp32 bs).map fun p => (.mem (.sibDisp32 scale index base p.1), p.2)

/-- The operand of ModRM.mod and ModRM.r/m and the bytes after it (R62, R66). -/
def parseRm (mod : BitVec 2) (rm : BitVec 3) (bs : List Byte) : Option (RmOp × List Byte) :=
  if mod = 3#2 then some (.reg rm, bs)
  else if rm = 4#3 then
    match bs with
    | [] => none
    | sib :: bs => parseSib mod sib bs
  else if mod = 0#2 then
    if rm = 5#3 then (takeDisp32 bs).map fun p => (.mem (.disp32 p.1), p.2)
    else some (.mem (.base rm), bs)
  else if mod = 1#2 then (takeDisp8 bs).map fun p => (.mem (.baseDisp8 rm p.1), p.2)
  else (takeDisp32 bs).map fun p => (.mem (.baseDisp32 rm p.1), p.2)

/-- Opcode, ModRM, SIB and displacement (R51 steps 3 to 5): `finish` says what the complete sequence is. -/
def parseOpcode (finish : Elem → BitVec 3 → RmOp → Decoded) : List Byte → Decoded
  | [] => .truncated
  | op :: bs =>
    match Elem.ofOpcode op with
    | none => .refused .outOfScope
    | some e =>
      match bs with
      | [] => .truncated
      | modrm :: bs =>
        match parseRm (modrm.extractLsb' 6 2) (modrm.extractLsb' 0 3) bs with
        | none => .truncated
        | some (rm, _) => finish e (modrm.extractLsb' 3 3) rm

/-- What the prefix list `P` makes of a complete legacy sequence, the rows of R53 in their order. -/
def legacyVerdict (P : List Byte) (rex : Option Rex) (e : Elem) (reg : BitVec 3) (rm : RmOp) : Decoded :=
  if P.any isRefusedPrefix then .refused .badPrefixes
  else if P.contains 0xF0#8 then .ud
  else if P.contains 0xF2#8 || P.contains 0xF3#8 then .refused .badPrefixes
  else
    match P with
    | [] => .instr (Shape.legacy false rex e reg rm).toInstr
    | [_] => .instr (Shape.legacy true rex e reg rm).toInstr
    | _ => .refused .badPrefixes

/-- What the prefix list `P` and a REX byte make of a complete VEX sequence (R53, R60). -/
def vexVerdict (P : List Byte) (hadRex : Bool) (s : Shape) : Decoded :=
  if P.any isRefusedPrefix then .refused .badPrefixes
  else if P.isEmpty && !hadRex then .instr s.toInstr
  else .ud

/-- The two-byte VEX prefix after its byte `C5` (R56, R57, R59). -/
def parseC5 (mode : Mode) (P : List Byte) (hadRex : Bool) : List Byte → Decoded
  | [] => .truncated
  | v1 :: bs =>
    if mode ≠ .mode64 ∧ v1.extractLsb' 6 2 ≠ 3#2 then .refused .outOfScope
    else if v1.extractLsb' 0 2 ≠ 1#2 then .refused .outOfScope
    else
      parseOpcode (fun e reg rm =>
        vexVerdict P hadRex (.c5 (v1[2]) (!v1[7]) (~~~(v1.extractLsb' 3 4)) e reg rm)) bs

/-- In `MODE32` the bits `B'` and `vvvv'[3]` of a three-byte VEX prefix are ignored (R57). -/
def vexMode32 (x : Vex3) (v : BitVec 4) : Vex3 × BitVec 4 :=
  (⟨x.r, x.x, false, x.w⟩, v &&& 7#4)

/-- The three-byte VEX prefix after its byte `C4` (R56, R57, R59). -/
def parseC4 (mode : Mode) (P : List Byte) (hadRex : Bool) : List Byte → Decoded
  | [] => .truncated
  | v1 :: bs =>
    if mode ≠ .mode64 ∧ v1.extractLsb' 6 2 ≠ 3#2 then .refused .outOfScope
    else
      match bs with
      | [] => .truncated
      | v2 :: bs =>
        if v1.extractLsb' 0 5 ≠ 1#5 ∨ v2.extractLsb' 0 2 ≠ 1#2 then .refused .outOfScope
        else
          let x : Vex3 := ⟨!v1[7], !v1[6], !v1[5], v2[7]⟩
          let v : BitVec 4 := ~~~(v2.extractLsb' 3 4)
          let xv := if mode = .mode64 then (x, v) else vexMode32 x v
          parseOpcode (fun e reg rm => vexVerdict P hadRex (.c4 (v2[2]) xv.1 xv.2 e reg rm)) bs

/-- The bytes after the legacy prefixes and REX (R51 steps 3 and 4). -/
def parseBody (mode : Mode) (P : List Byte) (rex : Option Rex) : List Byte → Decoded
  | [] => .truncated
  | b :: bs =>
    if b = 0x0F#8 then parseOpcode (legacyVerdict P rex) bs
    else if b = 0xC5#8 then parseC5 mode P rex.isSome bs
    else if b = 0xC4#8 then parseC4 mode P rex.isSome bs
    else .refused .outOfScope

/-- The decoder (R51): legacy prefixes, then in `MODE64` one REX byte, then the rest. -/
def decode (mode : Mode) (bytes : List Byte) : Decoded :=
  let P := (splitPrefixes bytes).1
  match (splitPrefixes bytes).2 with
  | [] => .truncated
  | b :: bs =>
    if mode = .mode64 ∧ isRexByte b then parseBody mode P (some (Rex.ofByte b)) bs
    else parseBody mode P none (b :: bs)

/-! ### The encoder -/

/-- REX byte, `0100WRXB` (R55). -/
def Rex.toByte (rex : Rex) : Byte :=
  4#4 ++ BitVec.ofBool rex.w ++ BitVec.ofBool rex.r ++ BitVec.ofBool rex.x ++ BitVec.ofBool rex.b

/-- A ModRM byte (R62); a SIB byte has the same three fields (R67). -/
def modrmByte (mod : BitVec 2) (reg rm : BitVec 3) : Byte := mod ++ reg ++ rm

/-- Four displacement bytes, least significant first (R69). -/
def disp32Bytes (d : BitVec 32) : List Byte :=
  [d.extractLsb' 0 8, d.extractLsb' 8 8, d.extractLsb' 16 8, d.extractLsb' 24 8]

/-- ModRM byte, SIB byte and displacement (R62, R66, R67, R69). -/
def encodeRm (reg : BitVec 3) : RmOp → List Byte
  | .reg rm => [modrmByte 3#2 reg rm]
  | .mem (.base rm) => [modrmByte 0#2 reg rm]
  | .mem (.disp32 d) => modrmByte 0#2 reg 5#3 :: disp32Bytes d
  | .mem (.baseDisp8 rm d) => [modrmByte 1#2 reg rm, d]
  | .mem (.baseDisp32 rm d) => modrmByte 2#2 reg rm :: disp32Bytes d
  | .mem (.sib sc ix bs) => [modrmByte 0#2 reg 4#3, modrmByte sc ix bs]
  | .mem (.sibNoBase sc ix d) => modrmByte 0#2 reg 4#3 :: modrmByte sc ix 5#3 :: disp32Bytes d
  | .mem (.sibDisp8 sc ix bs d) => [modrmByte 1#2 reg 4#3, modrmByte sc ix bs, d]
  | .mem (.sibDisp32 sc ix bs d) => modrmByte 2#2 reg 4#3 :: modrmByte sc ix bs :: disp32Bytes d

/-- The bytes of a shape, in address order (R71, R72). -/
def Shape.encode : Shape → List Byte
  | .legacy sse rex e reg rm =>
    (if sse then [0x66#8] else []) ++ (rex.map Rex.toByte).toList ++ [0x0F#8, e.opcode] ++ encodeRm reg rm
  | .c5 l r v e reg rm =>
    [0xC5#8, BitVec.ofBool (!r) ++ ~~~v ++ BitVec.ofBool l ++ 1#2, e.opcode] ++ encodeRm reg rm
  | .c4 l x v e reg rm =>
    [0xC4#8, BitVec.ofBool (!x.r) ++ BitVec.ofBool (!x.x) ++ BitVec.ofBool (!x.b) ++ 1#5,
      BitVec.ofBool x.w ++ ~~~v ++ BitVec.ofBool l ++ 1#2, e.opcode] ++ encodeRm reg rm

/-- The bytes of an instruction in address order. -/
def encode (i : Instr) : List Byte := i.shape.encode

/-! ### The words of the opcode table -/

/-- The `n` bytes of the number `w`, the most significant first: the order in which spec/30_encoding.md R73 writes a
row's `match` ("the same bytes as one hexadecimal number, first byte most significant"). -/
def bytesOfWord : Nat → Nat → List Byte
  | 0, _ => []
  | n + 1, w => BitVec.ofNat 8 (w >>> (8 * n)) :: bytesOfWord n w

/-- The instruction stream that holds a table word: its `nbits / 8` bytes in address order, then bytes of zero up to
the longest instruction the decoder accepts. -/
def tableBytes (nbits w : Nat) : List Byte :=
  bytesOfWord (nbits / 8) w ++ List.replicate (maxLen - nbits / 8) 0#8

/-- What the decoder reads in `MODE64`, the mode in which every row of the opcode table is an instruction, from an
instruction whose bits are the number `w` of `nbits` bits as spec/opcode_table.json writes a row's `match`. -/
def decodeTableWord (nbits w : Nat) : Option Instr :=
  match decode .mode64 (tableBytes nbits w) with
  | .instr i => some i
  | _ => none

end Sys2Proof
end

