-- ==== Sys2Proof/Machine/State.lean ====
section
/-! DEFINITION. The state of the machine (spec/10_state.md R10), the reasons a step can stop, and the state right after
reset (R27). -/

namespace Sys2Proof.Machine

/-- Memory (R22) as a list of (address, byte) pairs: addresses rise strictly, and no entry holds the byte an unlisted
address reads as. `Memory.wf` says so. -/
abbrev Memory := List Host.Cell

/-- What an unlisted address reads as. The spec gives memory no reset value and no default (R27); every content of memory
can be listed, so no statement about every state rests on this byte. DESIGN CHOICE (notes/assumptions/3.md). -/
def Memory.unlisted : Byte := 0#8

/-- The x87 components an MMX form writes as a side effect (R12). -/
structure X87 where
  /-- `X87.TOP`, the top-of-stack field. -/
  top : BitVec 3
  /-- `X87.TAG[0..7]`, the tag word. -/
  tag : Vector (BitVec 2) 8
  /-- `X87.EXP[0..7]`, bits 79:64 of the physical data registers. -/
  exp : Vector (BitVec 16) 8
  deriving DecidableEq, Repr

/-- The architectural state (R10) and, as data no instruction writes, the launch configuration `Cfg` (R4). -/
structure State where
  /-- `MM[0..7]`: bits 63:0 of the x87 physical data registers (R11, R12). -/
  mm : Vector Mm 8
  /-- The x87 components (R12). -/
  x87 : X87
  /-- `YMM[0..15]`; `XMM[i]` is `YMM[i][127:0]` and is stored once (R6, R13). -/
  ymm : Vector Ymm 16
  /-- `GPR[0..15]` (R14). -/
  gpr : Vector (BitVec 64) 16
  /-- `RIP`, the address of the instruction's first byte (R15). -/
  rip : Addr
  /-- `EFLAGS` (R18). -/
  eflags : BitVec 32
  /-- `MXCSR` (R19). -/
  mxcsr : BitVec 32
  /-- Memory (R22). -/
  mem : Memory
  /-- The launch configuration (R4). -/
  cfg : Cfg
  deriving DecidableEq, Repr

/-- The `Fault(vector, error_code, info, RIP)` outcomes of R150: a raised exception ends the run, and `rip` is the
address of the first byte of the faulting instruction. A fault is SAFE in that the run stops where the processor would
run a handler (decision D11); a fault condition the chip has and the spec lacks would be unsafe (G8, G9, G11). -/
inductive Fault where
  /-- #UD, vector 6, no error code: raised by every form's checks (R142 to R144) and by the decoder's `UD` (R75). Safe. -/
  | ud (rip : Addr)
  /-- #NM, vector 7, no error code: raised by every form when CR0.TS = 1 (R145). Safe. -/
  | nm (rip : Addr)
  /-- #SS(0), vector 12: raised by a memory operand or a fetch when `Plat.access` says so (R149). Safe. -/
  | ss (rip : Addr)
  /-- #GP(0), vector 13: raised by a misaligned m128 of a legacy SSE form (R148), by a memory operand or a fetch when
  `Plat.access` says so (R149), and by a sequence longer than 15 bytes (R52). Safe. -/
  | gp (rip : Addr)
  /-- #PF(code), vector 14, with the faulting linear address: raised by a memory operand or a fetch when `Plat.access`
  says so (R149). Safe. -/
  | pf (code : Nat) (addr : Addr) (rip : Addr)
  /-- #MF, vector 16, no error code: raised by the MMX forms when an x87 exception is pending (R146). Safe. -/
  | mf (rip : Addr)
  /-- #AC(0), vector 17: raised by a misaligned m64 of an MMX form under alignment checking (R147). Safe. -/
  | ac (rip : Addr)
  deriving DecidableEq, Repr

/-- Why the model has no meaning for what it was asked to run. Every refusal is SAFE: nothing follows from it about the
chip. -/
inductive Refusal where
  /-- No meaning yet for the named instruction. Raised by no arm: every instruction has its meaning. Safe. -/
  | notModelled (mnemonic : String)
  /-- `Refused(OutOfScope)`: the bytes at `RIP` are not one of the twelve forms (R51, R75). Raised by the step. Safe. -/
  | outOfScope
  /-- `Refused(Prefix)`: one of the forms after prefixes the spec does not admit (R53, R54). Raised by the step. Safe. -/
  | badPrefixes
  /-- The launch mode is not one the spec models (R3, R75, decision D3). Raised by the step and every form. Safe. -/
  | modeOutOfScope
  /-- `HAS_AVX2` without `HAS_AVX` (R144, decision D4). Raised by the step and every form. Safe. -/
  | inconsistentFeatures
  /-- A launch with EFLAGS.TF = 1 or an armed debug register over the program or its data (R165). Raised by the step and
  every form. Safe. -/
  | debugLaunch
  /-- A data read the platform admits at an address whose read has a side effect (R35). Raised by a form with a memory
  operand. Safe. -/
  | deviceRead
  deriving DecidableEq, Repr

/-- The enabling bits after RESET as R27 states them: CR0 = 0x60000010, CR4 = 0, XCR0 = 1. `x87Pending` is a DESIGN
CHOICE (notes/assumptions/2.md). -/
def Env.afterReset : Env :=
  { cr0Em := false, cr0Ts := false, cr4Osfxsr := false, cr4Osxsave := false,
    xcr0Sse := false, xcr0Avx := false, x87Pending := false, acCheck := false }

/-- The configuration after RESET: real-address mode (R27). The feature flags and the platform are DESIGN CHOICES
(notes/assumptions/2.md). -/
def Cfg.afterReset : Cfg :=
  { mode := .realAddress
    features := { mmx := true, sse2 := true, avx := true, avx2 := true }
    env := Env.afterReset
    plat := { regions := [], devices := [], beyondTop := none }
    debugArmed := false }

/-- The machine right after RESET, with the hardware values R27 lists: XMM/YMM 0, the x87 data registers +0.0, every tag
01b, TOP 0, MXCSR 0x1F80, EFLAGS 0x00000002, and `RIP` at the first fetch address of R38. The spec models no run from
here: the mode is one it refuses (R170). The general registers and memory are DESIGN CHOICES
(notes/assumptions/2.md, 3.md). -/
def State.reset : State :=
  { mm := Vector.replicate 8 0#64
    x87 := { top := 0#3, tag := Vector.replicate 8 1#2, exp := Vector.replicate 8 0#16 }
    ymm := Vector.replicate 16 0#256
    gpr := Vector.replicate 16 0#64
    rip := 0xFFFFFFF0#64
    eflags := 0x00000002#32
    mxcsr := 0x1F80#32
    mem := []
    cfg := Cfg.afterReset }

end Sys2Proof.Machine
end

