-- ==== Sys2Proof/Machine/Flags.lean ====
section
/-! DEFINITION. The flags register. No form reads or writes a flag ("Flags Affected: None.", spec/10_state.md R18,
spec/40_padd_legacy.md R103), so no meaning computes one: this file names the one bit of `EFLAGS` that the launch of a run
speaks of. EFLAGS.AC (bit 18, R20) reaches a form only through the launch parameter `Env.acCheck`. -/

namespace Sys2Proof.Machine

/-- EFLAGS.TF, the single-step flag a launch must not have set (R165). The bit's number, 8, is PRESUMED
(notes/assumptions/9.md). -/
def State.tf (s : State) : Bool := s.eflags.getLsbD 8

end Sys2Proof.Machine
end

