-- ==== Sys2Proof/Machine/Ops.lean ====
section
/-! DEFINITION. The named operations over memory, the platform and the registers, the lane function `padd_w`, and taking
an exception. Every meaning is written over these. -/

namespace Sys2Proof.Machine

/-! ### Taking an exception -/

/-- How an instruction ends that does not complete: the two stopping outcomes of R173. -/
inductive Stop where
  | fault (f : Fault)
  | refused (r : Refusal)
  deriving DecidableEq, Repr

/-- The outcome of a step that stops. -/
def Stop.outcome : Stop → Host.Outcome State Fault Refusal
  | .fault f => .fault f
  | .refused r => .refused r

/-- `raise`, the one way an exception is taken (R7, R150): the run ends with the fault, `RIP` that of the faulting
instruction's first byte, and nothing has been written. The spec has no handler, no frame, no mode change and no return
(R150, R154). -/
def raise (exception : Addr → Fault) (s : State) : Stop := .fault (exception s.rip)

/-- The vector number of a fault (R141). -/
def Fault.vector : Fault → Nat
  | .ud _ => 6
  | .nm _ => 7
  | .ss _ => 12
  | .gp _ => 13
  | .pf _ _ _ => 14
  | .mf _ => 16
  | .ac _ => 17

/-- The error code of a fault, none where the exception has none (R141). -/
def Fault.errorCode : Fault → Option Nat
  | .ud _ => none
  | .nm _ => none
  | .ss _ => some 0
  | .gp _ => some 0
  | .pf code _ _ => some code
  | .mf _ => none
  | .ac _ => some 0

/-- The recorded `info` of a fault: the faulting linear address of a page fault (R141, R149). -/
def Fault.info : Fault → Option Addr
  | .pf _ addr _ => some addr
  | _ => none

/-- The `RIP` a fault reports (R150). -/
def Fault.rip : Fault → Addr
  | .ud rip => rip
  | .nm rip => rip
  | .ss rip => rip
  | .gp rip => rip
  | .pf _ _ rip => rip
  | .mf rip => rip
  | .ac rip => rip

/-! ### Memory -/

/-- The byte at an address (R22). -/
def Memory.read : Memory → Nat → Byte
  | [], _ => Memory.unlisted
  | (a, v) :: m, x => if x = a then v else Memory.read m x

/-- Memory with one byte replaced, the canonical form kept. No instruction in scope writes memory (R35): only the caller
of a run does, when it loads a program (R174). -/
def Memory.write : Memory → Nat → Byte → Memory
  | [], x, v => if v = Memory.unlisted then [] else [(x, v)]
  | (a, w) :: m, x, v =>
    if x < a then
      if v = Memory.unlisted then (a, w) :: m else (x, v) :: (a, w) :: m
    else if x = a then
      if v = Memory.unlisted then m else (a, v) :: m
    else (a, w) :: Memory.write m x v

/-- The canonical form of memory: addresses below 2^64 that rise strictly, and no entry that holds the unlisted byte. -/
def Memory.wf : Memory → Bool
  | [] => true
  | (a, v) :: m =>
    decide (a < 2 ^ 64) && (v != Memory.unlisted) && m.all (fun c => decide (a < c.1)) && Memory.wf m

/-! ### Addresses -/

/-- An address of the mode's address space: 64 bits in `MODE64`, in `MODE32` 32 bits zero-extended (R15, R22, R70). -/
def State.wrapAddr (s : State) (a : Addr) : Addr :=
  if s.cfg.mode = .mode64 then a else (a.setWidth 32).setWidth 64

/-- The address of byte `k` of an access at `a` (R30). The sum wraps like every address sum (R16, R66, R70): DEDUCED
(notes/assumptions/6.md). -/
def State.byteAddr (s : State) (a : Addr) (k : Nat) : Addr := s.wrapAddr (a + BitVec.ofNat 64 k)

/-- The byte of memory at a linear address. -/
def State.readByte (s : State) (a : Addr) : Byte := Memory.read s.mem a.toNat

/-! ### The platform -/

def Span.covers (sp : Span) (a : Addr) : Bool := decide (sp.first ≤ a) && decide (a ≤ sp.last)

/-- Does the region fail the byte at `b` in an `n`-byte access of this kind at `a`? -/
def Region.fails (r : Region) (kind : AccessKind) (a : Addr) (n : Nat) (b : Addr) : Bool :=
  decide (r.kind = kind) && Span.covers r.start a && decide (r.minBytes ≤ n) && decide (n ≤ r.maxBytes) &&
    Span.covers r.bytes b

/-- The fault of the first region that fails the byte at `b`, none if the platform admits it. -/
def regionFault (kind : AccessKind) (a : Addr) (n : Nat) (b : Addr) : List Region → Option PlatFault
  | [] => none
  | r :: rs => if Region.fails r kind a n b then some r.verdict else regionFault kind a n b rs

/-- What the platform answers for byte `k` of an `n`-byte access at `a` (R36): a byte beyond the top of the address space
gets `Plat.beyondTop` if that is a fault, every other byte its region's fault. -/
def State.byteFault (s : State) (kind : AccessKind) (a : Addr) (n k : Nat) : Option PlatFault :=
  if (s.byteAddr a k).toNat < a.toNat ∧ s.cfg.plat.beyondTop.isSome then s.cfg.plat.beyondTop
  else regionFault kind a n (s.byteAddr a k) s.cfg.plat.regions

/-- The first of `f 0`, `f 1`, …, `f (n - 1)` that is not none, with its place. -/
def firstSome {α : Type} (f : Nat → Option α) : Nat → Option (Nat × α)
  | 0 => none
  | n + 1 =>
    match firstSome f n with
    | some r => some r
    | none => (f n).map fun v => (n, v)

/-- Does some byte of an `n`-byte access at `a` have a read side effect? -/
def State.touchesDevice (s : State) (a : Addr) : Nat → Bool
  | 0 => false
  | n + 1 => s.touchesDevice a n || s.cfg.plat.devices.any (fun sp => Span.covers sp (s.byteAddr a n))

/-- The exception of a platform fault at a linear address (R36, R141, R149). -/
def PlatFault.toFault (f : PlatFault) (addr rip : Addr) : Fault :=
  match f with
  | .gp => .gp rip
  | .ss => .ss rip
  | .pf code => .pf code addr rip

/-- `Plat.access(kind, a, n)` (R36): none is `Ok`; otherwise the fault of the first failing byte in address order. -/
def State.access (s : State) (kind : AccessKind) (a : Addr) (n : Nat) : Option Stop :=
  match firstSome (s.byteFault kind a n) n with
  | some (k, f) => some (raise (PlatFault.toFault f (s.byteAddr a k)) s)
  | none => none

/-! ### Lanes -/

/-- `lane_w(v, i)`: lane `i` of width `w` (R7). -/
def lane (w : Nat) {N : Nat} (v : BitVec N) (i : Nat) : BitVec w := v.extractLsb' (w * i) w

/-- The number whose lane `i` is `f i` for every `i < n`, lane 0 the least significant. -/
def packLanes {w : Nat} (f : Nat → BitVec w) : Nat → Nat
  | 0 => 0
  | n + 1 => 2 ^ (w * n) * (f n).toNat + packLanes f n

/-- `padd_w(N, a, b)` (R100): every lane of `a` plus the same lane of `b` modulo 2^w, no carry between lanes (R101). -/
def padd (w N : Nat) (a b : BitVec N) : BitVec N :=
  BitVec.ofNat N (packLanes (fun i => lane w a i + lane w b i) (N / w))

/-- `MemRead(a, N / 8)` once the access is admitted: the little-endian value (R30, R36). -/
def State.load (s : State) (a : Addr) (N : Nat) : BitVec N :=
  BitVec.ofNat N (packLanes (fun k => s.readByte (s.byteAddr a k)) (N / 8))

/-! ### Registers -/

/-- `MM[i]` (R6, R11). -/
def State.readMm (s : State) (i : BitVec 3) : Mm := s.mm[i.toNat]'i.isLt

/-- `YMM[i]` (R6, R13). -/
def State.readYmm (s : State) (i : BitVec 4) : Ymm := s.ymm[i.toNat]'i.isLt

/-- `XMM[i]`, the field `YMM[i][127:0]` (R6, R13). -/
def State.readXmm (s : State) (i : BitVec 4) : Xmm := (s.readYmm i).setWidth 128

/-- `GPR[i]` (R6, R14). -/
def State.readGpr (s : State) (i : BitVec 4) : BitVec 64 := s.gpr[i.toNat]'i.isLt

/-- The x87 physical data register `R[i]`, 80 bits, whose bits 63:0 are `MM[i]` (R12). -/
def State.readX87 (s : State) (i : BitVec 3) : BitVec 80 := s.x87.exp[i.toNat]'i.isLt ++ s.readMm i

/-- `MM[i] <- v`, with the side effects on the x87 components that every completed MMX form has (R12). -/
def State.writeMm (s : State) (i : BitVec 3) (v : Mm) : State :=
  { s with
    mm := s.mm.set i.toNat v i.isLt
    x87 := { top := 0#3, tag := Vector.replicate 8 0#2, exp := s.x87.exp.set i.toNat 0xFFFF#16 i.isLt } }

/-- `YMM[i] <- v`: all 256 bits (R13, third row). -/
def State.writeYmm (s : State) (i : BitVec 4) (v : Ymm) : State :=
  { s with ymm := s.ymm.set i.toNat v i.isLt }

/-- `XMM[i] <- v` of a legacy form: bits 127:0, the upper bits as they were (R6, R13, first row). -/
def State.writeXmm (s : State) (i : BitVec 4) (v : Xmm) : State :=
  s.writeYmm i ((s.readYmm i).extractLsb' 128 128 ++ v)

/-- `YMM[i] <- zext_VLMAX(v)` of a VEX.128 form: the upper bits zeroed (R13, second row; R121). -/
def State.writeXmmZext (s : State) (i : BitVec 4) (v : Xmm) : State := s.writeYmm i (v.setWidth 256)

/-- `next`, the address after an instruction of `len` bytes, modulo 2^64 or 2^32 by the mode (R15, R16). -/
def State.nextRip (s : State) (len : Nat) : Addr := s.wrapAddr (s.rip + BitVec.ofNat 64 len)

/-- `RIP <- next` (R16). -/
def State.advance (s : State) (len : Nat) : State := { s with rip := s.nextRip len }

end Sys2Proof.Machine
end

