-- ==== Sys2Proof/Machine/Checks.lean ====
section
/-! DEFINITION. The checks made before any operand is read: the launches the spec refuses, and `Precheck`
(spec/60_exceptions.md R142 to R146, R151, R165). -/

namespace Sys2Proof.Machine

/-- The condition sets of R140, the VEX set split by vector length (R151). -/
inductive FormClass where
  | mmx
  | sse
  | vex128
  | vex256
  deriving DecidableEq, Repr

/-- The launches the spec refuses: a mode it does not model (R3), AVX2 without AVX (R144), a single-step or debug
launch (R165). -/
def launchRefusal (s : State) : Option Refusal :=
  if s.cfg.mode.modelled = false then some .modeOutOfScope
  else if s.cfg.features.avx2 && !s.cfg.features.avx then some .inconsistentFeatures
  else if s.tf || s.cfg.debugArmed then some .debugLaunch
  else none

/-- The #UD conditions of a class (R142, R143, R144, R151), but for LOCK and the other bad prefixes, which the decoder
reports. -/
def udCondition (cls : FormClass) (s : State) : Bool :=
  let f := s.cfg.features
  let e := s.cfg.env
  match cls with
  | .mmx => !f.mmx || e.cr0Em
  | .sse => !f.sse2 || e.cr0Em || !e.cr4Osfxsr
  | .vex128 => !f.avx || !e.cr4Osxsave || !(e.xcr0Sse && e.xcr0Avx)
  | .vex256 => !f.avx2 || !e.cr4Osxsave || !(e.xcr0Sse && e.xcr0Avx)

/-- `Precheck(class)` (R151): #UD, then #NM, then for the MMX forms #MF. The launches the spec refuses are refused
first. -/
def precheck (cls : FormClass) (s : State) : Option Stop :=
  match launchRefusal s with
  | some r => some (.refused r)
  | none =>
    if udCondition cls s then some (raise .ud s)
    else if s.cfg.env.cr0Ts then some (raise .nm s)
    else if cls = .mmx ∧ s.cfg.env.x87Pending then some (raise .mf s)
    else none

end Sys2Proof.Machine
end

