-- ==== Sys2Proof/Machine/Operands.lean ====
section
/-! DEFINITION. The operands: register numbers (spec/30_encoding.md R63, R64), the address of a memory operand (R66 to
R70), and `ReadSrc` (spec/60_exceptions.md R152). -/

namespace Sys2Proof.Machine

/-- The extension bits `R`, `X`, `B` of a REX or VEX prefix (R55, R58). -/
structure Ext where
  r : Bool
  x : Bool
  b : Bool
  deriving DecidableEq, Repr

/-- No prefix: every extension bit is 0 (R55). -/
def Ext.none : Ext := ⟨false, false, false⟩

def Ext.ofRex (rex : Rex) : Ext := ⟨rex.r, rex.x, rex.b⟩

/-- A two-byte VEX prefix implies X = 0 and B = 0 (R56). -/
def Ext.ofC5 (r : Bool) : Ext := ⟨r, false, false⟩

def Ext.ofC4 (x : Vex3) : Ext := ⟨x.r, x.x, x.b⟩

/-- A register number: an extension bit above a three-bit field (R63, R74). -/
def regNum (hi : Bool) (lo : BitVec 3) : BitVec 4 := BitVec.ofBool hi ++ lo

/-- The index part `I` of a SIB address: none for number 4, else the register shifted by the scale (R67). -/
def sibIndex {w : Nat} (reg : BitVec 4 → BitVec w) (x : Bool) (scale : BitVec 2) (index : BitVec 3) : BitVec w :=
  if regNum x index = 4#4 then 0#w else reg (regNum x index) <<< scale.toNat

/-- The effective address, over `w`-bit registers `reg` (R66, R67, R69). `origin` is what a displacement with mod 00 and
rm 5 is added to: `next` in `MODE64` (R68), 0 in `MODE32` (R70). -/
def effectiveAddr {w : Nat} (reg : BitVec 4 → BitVec w) (origin : BitVec w) (e : Ext) : MemForm → BitVec w
  | .base rm => reg (regNum e.b rm)
  | .disp32 d => origin + d.signExtend w
  | .baseDisp8 rm d => reg (regNum e.b rm) + d.signExtend w
  | .baseDisp32 rm d => reg (regNum e.b rm) + d.signExtend w
  | .sib sc ix bs => reg (regNum e.b bs) + sibIndex reg e.x sc ix
  | .sibNoBase sc ix d => sibIndex reg e.x sc ix + d.signExtend w
  | .sibDisp8 sc ix bs d => reg (regNum e.b bs) + sibIndex reg e.x sc ix + d.signExtend w
  | .sibDisp32 sc ix bs d => reg (regNum e.b bs) + sibIndex reg e.x sc ix + d.signExtend w

/-- The linear address of the memory operand of an instruction of `len` bytes: the effective address itself, in
`MODE32` with no extension bits, over the low halves of the registers, zero-extended (R37, R70). -/
def State.linearAddr (s : State) (e : Ext) (len : Nat) (m : MemForm) : Addr :=
  if s.cfg.mode = .mode64 then effectiveAddr s.readGpr (s.nextRip len) e m
  else (effectiveAddr (fun i => (s.readGpr i).setWidth 32) 0#32 Ext.none m).setWidth 64

/-- The checks of `ReadSrc` on an `n`-byte memory operand at `a` (R147, R148, R149, R152): the legacy SSE alignment, then
the platform, then the alignment check of the MMX forms. A read the platform admits at a device address is refused
(R35). -/
def readCheck (cls : FormClass) (n : Nat) (a : Addr) (s : State) : Option Stop :=
  if cls = .sse ∧ a.toNat % 16 ≠ 0 then some (raise .gp s)
  else
    match s.access .read a n with
    | some stop => some stop
    | none =>
      if s.touchesDevice a n then some (.refused .deviceRead)
      else if cls = .mmx ∧ s.cfg.env.acCheck ∧ a.toNat % 8 ≠ 0 then some (raise .ac s)
      else none

/-- `ReadSrc(class, N / 8)` (R152): the register source, or the memory operand after its checks. -/
def readSrc (cls : FormClass) (N : Nat) (reg : BitVec 3 → BitVec N) (e : Ext) (len : Nat) (rm : RmOp) (s : State) :
    Except Stop (BitVec N) :=
  match rm with
  | .reg r => .ok (reg r)
  | .mem m =>
    match readCheck cls (N / 8) (s.linearAddr e len m) s with
    | some stop => .error stop
    | none => .ok (s.load (s.linearAddr e len m) N)

end Sys2Proof.Machine
end

