-- ==== Sys2Proof/Machine/Forms.lean ====
section
/-! DEFINITION. The four patterns the twelve forms follow (spec/40_padd_legacy.md R104 to R109, spec/41_vpadd_vex.md R122
to R127): the checks, the source operand, the lane-wise sum, the destination, `RIP <- next`. -/

namespace Sys2Proof.Machine

/-- What every form does around its own effect: `Precheck`, `ReadSrc`, then `finish` and the advance of `RIP`. A stop
leaves nothing written (R150, R155). -/
def runForm (cls : FormClass) (N : Nat) (reg : BitVec 3 → BitVec N) (e : Ext) (len : Nat) (rm : RmOp)
    (finish : BitVec N → State) (s : State) : Host.Outcome State Fault Refusal :=
  match precheck cls s with
  | some stop => stop.outcome
  | none =>
    match readSrc cls N reg e len rm s with
    | .error stop => stop.outcome
    | .ok src => .next ((finish src).advance len)

/-- An MMX form of lane width `w` (R104, R105, R106). The extension bits reach only the address (R64). -/
def mmxForm (w : Nat) (e : Ext) (reg : BitVec 3) (rm : RmOp) (len : Nat) (s : State) :
    Host.Outcome State Fault Refusal :=
  runForm .mmx 64 s.readMm e len rm (fun src => s.writeMm reg (padd w 64 (s.readMm reg) src)) s

/-- A legacy SSE2 form of lane width `w` (R107, R108, R109): bits 255:128 of the destination stay. -/
def sseForm (w : Nat) (e : Ext) (reg : BitVec 3) (rm : RmOp) (len : Nat) (s : State) :
    Host.Outcome State Fault Refusal :=
  runForm .sse 128 (fun r => s.readXmm (regNum e.b r)) e len rm
    (fun src => s.writeXmm (regNum e.r reg) (padd w 128 (s.readXmm (regNum e.r reg)) src)) s

/-- A VEX.128 form of lane width `w` (R122, R123, R124): bits 255:128 of the destination become 0. -/
def vex128Form (w : Nat) (e : Ext) (v : BitVec 4) (reg : BitVec 3) (rm : RmOp) (len : Nat) (s : State) :
    Host.Outcome State Fault Refusal :=
  runForm .vex128 128 (fun r => s.readXmm (regNum e.b r)) e len rm
    (fun src => s.writeXmmZext (regNum e.r reg) (padd w 128 (s.readXmm v) src)) s

/-- A VEX.256 form of lane width `w` (R125, R126, R127). -/
def vex256Form (w : Nat) (e : Ext) (v : BitVec 4) (reg : BitVec 3) (rm : RmOp) (len : Nat) (s : State) :
    Host.Outcome State Fault Refusal :=
  runForm .vex256 256 (fun r => s.readYmm (regNum e.b r)) e len rm
    (fun src => s.writeYmm (regNum e.r reg) (padd w 256 (s.readYmm v) src)) s

end Sys2Proof.Machine
end

