-- ==== Sys2Proof/Machine/Mmx.lean ====
section
/-! DEFINITION. The MMX forms of PADDB, PADDW and PADDD (spec/40_padd_legacy.md R104 to R106). -/

namespace Sys2Proof.Machine

/-- `0F FC /r`, `PADDB mm, mm/m64` (R104). -/
def execPaddbMmx (reg : BitVec 3) (rm : RmOp) (s : State) : Host.Outcome State Fault Refusal :=
  mmxForm 8 Ext.none reg rm (Instr.paddbMmx reg rm).length s

/-- `REX 0F FC /r`, `PADDB mm, mm/m64` (R104) with a REX byte (R55, R64). -/
def execPaddbMmxRex (rex : Rex) (reg : BitVec 3) (rm : RmOp) (s : State) : Host.Outcome State Fault Refusal :=
  mmxForm 8 (Ext.ofRex rex) reg rm (Instr.paddbMmxRex rex reg rm).length s

/-- `0F FD /r`, `PADDW mm, mm/m64` (R105). -/
def execPaddwMmx (reg : BitVec 3) (rm : RmOp) (s : State) : Host.Outcome State Fault Refusal :=
  mmxForm 16 Ext.none reg rm (Instr.paddwMmx reg rm).length s

/-- `REX 0F FD /r`, `PADDW mm, mm/m64` (R105) with a REX byte (R55, R64). -/
def execPaddwMmxRex (rex : Rex) (reg : BitVec 3) (rm : RmOp) (s : State) : Host.Outcome State Fault Refusal :=
  mmxForm 16 (Ext.ofRex rex) reg rm (Instr.paddwMmxRex rex reg rm).length s

/-- `0F FE /r`, `PADDD mm, mm/m64` (R106). -/
def execPadddMmx (reg : BitVec 3) (rm : RmOp) (s : State) : Host.Outcome State Fault Refusal :=
  mmxForm 32 Ext.none reg rm (Instr.padddMmx reg rm).length s

/-- `REX 0F FE /r`, `PADDD mm, mm/m64` (R106) with a REX byte (R55, R64). -/
def execPadddMmxRex (rex : Rex) (reg : BitVec 3) (rm : RmOp) (s : State) : Host.Outcome State Fault Refusal :=
  mmxForm 32 (Ext.ofRex rex) reg rm (Instr.padddMmxRex rex reg rm).length s

end Sys2Proof.Machine
end

