-- ==== Sys2Proof/Machine/Sse.lean ====
section
/-! DEFINITION. The legacy SSE2 forms of PADDB, PADDW and PADDD (spec/40_padd_legacy.md R107 to R109). -/

namespace Sys2Proof.Machine

/-- `66 0F FC /r`, `PADDB xmm1, xmm2/m128` (R107). -/
def execPaddbSse (reg : BitVec 3) (rm : RmOp) (s : State) : Host.Outcome State Fault Refusal :=
  sseForm 8 Ext.none reg rm (Instr.paddbSse reg rm).length s

/-- `66 REX 0F FC /r`, `PADDB xmm1, xmm2/m128` (R107) with a REX byte (R55, R110). -/
def execPaddbSseRex (rex : Rex) (reg : BitVec 3) (rm : RmOp) (s : State) : Host.Outcome State Fault Refusal :=
  sseForm 8 (Ext.ofRex rex) reg rm (Instr.paddbSseRex rex reg rm).length s

/-- `66 0F FD /r`, `PADDW xmm1, xmm2/m128` (R108). -/
def execPaddwSse (reg : BitVec 3) (rm : RmOp) (s : State) : Host.Outcome State Fault Refusal :=
  sseForm 16 Ext.none reg rm (Instr.paddwSse reg rm).length s

/-- `66 REX 0F FD /r`, `PADDW xmm1, xmm2/m128` (R108) with a REX byte (R55, R110). -/
def execPaddwSseRex (rex : Rex) (reg : BitVec 3) (rm : RmOp) (s : State) : Host.Outcome State Fault Refusal :=
  sseForm 16 (Ext.ofRex rex) reg rm (Instr.paddwSseRex rex reg rm).length s

/-- `66 0F FE /r`, `PADDD xmm1, xmm2/m128` (R109). -/
def execPadddSse (reg : BitVec 3) (rm : RmOp) (s : State) : Host.Outcome State Fault Refusal :=
  sseForm 32 Ext.none reg rm (Instr.padddSse reg rm).length s

/-- `66 REX 0F FE /r`, `PADDD xmm1, xmm2/m128` (R109) with a REX byte (R55, R110). -/
def execPadddSseRex (rex : Rex) (reg : BitVec 3) (rm : RmOp) (s : State) : Host.Outcome State Fault Refusal :=
  sseForm 32 (Ext.ofRex rex) reg rm (Instr.padddSseRex rex reg rm).length s

end Sys2Proof.Machine
end

