-- ==== Sys2Proof/Machine/Vex128.lean ====
section
/-! DEFINITION. The VEX.128 forms VPADDB, VPADDW and VPADDD (spec/41_vpadd_vex.md R122 to R124). -/

namespace Sys2Proof.Machine

/-- `VEX.NDS.128.66.0F.WIG FC /r`, `VPADDB xmm1, xmm2, xmm3/m128` (R122), two-byte prefix (R56). -/
def execVpaddb128C5 (r : Bool) (v : BitVec 4) (reg : BitVec 3) (rm : RmOp) (s : State) :
    Host.Outcome State Fault Refusal :=
  vex128Form 8 (Ext.ofC5 r) v reg rm (Instr.vpaddb128C5 r v reg rm).length s

/-- `VEX.NDS.128.66.0F.WIG FC /r`, `VPADDB xmm1, xmm2, xmm3/m128` (R122), three-byte prefix (R56); VEX.W is ignored (R59). -/
def execVpaddb128C4 (x : Vex3) (v : BitVec 4) (reg : BitVec 3) (rm : RmOp) (s : State) :
    Host.Outcome State Fault Refusal :=
  vex128Form 8 (Ext.ofC4 x) v reg rm (Instr.vpaddb128C4 x v reg rm).length s

/-- `VEX.NDS.128.66.0F.WIG FD /r`, `VPADDW xmm1, xmm2, xmm3/m128` (R123), two-byte prefix (R56). -/
def execVpaddw128C5 (r : Bool) (v : BitVec 4) (reg : BitVec 3) (rm : RmOp) (s : State) :
    Host.Outcome State Fault Refusal :=
  vex128Form 16 (Ext.ofC5 r) v reg rm (Instr.vpaddw128C5 r v reg rm).length s

/-- `VEX.NDS.128.66.0F.WIG FD /r`, `VPADDW xmm1, xmm2, xmm3/m128` (R123), three-byte prefix (R56); VEX.W is ignored (R59). -/
def execVpaddw128C4 (x : Vex3) (v : BitVec 4) (reg : BitVec 3) (rm : RmOp) (s : State) :
    Host.Outcome State Fault Refusal :=
  vex128Form 16 (Ext.ofC4 x) v reg rm (Instr.vpaddw128C4 x v reg rm).length s

/-- `VEX.NDS.128.66.0F.WIG FE /r`, `VPADDD xmm1, xmm2, xmm3/m128` (R124), two-byte prefix (R56). -/
def execVpaddd128C5 (r : Bool) (v : BitVec 4) (reg : BitVec 3) (rm : RmOp) (s : State) :
    Host.Outcome State Fault Refusal :=
  vex128Form 32 (Ext.ofC5 r) v reg rm (Instr.vpaddd128C5 r v reg rm).length s

/-- `VEX.NDS.128.66.0F.WIG FE /r`, `VPADDD xmm1, xmm2, xmm3/m128` (R124), three-byte prefix (R56); VEX.W is ignored (R59). -/
def execVpaddd128C4 (x : Vex3) (v : BitVec 4) (reg : BitVec 3) (rm : RmOp) (s : State) :
    Host.Outcome State Fault Refusal :=
  vex128Form 32 (Ext.ofC4 x) v reg rm (Instr.vpaddd128C4 x v reg rm).length s

end Sys2Proof.Machine
end

