-- ==== Sys2Proof/Machine/Vex256.lean ====
section
/-! DEFINITION. The VEX.256 forms VPADDB, VPADDW and VPADDD (spec/41_vpadd_vex.md R125 to R127). -/

namespace Sys2Proof.Machine

/-- `VEX.NDS.256.66.0F.WIG FC /r`, `VPADDB ymm1, ymm2, ymm3/m256` (R125), two-byte prefix (R56). -/
def execVpaddb256C5 (r : Bool) (v : BitVec 4) (reg : BitVec 3) (rm : RmOp) (s : State) :
    Host.Outcome State Fault Refusal :=
  vex256Form 8 (Ext.ofC5 r) v reg rm (Instr.vpaddb256C5 r v reg rm).length s

/-- `VEX.NDS.256.66.0F.WIG FC /r`, `VPADDB ymm1, ymm2, ymm3/m256` (R125), three-byte prefix (R56); VEX.W is ignored (R59). -/
def execVpaddb256C4 (x : Vex3) (v : BitVec 4) (reg : BitVec 3) (rm : RmOp) (s : State) :
    Host.Outcome State Fault Refusal :=
  vex256Form 8 (Ext.ofC4 x) v reg rm (Instr.vpaddb256C4 x v reg rm).length s

/-- `VEX.NDS.256.66.0F.WIG FD /r`, `VPADDW ymm1, ymm2, ymm3/m256` (R126), two-byte prefix (R56). -/
def execVpaddw256C5 (r : Bool) (v : BitVec 4) (reg : BitVec 3) (rm : RmOp) (s : State) :
    Host.Outcome State Fault Refusal :=
  vex256Form 16 (Ext.ofC5 r) v reg rm (Instr.vpaddw256C5 r v reg rm).length s

/-- `VEX.NDS.256.66.0F.WIG FD /r`, `VPADDW ymm1, ymm2, ymm3/m256` (R126), three-byte prefix (R56); VEX.W is ignored (R59). -/
def execVpaddw256C4 (x : Vex3) (v : BitVec 4) (reg : BitVec 3) (rm : RmOp) (s : State) :
    Host.Outcome State Fault Refusal :=
  vex256Form 16 (Ext.ofC4 x) v reg rm (Instr.vpaddw256C4 x v reg rm).length s

/-- `VEX.NDS.256.66.0F.WIG FE /r`, `VPADDD ymm1, ymm2, ymm3/m256` (R127), two-byte prefix (R56). -/
def execVpaddd256C5 (r : Bool) (v : BitVec 4) (reg : BitVec 3) (rm : RmOp) (s : State) :
    Host.Outcome State Fault Refusal :=
  vex256Form 32 (Ext.ofC5 r) v reg rm (Instr.vpaddd256C5 r v reg rm).length s

/-- `VEX.NDS.256.66.0F.WIG FE /r`, `VPADDD ymm1, ymm2, ymm3/m256` (R127), three-byte prefix (R56); VEX.W is ignored (R59). -/
def execVpaddd256C4 (x : Vex3) (v : BitVec 4) (reg : BitVec 3) (rm : RmOp) (s : State) :
    Host.Outcome State Fault Refusal :=
  vex256Form 32 (Ext.ofC4 x) v reg rm (Instr.vpaddd256C4 x v reg rm).length s

end Sys2Proof.Machine
end

