-- ==== Sys2Proof/Machine/Dispatch.lean ====
section
/-! DEFINITION. The dispatch: one arm per constructor of `Instr`, each a direct call of that instruction's meaning. -/

namespace Sys2Proof.Machine

def exec (i : Instr) (s : State) : Host.Outcome State Fault Refusal :=
  match i with
  | .paddbMmx reg rm => Sys2Proof.Machine.execPaddbMmx reg rm s
  | .paddbMmxRex rex reg rm => Sys2Proof.Machine.execPaddbMmxRex rex reg rm s
  | .paddbSse reg rm => Sys2Proof.Machine.execPaddbSse reg rm s
  | .paddbSseRex rex reg rm => Sys2Proof.Machine.execPaddbSseRex rex reg rm s
  | .paddwMmx reg rm => Sys2Proof.Machine.execPaddwMmx reg rm s
  | .paddwMmxRex rex reg rm => Sys2Proof.Machine.execPaddwMmxRex rex reg rm s
  | .paddwSse reg rm => Sys2Proof.Machine.execPaddwSse reg rm s
  | .paddwSseRex rex reg rm => Sys2Proof.Machine.execPaddwSseRex rex reg rm s
  | .padddMmx reg rm => Sys2Proof.Machine.execPadddMmx reg rm s
  | .padddMmxRex rex reg rm => Sys2Proof.Machine.execPadddMmxRex rex reg rm s
  | .padddSse reg rm => Sys2Proof.Machine.execPadddSse reg rm s
  | .padddSseRex rex reg rm => Sys2Proof.Machine.execPadddSseRex rex reg rm s
  | .vpaddb128C5 r v reg rm => Sys2Proof.Machine.execVpaddb128C5 r v reg rm s
  | .vpaddb128C4 x v reg rm => Sys2Proof.Machine.execVpaddb128C4 x v reg rm s
  | .vpaddb256C5 r v reg rm => Sys2Proof.Machine.execVpaddb256C5 r v reg rm s
  | .vpaddb256C4 x v reg rm => Sys2Proof.Machine.execVpaddb256C4 x v reg rm s
  | .vpaddw128C5 r v reg rm => Sys2Proof.Machine.execVpaddw128C5 r v reg rm s
  | .vpaddw128C4 x v reg rm => Sys2Proof.Machine.execVpaddw128C4 x v reg rm s
  | .vpaddw256C5 r v reg rm => Sys2Proof.Machine.execVpaddw256C5 r v reg rm s
  | .vpaddw256C4 x v reg rm => Sys2Proof.Machine.execVpaddw256C4 x v reg rm s
  | .vpaddd128C5 r v reg rm => Sys2Proof.Machine.execVpaddd128C5 r v reg rm s
  | .vpaddd128C4 x v reg rm => Sys2Proof.Machine.execVpaddd128C4 x v reg rm s
  | .vpaddd256C5 r v reg rm => Sys2Proof.Machine.execVpaddd256C5 r v reg rm s
  | .vpaddd256C4 x v reg rm => Sys2Proof.Machine.execVpaddd256C4 x v reg rm s

end Sys2Proof.Machine
end

