-- ==== Sys2Proof/Machine/Fetch.lean ====
section
/-! DEFINITION. Instruction fetch (spec/20_memory.md R42) and the placing of an instruction where the next step fetches
it. -/

namespace Sys2Proof.Machine

/-- The bytes fetched one at a time from byte `k` of the instruction on (R42, R51), at most `n`: they end before the
first byte the platform does not admit. -/
def State.fetchFrom (s : State) : Nat → Nat → List Byte
  | 0, _ => []
  | n + 1, k =>
    match s.access .fetch (s.byteAddr s.rip k) 1 with
    | some _ => []
    | none => s.readByte (s.byteAddr s.rip k) :: s.fetchFrom n (k + 1)

/-- The bytes the decoder can ask for: at most `MAXLEN` from `RIP` upward (R51, R52). -/
def State.fetchWindow (s : State) : List Byte := s.fetchFrom maxLen 0

/-- Why the byte after the window cannot be had (R42, R52): the fault of fetching it, or, for a sixteenth byte,
#GP(0). -/
def State.fetchStop (s : State) : Stop :=
  if s.fetchWindow.length < maxLen then
    (s.access .fetch (s.byteAddr s.rip s.fetchWindow.length) 1).getD (raise .gp s)
  else raise .gp s

/-- The decoder's refusals as refusals of the step (R51, R75). -/
def NotInSpec.toRefusal : NotInSpec → Refusal
  | .outOfScope => .outOfScope
  | .badPrefixes => .badPrefixes

/-- The bytes stored one after another from byte `k` of the instruction at `RIP` on. -/
def State.placeBytes (s : State) : Nat → List Byte → State
  | _, [] => s
  | k, b :: bs =>
    { s with mem := Memory.write s.mem (s.byteAddr s.rip k).toNat b }.placeBytes (k + 1) bs

/-- The enabling bits of a launch whose `Precheck` passes (R171 (c)); `acCheck` as it was. -/
def Env.enabled (e : Env) : Env :=
  { e with
    cr0Em := false, cr0Ts := false, cr4Osfxsr := true, cr4Osxsave := true,
    xcr0Sse := true, xcr0Avx := true, x87Pending := false }

/-- The caller's launch in 64-bit mode with the forms enabled (R171 (a), (c); R172; R174 (a)). -/
def State.launched (s : State) : State :=
  { s with cfg := { s.cfg with mode := .mode64, env := Env.enabled s.cfg.env } }

end Sys2Proof.Machine
end

