-- ==== Sys2Proof/Machine/Step.lean ====
section
/-! DEFINITION. One step of the machine (spec/30_encoding.md R51, spec/60_exceptions.md R153,
spec/70_reset_and_hazards.md R173). -/

namespace Sys2Proof.Machine

/-- One step: a refused launch, or the instruction at `RIP` fetched, decoded and executed. A fetch fault comes before
everything the instruction could raise (R153). -/
def step (s : State) : Host.Outcome State Fault Refusal :=
  match launchRefusal s with
  | some r => .refused r
  | none =>
    match decode s.cfg.mode s.fetchWindow with
    | .instr i => exec i s
    | .ud => (raise .ud s).outcome
    | .refused why => .refused (NotInSpec.toRefusal why)
    | .truncated => s.fetchStop.outcome

/-- The state with a table word's instruction (`tableBytes`) stored at `RIP`, as the caller of a run launches it (R170,
R171, R174): in 64-bit mode with the forms enabled. From `State.reset` nothing runs without a launch, because the mode
after RESET is one the spec refuses (R27); notes/assumptions/1.md. -/
def State.withFetchWord (s : State) (nbits w : Nat) : State :=
  s.launched.placeBytes 0 (tableBytes nbits w)

end Sys2Proof.Machine
end

