-- ==== Sys2Proof/Machine/Run.lean ====
section
/-! DEFINITION. A run (spec/70_reset_and_hazards.md R173, R174): steps from a launch state until a fault, a refusal, or
`RIP` equal to the end address the caller supplies. -/

namespace Sys2Proof.Machine

/-- How far a run has come, with the state the caller reads at the end (R174 (c)). -/
inductive RunResult where
  /-- `Done`: `RIP` is the caller's `END` (R173). It says nothing of what the chip does there. -/
  | done (s : State)
  /-- A step faulted in this state, which the fault left as it was (R150). -/
  | faulted (f : Fault) (s : State)
  /-- A step was refused in this state. -/
  | refused (r : Refusal) (s : State)
  /-- The given number of steps is used up. -/
  | running (s : State)
  deriving DecidableEq, Repr

/-- The state a run has reached. -/
def RunResult.state : RunResult → State
  | .done s => s
  | .faulted _ s => s
  | .refused _ s => s
  | .running s => s

/-- At most `n` steps of the run that ends at `endAddr` (R173). END is looked at before each step and before the launch
checks, which are the step's: a launch the spec refuses (R3, R144, R165) whose `RIP` is END already answers `done`. The
spec gives no order between the two: DESIGN CHOICE (notes/assumptions/17.md). -/
def run (endAddr : Addr) : Nat → State → RunResult
  | 0, s => if s.rip = endAddr then .done s else .running s
  | n + 1, s =>
    if s.rip = endAddr then .done s
    else
      match step s with
      | .next s' => run endAddr n s'
      | .fault f => .faulted f s
      | .refused r => .refused r s

end Sys2Proof.Machine
end

