-- ==== Sys2Proof/Safety.lean ====
section
/-! DEFINITION. The terms in which statements about the machine are made: when a form is enabled, when its source operand
can be read and what it is, which registers it names, what a step may change, and what counts as a safe run. -/

namespace Sys2Proof

/-- The condition set of a form (spec/60_exceptions.md R140). -/
def Instr.formClass (i : Instr) : Machine.FormClass :=
  match i.shape with
  | .legacy false _ _ _ _ => .mmx
  | .legacy true _ _ _ _ => .sse
  | .c5 false _ _ _ _ _ => .vex128
  | .c5 true _ _ _ _ _ => .vex256
  | .c4 false _ _ _ _ _ => .vex128
  | .c4 true _ _ _ _ _ => .vex256

/-- The operand of ModRM.r/m. -/
def Instr.rmOp (i : Instr) : RmOp :=
  match i.shape with
  | .legacy _ _ _ _ rm => rm
  | .c5 _ _ _ _ _ rm => rm
  | .c4 _ _ _ _ _ rm => rm

/-- The extension bits `R`, `X`, `B` of the form's REX or VEX prefix. -/
def Instr.ext (i : Instr) : Machine.Ext :=
  match i.shape with
  | .legacy _ none _ _ _ => Machine.Ext.none
  | .legacy _ (some rex) _ _ _ => Machine.Ext.ofRex rex
  | .c5 _ r _ _ _ _ => Machine.Ext.ofC5 r
  | .c4 _ x _ _ _ _ => Machine.Ext.ofC4 x

/-- The bytes a form reads when its operand is in memory (spec/20_memory.md R31). -/
def Machine.FormClass.operandBytes : Machine.FormClass → Nat
  | .mmx => 8
  | .sse => 16
  | .vex128 => 16
  | .vex256 => 32

/-- The vector-register numbers a form names: destination, first source of a VEX form, register source (spec/30_encoding.md
R63). None for an MMX form, whose numbers have three bits (R64). -/
def Instr.vectorRegisters (i : Instr) : List (BitVec 4) :=
  let source (b : Bool) (rm : RmOp) : List (BitVec 4) :=
    match rm with
    | .reg r => [Machine.regNum b r]
    | .mem _ => []
  match i.shape with
  | .legacy false _ _ _ _ => []
  | .legacy true rex _ reg rm =>
    Machine.regNum ((rex.map Rex.r).getD false) reg :: source ((rex.map Rex.b).getD false) rm
  | .c5 _ r v _ reg rm => Machine.regNum r reg :: v :: source false rm
  | .c4 _ x v _ reg rm => Machine.regNum x.r reg :: v :: source x.b rm

/-- Does the operand have a SIB byte, so that `X` extends its index number (spec/30_encoding.md R55, R67)? -/
def RmOp.hasSib : RmOp → Bool
  | .reg _ => false
  | .mem (.base _) => false
  | .mem (.disp32 _) => false
  | .mem (.baseDisp8 _ _) => false
  | .mem (.baseDisp32 _ _) => false
  | .mem (.sib _ _ _) => true
  | .mem (.sibNoBase _ _ _) => true
  | .mem (.sibDisp8 _ _ _ _) => true
  | .mem (.sibDisp32 _ _ _ _) => true

/-- Does the operand name a vector register or a base register, so that `B` extends its number (spec/30_encoding.md R55,
R66, R67)? A displacement alone and a SIB byte without a base do not. -/
def RmOp.namesB : RmOp → Bool
  | .reg _ => true
  | .mem (.base _) => true
  | .mem (.disp32 _) => false
  | .mem (.baseDisp8 _ _) => true
  | .mem (.baseDisp32 _ _) => true
  | .mem (.sib _ _ _) => true
  | .mem (.sibNoBase _ _ _) => false
  | .mem (.sibDisp8 _ _ _ _) => true
  | .mem (.sibDisp32 _ _ _ _) => true

/-- Two pairs of bits `X`, `B` agree wherever the operand looks at them. -/
def RmOp.SameBits (rm : RmOp) (x b x' b' : Bool) : Prop :=
  (rm.hasSib = true → x = x') ∧ (rm.namesB = true → b = b')

namespace Machine

/-- The enabling conditions of a class (spec/70_reset_and_hazards.md R171 (c)) in a launch the spec does not refuse. -/
def FormEnabled (cls : FormClass) (s : State) : Prop :=
  launchRefusal s = none ∧ s.cfg.env.cr0Ts = false ∧
  match cls with
  | .mmx => s.cfg.features.mmx = true ∧ s.cfg.env.cr0Em = false ∧ s.cfg.env.x87Pending = false
  | .sse => s.cfg.features.sse2 = true ∧ s.cfg.env.cr0Em = false ∧ s.cfg.env.cr4Osfxsr = true
  | .vex128 =>
    s.cfg.features.avx = true ∧ s.cfg.env.cr4Osxsave = true ∧ s.cfg.env.xcr0Sse = true ∧ s.cfg.env.xcr0Avx = true
  | .vex256 =>
    s.cfg.features.avx2 = true ∧ s.cfg.env.cr4Osxsave = true ∧ s.cfg.env.xcr0Sse = true ∧ s.cfg.env.xcr0Avx = true

/-- The platform admits each of the `n` bytes of a data read at `a`, and no byte has a read side effect
(spec/20_memory.md R35, R36). -/
def ReadAdmitted (s : State) (a : Addr) (n : Nat) : Prop :=
  ∀ k < n, s.byteFault .read a n k = none ∧
    ∀ sp ∈ s.cfg.plat.devices, Span.covers sp (s.byteAddr a k) = false

/-- The alignment a class asks of its memory operand (spec/20_memory.md R32). -/
def AlignedFor (cls : FormClass) (a : Addr) (s : State) : Prop :=
  (cls = .sse → a.toNat % 16 = 0) ∧ (cls = .mmx → s.cfg.env.acCheck = true → a.toNat % 8 = 0)

/-- The source operand can be read: a register always, memory when it is aligned and admitted
(spec/70_reset_and_hazards.md R171 (d)). -/
def SourceReadable (i : Instr) (s : State) : Prop :=
  ∀ m, i.rmOp = .mem m →
    AlignedFor i.formClass (s.linearAddr i.ext i.length m) s ∧
    ReadAdmitted s (s.linearAddr i.ext i.length m) i.formClass.operandBytes

/-- The value of the source operand: the register, or the little-endian value of the bytes in memory. -/
def sourceValue (N : Nat) (reg : BitVec 3 → BitVec N) (i : Instr) (s : State) : BitVec N :=
  match i.rmOp with
  | .reg r => reg r
  | .mem m => s.load (s.linearAddr i.ext i.length m) N

/-- What no form writes (spec/10_state.md R10): general registers, EFLAGS, MXCSR, every byte of memory, the launch
configuration. -/
def Untouched (s t : State) : Prop :=
  t.gpr = s.gpr ∧ t.eflags = s.eflags ∧ t.mxcsr = s.mxcsr ∧ t.mem = s.mem ∧
  (∀ a, t.readByte a = s.readByte a) ∧ t.cfg = s.cfg

/-- Every lane of `r` is the sum of the same lanes of `a` and `b` (spec/40_padd_legacy.md R100). -/
def LaneSums (w N : Nat) (r a b : BitVec N) : Prop := ∀ k < N / w, lane w r k = lane w a k + lane w b k

/-- The state `t` after an MMX form `i` of lane width `w` and destination `MM[reg]` from `s`, every component said: the
lane sums, the x87 side effects (spec/10_state.md R12), `RIP`, and nothing else (spec/40_padd_legacy.md R104 to R106). -/
def MmxCompleted (w : Nat) (i : Instr) (reg : BitVec 3) (s t : State) : Prop :=
  LaneSums w 64 (t.readMm reg) (s.readMm reg) (sourceValue 64 s.readMm i s) ∧
  (∀ j, j ≠ reg → t.readX87 j = s.readX87 j) ∧
  t.readX87 reg = 0xFFFF#16 ++ t.readMm reg ∧
  t.x87.top = 0#3 ∧ (∀ k (h : k < 8), t.x87.tag[k] = 0#2) ∧
  t.ymm = s.ymm ∧ t.rip = s.nextRip i.length ∧ Untouched s t

/-- The state `t` after a legacy SSE2 form: the lane sums in the low half of the destination, its upper half and every
other vector register as before (spec/40_padd_legacy.md R107 to R109). -/
def SseCompleted (w : Nat) (i : Instr) (d : BitVec 4) (s t : State) : Prop :=
  LaneSums w 128 (t.readXmm d) (s.readXmm d) (sourceValue 128 (fun r => s.readXmm (regNum i.ext.b r)) i s) ∧
  (t.readYmm d).extractLsb' 128 128 = (s.readYmm d).extractLsb' 128 128 ∧
  (∀ j, j ≠ d → t.readYmm j = s.readYmm j) ∧
  t.mm = s.mm ∧ t.x87 = s.x87 ∧ t.rip = s.nextRip i.length ∧ Untouched s t

/-- The state `t` after a VEX.128 form: the lane sums in the low half of the destination, its upper half 0, every other
vector register as before (spec/41_vpadd_vex.md R122 to R124). -/
def Vex128Completed (w : Nat) (i : Instr) (v d : BitVec 4) (s t : State) : Prop :=
  LaneSums w 128 (t.readXmm d) (s.readXmm v) (sourceValue 128 (fun r => s.readXmm (regNum i.ext.b r)) i s) ∧
  (t.readYmm d).extractLsb' 128 128 = 0#128 ∧
  (∀ j, j ≠ d → t.readYmm j = s.readYmm j) ∧
  t.mm = s.mm ∧ t.x87 = s.x87 ∧ t.rip = s.nextRip i.length ∧ Untouched s t

/-- The state `t` after a VEX.256 form: the lane sums in the whole destination, every other vector register as before
(spec/41_vpadd_vex.md R125 to R127). -/
def Vex256Completed (w : Nat) (i : Instr) (v d : BitVec 4) (s t : State) : Prop :=
  LaneSums w 256 (t.readYmm d) (s.readYmm v) (sourceValue 256 (fun r => s.readYmm (regNum i.ext.b r)) i s) ∧
  (∀ j, j ≠ d → t.readYmm j = s.readYmm j) ∧
  t.mm = s.mm ∧ t.x87 = s.x87 ∧ t.rip = s.nextRip i.length ∧ Untouched s t

/-- An outcome with a function applied to the next state. -/
def mapNext (f : State → State) : Host.Outcome State Fault Refusal → Host.Outcome State Fault Refusal
  | .next t => .next (f t)
  | .fault r => .fault r
  | .refused r => .refused r

/-- The state's own invariant: memory in its canonical form, and outside 64-bit mode an instruction pointer of 32 bits
(spec/10_state.md R15). -/
def State.Inv (s : State) : Prop :=
  Memory.wf s.mem = true ∧ (s.cfg.mode ≠ .mode64 → s.rip.toNat < 2 ^ 32)

/-- The bytes of an instruction stand at `RIP`, and each can be fetched (spec/70_reset_and_hazards.md R171 (b)). -/
def CodeAt (s : State) (bytes : List Byte) : Prop :=
  ∀ k (h : k < bytes.length),
    s.access .fetch (s.byteAddr s.rip k) 1 = none ∧ s.readByte (s.byteAddr s.rip k) = bytes[k]

/-- `k` steps that each answer a next state lead from `s` to `t`, none of them taken at the end address
(spec/70_reset_and_hazards.md R173). -/
def StepsTo (endAddr : Addr) : Nat → State → State → Prop
  | 0, s, t => s = t
  | k + 1, s, t => s.rip ≠ endAddr ∧ ∃ u, step s = .next u ∧ StepsTo endAddr k u t

/-- A safe run: it reaches `Done`, the only successful end (spec/70_reset_and_hazards.md R173). -/
def SafeRun (endAddr : Addr) (n : Nat) (s : State) : Prop := ∃ t, run endAddr n s = .done t

end Machine

end Sys2Proof
end

