-- ==== Sys2Proof/Certificates/Slice0/Obligations.lean ====
section
/-! DEFINITION. The statements for the provers, `def Obligations.<Name> : Prop`. The rules they formalise are named in
OBLIGATIONS.json; R<n> below is a numbered rule of spec/. -/

open Sys2Proof Sys2Proof.Machine

/-! ### A step runs what the decoder reads -/

/-- A step at a launch the spec does not refuse does what the decoder's answer says: it executes a decoded instruction,
raises #UD for `UD`, refuses what is not in the spec (R51, R75). `exec` advances `RIP` itself, so nothing stands around
it. -/
def Obligations.StepRunsDecodedInstruction : Prop :=
  ∀ s : State, launchRefusal s = none →
    (∀ i, decode s.cfg.mode s.fetchWindow = .instr i → step s = exec i s) ∧
    (decode s.cfg.mode s.fetchWindow = .ud → step s = .fault (.ud s.rip)) ∧
    (decode s.cfg.mode s.fetchWindow = .refused .outOfScope → step s = .refused .outOfScope) ∧
    (decode s.cfg.mode s.fetchWindow = .refused .badPrefixes → step s = .refused .badPrefixes)

/-- When the encoding of a well-formed instruction stands at `RIP` and each of its bytes can be fetched, the step executes
that instruction, whatever stands after it and whether or not that can be fetched (R42, R51). -/
def Obligations.EncodedInstructionAtRipIsExecuted : Prop :=
  ∀ (s : State) (i : Instr), launchRefusal s = none → i.wf s.cfg.mode = true → CodeAt s (encode i) →
    step s = exec i s

/-- The host's interface: a table word that decodes to an instruction is executed by the very next step of the state that
`withFetchWord` makes, when that launch is not refused and the platform lets its bytes be fetched. The shape of that launch
is the model's choice (notes/assumptions/1.md). -/
def Obligations.FetchWordIsExecutedNext : Prop :=
  ∀ (s : State) (nbits w : Nat) (i : Instr), Memory.wf s.mem = true → nbits / 8 ≤ maxLen →
    decodeTableWord nbits w = some i → launchRefusal s.launched = none →
    (∀ k < maxLen, s.launched.access .fetch (s.launched.byteAddr s.rip k) 1 = none) →
    step (s.withFetchWord nbits w) = exec i (s.withFetchWord nbits w)

/-! ### Decoding and encoding -/

/-- A few words written out from the opcode table and the worked decodings of spec/95_test_vectors.md. -/
def Obligations.WorkedEncodingsDecode : Prop :=
  decode .mode64 [0x0F, 0xFC, 0xC1] = .instr (.paddbMmx 0 (.reg 1)) ∧
  decode .mode64 [0x66, 0x45, 0x0F, 0xFC, 0xC1] = .instr (.paddbSseRex ⟨false, true, false, true⟩ 0 (.reg 1)) ∧
  decode .mode64 [0xC5, 0xE9, 0xFE, 0xCB] = .instr (.vpaddd128C5 false 2 1 (.reg 3)) ∧
  decode .mode64 [0xC4, 0x41, 0xB5, 0xFD, 0xC2] = .instr (.vpaddw256C4 ⟨true, false, true, true⟩ 9 0 (.reg 2)) ∧
  decode .mode32 [0xC4, 0xC1, 0x29, 0xFC, 0xCB] = .instr (.vpaddb128C4 ⟨false, false, false, false⟩ 2 1 (.reg 3)) ∧
  decodeTableWord 32 0x660FFDCA = some (.paddwSse 1 (.reg 2))

/-- Decoding the encoding of a well-formed instruction gives it back, in both modes, with every operand at every value the
encoding admits and whatever bytes follow. -/
def Obligations.DecodeOfEncodeIsTheInstruction : Prop :=
  ∀ (mode : Mode) (i : Instr) (rest : List Byte), i.wf mode = true → decode mode (encode i ++ rest) = .instr i

/-- What the decoder reads is well-formed for the mode: no field of an encoding yields an operand outside the rows of
R66, a register the mode does not have, or a REX byte outside `MODE64`. -/
def Obligations.DecodedInstructionIsWellFormed : Prop :=
  ∀ (mode : Mode) (bytes : List Byte) (i : Instr), mode.modelled = true → decode mode bytes = .instr i →
    i.wf mode = true

/-- The decoder reads exactly `len` bytes of an instruction (R51 step 6): with fewer it has not finished, and what follows
them does not matter. -/
def Obligations.DecoderReadsExactlyItsLength : Prop :=
  ∀ (mode : Mode) (bytes : List Byte) (i : Instr), decode mode bytes = .instr i →
    i.length ≤ bytes.length ∧
    (∀ rest, decode mode (bytes.take i.length ++ rest) = .instr i) ∧
    (∀ n < i.length, decode mode (bytes.take n) = .truncated)

/-- Every instruction has 3 to 10 bytes, and both lengths occur (R51 step 6, R76). -/
def Obligations.InstructionLengthIsThreeToTen : Prop :=
  (∀ i : Instr, 3 ≤ i.length ∧ i.length ≤ 10) ∧
  (Instr.paddbMmx 0 (.mem (.base 0))).length = 3 ∧
  (Instr.paddbSseRex ⟨false, false, false, false⟩ 0 (.mem (.sibDisp32 0 0 0 0))).length = 10 ∧
  (Instr.vpaddb128C4 ⟨false, false, false, false⟩ 0 0 (.mem (.sibDisp32 0 0 0 0))).length = 10

/-- The vector registers of a decoded instruction are among the `NXMM` the mode reaches (R13, R63). -/
def Obligations.DecodedVectorRegistersAreReachable : Prop :=
  ∀ (mode : Mode) (bytes : List Byte) (i : Instr), mode.modelled = true → decode mode bytes = .instr i →
    ∀ r ∈ i.vectorRegisters, r.toNat < mode.nxmm

/-- The table of R53, both columns, its rows in their order: what a list `P` of legacy prefixes makes of bytes that
otherwise are one of the twelve forms. -/
def Obligations.LegacyPrefixTable : Prop :=
  ∀ (mode : Mode) (P rest : List Byte), mode.modelled = true →
    (∀ b ∈ P, b ∈ [0xF0#8, 0xF2#8, 0xF3#8, 0x66#8, 0x67#8, 0x26#8, 0x2E#8, 0x36#8, 0x3E#8, 0x64#8, 0x65#8]) →
    (∀ rex e reg rm,
      (Shape.legacy false rex e reg rm).toInstr.wf mode = true →
      let answer := decode mode (P ++ (Shape.legacy false rex e reg rm).encode ++ rest)
      if ∃ b ∈ P, b ∈ [0x67#8, 0x26#8, 0x2E#8, 0x36#8, 0x3E#8, 0x64#8, 0x65#8] then answer = .refused .badPrefixes
      else if 0xF0#8 ∈ P then answer = .ud
      else if 0xF2#8 ∈ P ∨ 0xF3#8 ∈ P then answer = .refused .badPrefixes
      else if P = [] then answer = .instr (Shape.legacy false rex e reg rm).toInstr
      else if P = [0x66#8] then answer = .instr (Shape.legacy true rex e reg rm).toInstr
      else answer = .refused .badPrefixes) ∧
    (∀ i : Instr, i.wf mode = true → i.formClass = .vex128 ∨ i.formClass = .vex256 →
      let answer := decode mode (P ++ encode i ++ rest)
      if ∃ b ∈ P, b ∈ [0x67#8, 0x26#8, 0x2E#8, 0x36#8, 0x3E#8, 0x64#8, 0x65#8] then answer = .refused .badPrefixes
      else if P = [] then answer = .instr i
      else answer = .ud)

/-- R60: one of the six VEX forms after `66`, `F2`, `F3`, `F0` or, in `MODE64`, a REX byte decodes to `UD`, and the step
raises #UD. -/
def Obligations.PrefixedVexRaisesUd : Prop :=
  ∀ (s : State) (i : Instr) (P : List Byte), launchRefusal s = none → i.wf s.cfg.mode = true →
    i.formClass = .vex128 ∨ i.formClass = .vex256 →
    (∀ b ∈ P, b ∈ [0x66#8, 0xF2#8, 0xF3#8, 0xF0#8]) →
    (P ≠ [] → (∀ rest, decode s.cfg.mode (P ++ encode i ++ rest) = .ud) ∧
      (P.length ≤ 5 → CodeAt s (P ++ encode i) → step s = .fault (.ud s.rip))) ∧
    (∀ b : Byte, s.cfg.mode = .mode64 → 0x40 ≤ b.toNat → b.toNat ≤ 0x4F →
      (∀ rest, decode s.cfg.mode (P ++ [b] ++ encode i ++ rest) = .ud) ∧
      (P.length ≤ 4 → CodeAt s (P ++ [b] ++ encode i) → step s = .fault (.ud s.rip)))

/-- Opcodes, opcode maps and implied prefixes that are not those of the twelve forms are out of scope, whatever legacy
prefixes and, in `MODE64`, whatever REX byte stand before them; so is a REX byte before anything but `0F`, `C4` and `C5`
(R51 steps 3 and 4, R55, R59, R75). That the verdict on those prefixes does not come first is the model's reading
(notes/assumptions/8.md). -/
def Obligations.OtherEncodingsAreOutOfScope : Prop :=
  ∀ (mode : Mode) (P Q rest : List Byte), mode.modelled = true → (∀ b ∈ P, isLegacyPrefix b = true) →
    Q = P ∨ (mode = .mode64 ∧ ∃ b, isRexByte b = true ∧ Q = P ++ [b]) →
    (∀ op, op ≠ 0xFC#8 → op ≠ 0xFD#8 → op ≠ 0xFE#8 →
      decode mode (Q ++ 0x0F#8 :: op :: rest) = .refused .outOfScope) ∧
    (∀ v1 op, op ≠ 0xFC#8 → op ≠ 0xFD#8 → op ≠ 0xFE#8 →
      decode mode (Q ++ 0xC5#8 :: v1 :: op :: rest) = .refused .outOfScope) ∧
    (∀ v1 v2 op, op ≠ 0xFC#8 → op ≠ 0xFD#8 → op ≠ 0xFE#8 →
      decode mode (Q ++ 0xC4#8 :: v1 :: v2 :: op :: rest) = .refused .outOfScope) ∧
    (∀ v1, v1.extractLsb' 0 2 ≠ 1#2 → decode mode (Q ++ 0xC5#8 :: v1 :: rest) = .refused .outOfScope) ∧
    (∀ v1 v2, v1.extractLsb' 0 5 ≠ 1#5 ∨ v2.extractLsb' 0 2 ≠ 1#2 →
      decode mode (Q ++ 0xC4#8 :: v1 :: v2 :: rest) = .refused .outOfScope) ∧
    (∀ b, isLegacyPrefix b = false → isRexByte b = false → b ≠ 0x0F#8 → b ≠ 0xC4#8 → b ≠ 0xC5#8 →
      decode mode (P ++ b :: rest) = .refused .outOfScope) ∧
    (Q ≠ P → ∀ b, b ≠ 0x0F#8 → b ≠ 0xC4#8 → b ≠ 0xC5#8 → decode mode (Q ++ b :: rest) = .refused .outOfScope)

/-- What `MODE32` changes of decoding (R55, R57): the bytes `40` to `4F` are other instructions; `C4` and `C5` are other
instructions unless the next byte's bits 7:6 are 11; the bits `B'` and `vvvv'[3]` of a three-byte prefix are ignored. That
such bytes are out of scope whatever legacy prefixes stand before them, also after one that R54 refuses, is the model's
reading (notes/assumptions/8.md). -/
def Obligations.Mode32ReadsPrefixBytesItsOwnWay : Prop :=
  ∀ (P rest : List Byte), (∀ b ∈ P, isLegacyPrefix b = true) →
    (∀ b : Byte, 0x40 ≤ b.toNat → b.toNat ≤ 0x4F → decode .mode32 (P ++ b :: rest) = .refused .outOfScope) ∧
    (∀ v1 : Byte, v1.toNat < 0xC0 →
      decode .mode32 (P ++ 0xC5#8 :: v1 :: rest) = .refused .outOfScope ∧
      decode .mode32 (P ++ 0xC4#8 :: v1 :: rest) = .refused .outOfScope) ∧
    (∀ v1 v2 : Byte,
      decode .mode32 (P ++ 0xC4#8 :: (v1 ^^^ 0x20#8) :: v2 :: rest) = decode .mode32 (P ++ 0xC4#8 :: v1 :: v2 :: rest) ∧
      decode .mode32 (P ++ 0xC4#8 :: v1 :: (v2 ^^^ 0x40#8) :: rest) = decode .mode32 (P ++ 0xC4#8 :: v1 :: v2 :: rest))

/-- The bits of a prefix that a form ignores change nothing of what it does: REX.W and VEX.W of every form ("WIG", R55, R58,
R59); REX.X and VEX.X without a SIB byte, REX.B and VEX.B of a memory operand without a base register (R55, R66, R67,
R68); REX.R of an MMX form and, with a register source, every bit of its REX byte (R55, R64). -/
def Obligations.IgnoredBitsOfPrefixesChangeNothing : Prop :=
  (∀ (x x' : Vex3) (v : BitVec 4) (reg : BitVec 3) (rm : RmOp) (s : State),
    x.r = x'.r → rm.SameBits x.x x.b x'.x x'.b →
    exec (.vpaddb128C4 x v reg rm) s = exec (.vpaddb128C4 x' v reg rm) s ∧
    exec (.vpaddw128C4 x v reg rm) s = exec (.vpaddw128C4 x' v reg rm) s ∧
    exec (.vpaddd128C4 x v reg rm) s = exec (.vpaddd128C4 x' v reg rm) s ∧
    exec (.vpaddb256C4 x v reg rm) s = exec (.vpaddb256C4 x' v reg rm) s ∧
    exec (.vpaddw256C4 x v reg rm) s = exec (.vpaddw256C4 x' v reg rm) s ∧
    exec (.vpaddd256C4 x v reg rm) s = exec (.vpaddd256C4 x' v reg rm) s) ∧
  (∀ (rex rex' : Rex) (reg : BitVec 3) (rm : RmOp) (s : State),
    rm.SameBits rex.x rex.b rex'.x rex'.b ∨ (∃ r, rm = .reg r) →
    exec (.paddbMmxRex rex reg rm) s = exec (.paddbMmxRex rex' reg rm) s ∧
    exec (.paddwMmxRex rex reg rm) s = exec (.paddwMmxRex rex' reg rm) s ∧
    exec (.padddMmxRex rex reg rm) s = exec (.padddMmxRex rex' reg rm) s) ∧
  (∀ (rex rex' : Rex) (reg : BitVec 3) (rm : RmOp) (s : State),
    rex.r = rex'.r → rm.SameBits rex.x rex.b rex'.x rex'.b →
    exec (.paddbSseRex rex reg rm) s = exec (.paddbSseRex rex' reg rm) s ∧
    exec (.paddwSseRex rex reg rm) s = exec (.paddwSseRex rex' reg rm) s ∧
    exec (.padddSseRex rex reg rm) s = exec (.padddSseRex rex' reg rm) s)

/-- The two-byte and the three-byte VEX prefix are equivalent where both can express the instruction (R56): with X = 0 and
B = 0 the two spellings do the same but for the length of the instruction, that is but for `RIP` after it. The operand is
any but a displacement with no register, whose address in `MODE64` counts from the end of the instruction (R68). -/
def Obligations.TwoByteAndThreeByteVexAgree : Prop :=
  ∀ (r w : Bool) (v : BitVec 4) (reg : BitVec 3) (rm : RmOp) (s : State), (∀ d, rm ≠ .mem (.disp32 d)) →
    let x : Vex3 := ⟨r, false, false, w⟩
    let len := (Instr.vpaddb128C4 x v reg rm).length
    let longer (t : State) : State := { t with rip := s.nextRip len }
    exec (.vpaddb128C4 x v reg rm) s = mapNext longer (exec (.vpaddb128C5 r v reg rm) s) ∧
    exec (.vpaddw128C4 x v reg rm) s = mapNext longer (exec (.vpaddw128C5 r v reg rm) s) ∧
    exec (.vpaddd128C4 x v reg rm) s = mapNext longer (exec (.vpaddd128C5 r v reg rm) s) ∧
    exec (.vpaddb256C4 x v reg rm) s = mapNext longer (exec (.vpaddb256C5 r v reg rm) s) ∧
    exec (.vpaddw256C4 x v reg rm) s = mapNext longer (exec (.vpaddw256C5 r v reg rm) s) ∧
    exec (.vpaddd256C4 x v reg rm) s = mapNext longer (exec (.vpaddd256C5 r v reg rm) s)

/-! ### Lanes -/

/-- R100: `padd_w(N, a, b)` is the value whose lane `k` is the sum of the lanes `k` of `a` and `b` modulo 2^w, for every
lane `k` of `0 .. N/w - 1`, and no other value is. -/
def Obligations.PaddIsTheLanewiseSum : Prop :=
  ∀ (w N : Nat) (a b r : BitVec N), w = 8 ∨ w = 16 ∨ w = 32 → N = 64 ∨ N = 128 ∨ N = 256 →
    (r = padd w N a b ↔
      ∀ k < N / w, (lane w r k).toNat = ((lane w a k).toNat + (lane w b k).toNat) % 2 ^ w)

/-- The laws of R102: commutative, associative, 0 an identity, `padd_w(N, a, a)` a lane-wise shift left by one, and a wide
add the two half adds side by side. -/
def Obligations.PaddLaws : Prop :=
  ∀ (w N : Nat), w = 8 ∨ w = 16 ∨ w = 32 → N = 64 ∨ N = 128 ∨ N = 256 →
    (∀ a b : BitVec N, padd w N a b = padd w N b a) ∧
    (∀ a b c : BitVec N, padd w N (padd w N a b) c = padd w N a (padd w N b c)) ∧
    (∀ a : BitVec N, padd w N a 0 = a) ∧
    (∀ (a : BitVec N) (k : Nat), k < N / w → lane w (padd w N a a) k = lane w a k <<< 1) ∧
    (∀ ah al bh bl : BitVec N, padd w (N + N) (ah ++ al) (bh ++ bl) = padd w N ah bh ++ padd w N al bl)

/-- The last law of R102: two lane widths `w < W` differ on the same inputs exactly where a carry would cross a boundary
inside a wider lane. Lane `k` of width `w` is the same under both if and only if the parts of the wider lanes below it
sum without a carry. -/
def Obligations.PaddWidthsDifferAtCarries : Prop :=
  ∀ (w W N k : Nat) (a b : BitVec N), (w = 8 ∧ W = 16) ∨ (w = 8 ∧ W = 32) ∨ (w = 16 ∧ W = 32) →
    N = 64 ∨ N = 128 ∨ N = 256 → k < N / w →
    let m := W / w
    let below := 2 ^ (w * (k % m))
    (lane w (padd W N a b) k = lane w (padd w N a b) k ↔
      (lane W a (k / m)).toNat % below + (lane W b (k / m)).toNat % below < below)

/-! ### Memory and addresses -/

/-- R30: the value of a memory operand is little-endian: byte `k` of it is the byte at the operand's address plus `k`, and
a word lane is two byte lanes, a doubleword lane two word lanes. That the sum wraps at the top of the address space is the
model's reading (notes/assumptions/6.md). -/
def Obligations.LoadIsLittleEndian : Prop :=
  ∀ (s : State) (a : Addr) (N : Nat), N = 64 ∨ N = 128 ∨ N = 256 →
    (∀ k < N / 8, lane 8 (s.load a N) k = s.readByte (s.byteAddr a k)) ∧
    (∀ j < N / 16, lane 16 (s.load a N) j = lane 8 (s.load a N) (2 * j + 1) ++ lane 8 (s.load a N) (2 * j)) ∧
    (∀ j < N / 32, lane 32 (s.load a N) j = lane 16 (s.load a N) (2 * j + 1) ++ lane 16 (s.load a N) (2 * j))

/-- The addressing table of `MODE64` (R66 to R69) as one sum of integers modulo 2^64, row by row: the base register of
number `B:rm` or `B:base`, the index register of number `X:index` times its scale unless that number is 4, the
displacement sign-extended, and `RIP + len` for a displacement alone. -/
def Obligations.AddressIn64BitMode : Prop :=
  ∀ (s : State) (e : Ext) (len : Nat) (m : MemForm), s.cfg.mode = .mode64 →
    let gpr (hi : Bool) (lo : BitVec 3) : Int := (s.readGpr (BitVec.ofNat 4 (8 * hi.toNat + lo.toNat))).toNat
    let scaled (sc : BitVec 2) (ix : BitVec 3) : Int :=
      if e.x = false ∧ ix = 4#3 then 0 else gpr e.x ix * 2 ^ sc.toNat
    let sum : Int :=
      match m with
      | .base rm => gpr e.b rm
      | .disp32 d => s.rip.toNat + len + d.toInt
      | .baseDisp8 rm d => gpr e.b rm + d.toInt
      | .baseDisp32 rm d => gpr e.b rm + d.toInt
      | .sib sc ix bs => gpr e.b bs + scaled sc ix
      | .sibNoBase sc ix d => scaled sc ix + d.toInt
      | .sibDisp8 sc ix bs d => gpr e.b bs + scaled sc ix + d.toInt
      | .sibDisp32 sc ix bs d => gpr e.b bs + scaled sc ix + d.toInt
    ((s.linearAddr e len m).toNat : Int) = sum % 2 ^ 64

/-- The addressing table of `MODE32` (R70): the same over the low 32 bits of registers 0 to 7, modulo 2^32, a
displacement alone being an absolute address. -/
def Obligations.AddressIn32BitMode : Prop :=
  ∀ (s : State) (e : Ext) (len : Nat) (m : MemForm), s.cfg.mode = .mode32 →
    let gpr (n : BitVec 3) : Int := (s.readGpr (BitVec.ofNat 4 n.toNat)).toNat % 2 ^ 32
    let scaled (sc : BitVec 2) (ix : BitVec 3) : Int := if ix = 4#3 then 0 else gpr ix * 2 ^ sc.toNat
    let sum : Int :=
      match m with
      | .base rm => gpr rm
      | .disp32 d => d.toInt
      | .baseDisp8 rm d => gpr rm + d.toInt
      | .baseDisp32 rm d => gpr rm + d.toInt
      | .sib sc ix bs => gpr bs + scaled sc ix
      | .sibNoBase sc ix d => scaled sc ix + d.toInt
      | .sibDisp8 sc ix bs d => gpr bs + scaled sc ix + d.toInt
      | .sibDisp32 sc ix bs d => gpr bs + scaled sc ix + d.toInt
    ((s.linearAddr e len m).toNat : Int) = sum % 2 ^ 32

/-- Two memories in canonical form that read the same everywhere are equal data: the model's list is a faithful picture
of the map of R22. -/
def Obligations.CanonicalMemoriesThatReadAlikeAreEqual : Prop :=
  ∀ m m' : Memory, Memory.wf m = true → Memory.wf m' = true → (∀ a, Memory.read m a = Memory.read m' a) → m = m'

/-! ### What each form does: it completes, with this result and this frame -/

/-- R104: `PADDB mm, mm/m64`, without and with a REX byte. Enabled and with a readable source it completes: the bytes of
`MM[reg]` get the source's added, the x87 components are as R12 says, and nothing else but `RIP` changes. -/
def Obligations.PaddbMmxAddsByteLanes : Prop :=
  ∀ (i : Instr) (rex : Rex) (reg : BitVec 3) (rm : RmOp) (s : State),
    i = .paddbMmx reg rm ∨ i = .paddbMmxRex rex reg rm →
    FormEnabled .mmx s → SourceReadable i s →
    ∃ t, exec i s = .next t ∧ MmxCompleted 8 i reg s t

/-- R105: `PADDW mm, mm/m64`, without and with a REX byte. Enabled and with a readable source it completes: the words of
`MM[reg]` get the source's added, the x87 components are as R12 says, and nothing else but `RIP` changes. -/
def Obligations.PaddwMmxAddsWordLanes : Prop :=
  ∀ (i : Instr) (rex : Rex) (reg : BitVec 3) (rm : RmOp) (s : State),
    i = .paddwMmx reg rm ∨ i = .paddwMmxRex rex reg rm →
    FormEnabled .mmx s → SourceReadable i s →
    ∃ t, exec i s = .next t ∧ MmxCompleted 16 i reg s t

/-- R106: `PADDD mm, mm/m64`, without and with a REX byte. Enabled and with a readable source it completes: the doublewords of
`MM[reg]` get the source's added, the x87 components are as R12 says, and nothing else but `RIP` changes. -/
def Obligations.PadddMmxAddsDwordLanes : Prop :=
  ∀ (i : Instr) (rex : Rex) (reg : BitVec 3) (rm : RmOp) (s : State),
    i = .padddMmx reg rm ∨ i = .padddMmxRex rex reg rm →
    FormEnabled .mmx s → SourceReadable i s →
    ∃ t, exec i s = .next t ∧ MmxCompleted 32 i reg s t

/-- R107: `PADDB xmm1, xmm2/m128`, without and with a REX byte. Enabled and with a readable source it completes: the bytes
of `XMM[d]` get the source's added, bits 255:128 of `YMM[d]` stay, and nothing else but `RIP` changes. -/
def Obligations.PaddbSseAddsByteLanes : Prop :=
  ∀ (i : Instr) (rex : Rex) (reg : BitVec 3) (rm : RmOp) (s : State),
    i = .paddbSse reg rm ∨ i = .paddbSseRex rex reg rm →
    FormEnabled .sse s → SourceReadable i s →
    ∃ t, exec i s = .next t ∧ SseCompleted 8 i (regNum i.ext.r reg) s t

/-- R108: `PADDW xmm1, xmm2/m128`, without and with a REX byte. Enabled and with a readable source it completes: the words
of `XMM[d]` get the source's added, bits 255:128 of `YMM[d]` stay, and nothing else but `RIP` changes. -/
def Obligations.PaddwSseAddsWordLanes : Prop :=
  ∀ (i : Instr) (rex : Rex) (reg : BitVec 3) (rm : RmOp) (s : State),
    i = .paddwSse reg rm ∨ i = .paddwSseRex rex reg rm →
    FormEnabled .sse s → SourceReadable i s →
    ∃ t, exec i s = .next t ∧ SseCompleted 16 i (regNum i.ext.r reg) s t

/-- R109: `PADDD xmm1, xmm2/m128`, without and with a REX byte. Enabled and with a readable source it completes: the doublewords
of `XMM[d]` get the source's added, bits 255:128 of `YMM[d]` stay, and nothing else but `RIP` changes. -/
def Obligations.PadddSseAddsDwordLanes : Prop :=
  ∀ (i : Instr) (rex : Rex) (reg : BitVec 3) (rm : RmOp) (s : State),
    i = .padddSse reg rm ∨ i = .padddSseRex rex reg rm →
    FormEnabled .sse s → SourceReadable i s →
    ∃ t, exec i s = .next t ∧ SseCompleted 32 i (regNum i.ext.r reg) s t

/-- R122: `VPADDB xmm1, xmm2, xmm3/m128`, with either VEX prefix. Enabled and with a readable source it completes: the
bytes of the two sources are added, bits 255:128 of `YMM[d]` become 0, and nothing else but `RIP` changes. -/
def Obligations.Vpaddb128AddsByteLanes : Prop :=
  ∀ (i : Instr) (r : Bool) (x : Vex3) (v : BitVec 4) (reg : BitVec 3) (rm : RmOp) (s : State),
    i = .vpaddb128C5 r v reg rm ∨ i = .vpaddb128C4 x v reg rm →
    FormEnabled .vex128 s → SourceReadable i s →
    ∃ t, exec i s = .next t ∧ Vex128Completed 8 i v (regNum i.ext.r reg) s t

/-- R123: `VPADDW xmm1, xmm2, xmm3/m128`, with either VEX prefix. Enabled and with a readable source it completes: the
words of the two sources are added, bits 255:128 of `YMM[d]` become 0, and nothing else but `RIP` changes. -/
def Obligations.Vpaddw128AddsWordLanes : Prop :=
  ∀ (i : Instr) (r : Bool) (x : Vex3) (v : BitVec 4) (reg : BitVec 3) (rm : RmOp) (s : State),
    i = .vpaddw128C5 r v reg rm ∨ i = .vpaddw128C4 x v reg rm →
    FormEnabled .vex128 s → SourceReadable i s →
    ∃ t, exec i s = .next t ∧ Vex128Completed 16 i v (regNum i.ext.r reg) s t

/-- R124: `VPADDD xmm1, xmm2, xmm3/m128`, with either VEX prefix. Enabled and with a readable source it completes: the
doublewords of the two sources are added, bits 255:128 of `YMM[d]` become 0, and nothing else but `RIP` changes. -/
def Obligations.Vpaddd128AddsDwordLanes : Prop :=
  ∀ (i : Instr) (r : Bool) (x : Vex3) (v : BitVec 4) (reg : BitVec 3) (rm : RmOp) (s : State),
    i = .vpaddd128C5 r v reg rm ∨ i = .vpaddd128C4 x v reg rm →
    FormEnabled .vex128 s → SourceReadable i s →
    ∃ t, exec i s = .next t ∧ Vex128Completed 32 i v (regNum i.ext.r reg) s t

/-- R125: `VPADDB ymm1, ymm2, ymm3/m256`, with either VEX prefix. Enabled and with a readable source it completes: the
bytes of the two sources are added, all 256 bits of `YMM[d]` are written, and nothing else but `RIP` changes. -/
def Obligations.Vpaddb256AddsByteLanes : Prop :=
  ∀ (i : Instr) (r : Bool) (x : Vex3) (v : BitVec 4) (reg : BitVec 3) (rm : RmOp) (s : State),
    i = .vpaddb256C5 r v reg rm ∨ i = .vpaddb256C4 x v reg rm →
    FormEnabled .vex256 s → SourceReadable i s →
    ∃ t, exec i s = .next t ∧ Vex256Completed 8 i v (regNum i.ext.r reg) s t

/-- R126: `VPADDW ymm1, ymm2, ymm3/m256`, with either VEX prefix. Enabled and with a readable source it completes: the
words of the two sources are added, all 256 bits of `YMM[d]` are written, and nothing else but `RIP` changes. -/
def Obligations.Vpaddw256AddsWordLanes : Prop :=
  ∀ (i : Instr) (r : Bool) (x : Vex3) (v : BitVec 4) (reg : BitVec 3) (rm : RmOp) (s : State),
    i = .vpaddw256C5 r v reg rm ∨ i = .vpaddw256C4 x v reg rm →
    FormEnabled .vex256 s → SourceReadable i s →
    ∃ t, exec i s = .next t ∧ Vex256Completed 16 i v (regNum i.ext.r reg) s t

/-- R127: `VPADDD ymm1, ymm2, ymm3/m256`, with either VEX prefix. Enabled and with a readable source it completes: the
doublewords of the two sources are added, all 256 bits of `YMM[d]` are written, and nothing else but `RIP` changes. -/
def Obligations.Vpaddd256AddsDwordLanes : Prop :=
  ∀ (i : Instr) (r : Bool) (x : Vex3) (v : BitVec 4) (reg : BitVec 3) (rm : RmOp) (s : State),
    i = .vpaddd256C5 r v reg rm ∨ i = .vpaddd256C4 x v reg rm →
    FormEnabled .vex256 s → SourceReadable i s →
    ∃ t, exec i s = .next t ∧ Vex256Completed 32 i v (regNum i.ext.r reg) s t

/-! ### Exceptions and refusals -/

/-- R142: an MMX form raises #UD exactly when `HAS_MMX` is false or CR0.EM = 1, whatever CR4.OSFXSR is, or when it has a
LOCK prefix. -/
def Obligations.MmxFormsRaiseUd : Prop :=
  ∀ (s : State) (i : Instr), launchRefusal s = none → i.formClass = .mmx →
    (exec i s = .fault (.ud s.rip) ↔ s.cfg.features.mmx = false ∨ s.cfg.env.cr0Em = true) ∧
    (i.wf s.cfg.mode = true → CodeAt s (0xF0#8 :: encode i) → step s = .fault (.ud s.rip))

/-- R143: a legacy SSE form raises #UD exactly when `HAS_SSE2` is false or CR0.EM = 1 or CR4.OSFXSR = 0, or when it has a
LOCK prefix. -/
def Obligations.SseFormsRaiseUd : Prop :=
  ∀ (s : State) (i : Instr), launchRefusal s = none → i.formClass = .sse →
    (exec i s = .fault (.ud s.rip) ↔
      s.cfg.features.sse2 = false ∨ s.cfg.env.cr0Em = true ∨ s.cfg.env.cr4Osfxsr = false) ∧
    (i.wf s.cfg.mode = true → CodeAt s (0xF0#8 :: encode i) → step s = .fault (.ud s.rip))

/-- R144: a VEX form raises #UD exactly when the feature flag of its vector length is false, or CR4.OSXSAVE = 0, or XCR0
lacks bit 1 or 2, whatever CR0.EM and CR4.OSFXSR are, or when LOCK, `66`, `F2`, `F3` or REX precedes its VEX prefix; the
modes the spec does not model are refused, and so is AVX2 without AVX. That every step and every form answers the refusal,
and that the mode is named before the feature flags, is the model's choice (notes/assumptions/21.md). -/
def Obligations.VexFormsRaiseUd : Prop :=
  ∀ (s : State) (i : Instr),
    (launchRefusal s = none → i.formClass = .vex128 →
      (exec i s = .fault (.ud s.rip) ↔
        s.cfg.features.avx = false ∨ s.cfg.env.cr4Osxsave = false ∨
          ¬(s.cfg.env.xcr0Sse = true ∧ s.cfg.env.xcr0Avx = true))) ∧
    (launchRefusal s = none → i.formClass = .vex256 →
      (exec i s = .fault (.ud s.rip) ↔
        s.cfg.features.avx2 = false ∨ s.cfg.env.cr4Osxsave = false ∨
          ¬(s.cfg.env.xcr0Sse = true ∧ s.cfg.env.xcr0Avx = true))) ∧
    (launchRefusal s = none → i.formClass = .vex128 ∨ i.formClass = .vex256 → i.wf s.cfg.mode = true →
      ∀ b : Byte, b ∈ [0xF0#8, 0x66#8, 0xF2#8, 0xF3#8] ∨ (s.cfg.mode = .mode64 ∧ b.extractLsb' 4 4 = 4#4) →
        CodeAt s (b :: encode i) → step s = .fault (.ud s.rip)) ∧
    (s.cfg.mode ≠ .mode64 → s.cfg.mode ≠ .mode32 →
      step s = .refused .modeOutOfScope ∧ exec i s = .refused .modeOutOfScope) ∧
    (s.cfg.mode.modelled = true → s.cfg.features.avx2 = true → s.cfg.features.avx = false →
      step s = .refused .inconsistentFeatures ∧ exec i s = .refused .inconsistentFeatures)

/-- R145: every form raises #NM when CR0.TS = 1 and none of its #UD conditions holds. -/
def Obligations.TaskSwitchedRaisesNm : Prop :=
  ∀ (s : State) (i : Instr), launchRefusal s = none → udCondition i.formClass s = false →
    s.cfg.env.cr0Ts = true → exec i s = .fault (.nm s.rip)

/-- R146: an MMX form raises #MF when an x87 exception is pending (and no #UD or #NM comes first, R151); no SSE or VEX form
ever raises #MF. -/
def Obligations.PendingX87RaisesMfInMmxFormsOnly : Prop :=
  ∀ (s : State) (i : Instr),
    (launchRefusal s = none → i.formClass = .mmx → udCondition .mmx s = false → s.cfg.env.cr0Ts = false →
      s.cfg.env.x87Pending = true → exec i s = .fault (.mf s.rip)) ∧
    (i.formClass ≠ .mmx → ∀ rip, exec i s ≠ .fault (.mf rip))

/-- R147: an MMX form raises #AC(0) when alignment checking is on and its memory operand, which the platform admits, is
not at a multiple of 8; no SSE or VEX form ever raises #AC. -/
def Obligations.AlignmentCheckRaisesAcInMmxFormsOnly : Prop :=
  ∀ (s : State) (i : Instr),
    (∀ m, i.formClass = .mmx → i.rmOp = .mem m → FormEnabled .mmx s →
      ReadAdmitted s (s.linearAddr i.ext i.length m) 8 → s.cfg.env.acCheck = true →
      (s.linearAddr i.ext i.length m).toNat % 8 ≠ 0 → exec i s = .fault (.ac s.rip)) ∧
    (i.formClass ≠ .mmx → ∀ rip, exec i s ≠ .fault (.ac rip))

/-- R148: a legacy SSE form whose m128 operand is not at a multiple of 16 raises #GP(0), whatever the alignment-check bit
is and whatever the platform says of the operand. -/
def Obligations.MisalignedSseOperandRaisesGp : Prop :=
  ∀ (s : State) (i : Instr) (m : MemForm), i.formClass = .sse → i.rmOp = .mem m → FormEnabled .sse s →
    (s.linearAddr i.ext i.length m).toNat % 16 ≠ 0 → exec i s = .fault (.gp s.rip)

/-- R36 (c), R149, R152: a form whose memory operand the platform does not admit raises the fault of the first failing
byte in address order, a page fault with that byte's address; it comes before #AC, and for a legacy SSE form after the
alignment check. The platform's verdict on a byte may depend on the access's address and length; the list of regions it is
written as is the model's form (notes/assumptions/5.md). -/
def Obligations.PlatformFaultIsThatOfTheFirstFailingByte : Prop :=
  ∀ (s : State) (i : Instr) (m : MemForm) (k : Nat) (f : PlatFault), i.rmOp = .mem m → FormEnabled i.formClass s →
    (i.formClass = .sse → (s.linearAddr i.ext i.length m).toNat % 16 = 0) →
    k < i.formClass.operandBytes → s.byteFault .read (s.linearAddr i.ext i.length m) i.formClass.operandBytes k = some f →
    (∀ j < k, s.byteFault .read (s.linearAddr i.ext i.length m) i.formClass.operandBytes j = none) →
    exec i s = .fault (PlatFault.toFault f (s.byteAddr (s.linearAddr i.ext i.length m) k) s.rip)

/-- R35: a data read the platform admits at an address whose read has a side effect is refused. That the refusal comes at
the step that makes the read is the model's choice (notes/assumptions/11.md). -/
def Obligations.DeviceReadIsRefused : Prop :=
  ∀ (s : State) (i : Instr) (m : MemForm) (k : Nat) (sp : Span), i.rmOp = .mem m → FormEnabled i.formClass s →
    (i.formClass = .sse → (s.linearAddr i.ext i.length m).toNat % 16 = 0) →
    (∀ j < i.formClass.operandBytes,
      s.byteFault .read (s.linearAddr i.ext i.length m) i.formClass.operandBytes j = none) →
    k < i.formClass.operandBytes → sp ∈ s.cfg.plat.devices →
    Span.covers sp (s.byteAddr (s.linearAddr i.ext i.length m) k) = true →
    exec i s = .refused .deviceRead

/-- The exceptions of R141 and no other: a fault of a step or of a form reports the address of the instruction's first
byte (R150), its vector is one of the seven, the error code is absent for #UD, #NM and #MF and 0 for #SS, #GP and #AC, and
only a page fault records an address. -/
def Obligations.FaultsAreThoseOfTheTable : Prop :=
  ∀ (s : State) (f : Fault), step s = .fault f ∨ (∃ i, exec i s = .fault f) →
    f.rip = s.rip ∧ f.vector ∈ [6, 7, 12, 13, 14, 16, 17] ∧
    (f.vector ∈ [6, 7, 16] → f.errorCode = none) ∧
    (f.vector ∈ [12, 13, 17] → f.errorCode = some 0) ∧
    (f.info.isSome ↔ f.vector = 14) ∧ (f.vector = 14 → f.errorCode.isSome)

/-- R42, R153: the fault of the first byte that cannot be fetched comes before everything the instruction could raise. If
the first `n` bytes can be fetched and do not yet decide what the instruction is, and byte `n` cannot be fetched, the step
raises the fault of that fetch, in every environment. R42 and R153 order exceptions only: that the fetch also comes before
the refusal of prefixes the spec does not admit is the model's reading (notes/assumptions/8.md). -/
def Obligations.FetchFaultComesFirst : Prop :=
  ∀ (s : State) (bytes : List Byte) (stop : Stop), launchRefusal s = none → bytes.length < maxLen →
    CodeAt s bytes → decode s.cfg.mode bytes = .truncated →
    s.access .fetch (s.byteAddr s.rip bytes.length) 1 = some stop → step s = stop.outcome

/-- R52: a sequence that 15 bytes do not complete raises #GP(0). Which sequences these are is the model's reading
(notes/assumptions/8.md): lists of legacy prefixes the spec does not admit. -/
def Obligations.SequenceOverFifteenBytesRaisesGp : Prop :=
  ∀ (s : State) (bytes : List Byte), launchRefusal s = none → bytes.length = maxLen → CodeAt s bytes →
    decode s.cfg.mode bytes = .truncated → step s = .fault (.gp s.rip)

/-- The launches the spec refuses, and no other (R3, R144, R165): a mode it does not model, AVX2 without AVX, a
single-step or debug launch. Every step and every form is refused there, with the same reason. The model's own in this: the
place of TF in EFLAGS (notes/assumptions/9.md), the debug registers as one boolean of the caller (notes/assumptions/16.md),
and that every step and every form answers the refusal (notes/assumptions/21.md). -/
def Obligations.RefusedLaunches : Prop :=
  ∀ s : State,
    (launchRefusal s = none ↔
      (s.cfg.mode = .mode64 ∨ s.cfg.mode = .mode32) ∧ (s.cfg.features.avx2 = true → s.cfg.features.avx = true) ∧
        s.tf = false ∧ s.cfg.debugArmed = false) ∧
    (∀ r, launchRefusal s = some r → step s = .refused r ∧ ∀ i, exec i s = .refused r)

/-! ### Whole-machine statements -/

/-- Every step keeps the state's invariant: memory in canonical form, and outside 64-bit mode an instruction pointer of 32
bits (R15, R16). -/
def Obligations.StepKeepsInvariant : Prop :=
  ∀ s t : State, s.Inv → step s = .next t → t.Inv

/-- The invariant holds right after reset. That reset lists no memory is the model's choice (notes/assumptions/3.md). -/
def Obligations.ResetMeetsInvariant : Prop := State.reset.Inv

/-- What a step can change (R10, R16, R18, R19, R35, R111): `RIP` advances by 3 to 10 bytes; either one MMX register with
the x87 side effects of R12 and no vector register, or one vector register and no MMX or x87 component; never a general
register, EFLAGS, MXCSR, a byte of memory or the configuration. -/
def Obligations.StepChangesOneDestinationOnly : Prop :=
  ∀ s t : State, step s = .next t →
    Untouched s t ∧
    (∃ len, 3 ≤ len ∧ len ≤ 10 ∧ t.rip = s.nextRip len) ∧
    ((∃ reg : BitVec 3, t.ymm = s.ymm ∧ (∀ j, j ≠ reg → t.readX87 j = s.readX87 j) ∧
        t.readX87 reg = 0xFFFF#16 ++ t.readMm reg ∧ t.x87.top = 0#3 ∧ ∀ k (h : k < 8), t.x87.tag[k] = 0#2) ∨
      (∃ d : BitVec 4, t.mm = s.mm ∧ t.x87 = s.x87 ∧ ∀ j, j ≠ d → t.readYmm j = s.readYmm j))

/-- A run of any length leaves the general registers, EFLAGS, MXCSR, every byte of memory and the configuration as the
launch supplied them, however it ends (R35, R40 (c), R174 (c)). -/
def Obligations.RunLeavesLaunchDataUntouched : Prop :=
  ∀ (endAddr : Addr) (n : Nat) (s : State), Untouched s (run endAddr n s).state

/-- How a run follows its steps (R173): if `k` steps that each answer a next state lead from `s` to a state at the end
address, none of them taken there, then the run is `Done` in that state after exactly `k` steps, a run allowed fewer steps
being still on its way; and a program of `k` well-formed instructions, their encodings one after another at `RIP`, either
reaches the address after its last instruction in exactly `k` steps or stops earlier, at one of its instructions. That a
run which stands at the end address from the start, `k = 0`, is `Done` also in a launch the spec refuses is the model's
choice (notes/assumptions/17.md). -/
def Obligations.RunReachesEndAfterItsSteps : Prop :=
  (∀ (endAddr : Addr) (k : Nat) (s t : State), StepsTo endAddr k s t → t.rip = endAddr →
    SafeRun endAddr k s ∧ (∀ n, k ≤ n → run endAddr n s = .done t) ∧
    (∀ n, n < k → ∃ u, run endAddr n s = .running u ∧ StepsTo endAddr n s u ∧ StepsTo endAddr (k - n) u t)) ∧
  (∀ (s : State) (program : List Instr), s.Inv → launchRefusal s = none → (∀ i ∈ program, i.wf s.cfg.mode = true) →
    CodeAt s (program.flatMap encode) → (program.flatMap encode).length < 2 ^ 32 →
    let endAddr := s.byteAddr s.rip (program.flatMap encode).length
    (∃ t, StepsTo endAddr program.length s t ∧ run endAddr program.length s = .done t) ∨
      (∃ (k : Nat) (h : k < program.length) (u : State), StepsTo endAddr k s u ∧ ∀ n, k < n →
        (∃ f, exec program[k] u = .fault f ∧ run endAddr n s = .faulted f u) ∨
        (∃ r, exec program[k] u = .refused r ∧ run endAddr n s = .refused r u)))

/-- How a run ends (R150, R173): `Done` exactly at the end address; a fault or a refusal elsewhere, in the state whose step
it is. That state is reached from the launch state by steps that each answer a next state, at most as many as allowed, none
of them taken at the end address: every earlier instruction has completed, and the faulting one has written nothing. That
a run looks at the end address before the launch check, so that a refused launch standing there is `Done` and a refusal
comes only elsewhere, is the model's choice (notes/assumptions/17.md). -/
def Obligations.RunEndsAsItsLastStepSays : Prop :=
  ∀ (endAddr : Addr) (n : Nat) (s : State),
    match run endAddr n s with
    | .done t => t.rip = endAddr ∧ ∃ k ≤ n, StepsTo endAddr k s t
    | .running t => t.rip ≠ endAddr ∧ StepsTo endAddr n s t
    | .faulted f t => t.rip ≠ endAddr ∧ step t = .fault f ∧ f.rip = t.rip ∧ ∃ k < n, StepsTo endAddr k s t
    | .refused r t => t.rip ≠ endAddr ∧ step t = .refused r ∧ ∃ k < n, StepsTo endAddr k s t

/-- R19: no instruction reads or writes MXCSR. With another value in it every form does the same, and that value is still
there afterwards. -/
def Obligations.MxcsrIsNeitherReadNorWritten : Prop :=
  ∀ (i : Instr) (s : State) (m : BitVec 32),
    exec i { s with mxcsr := m } = mapNext (fun t => { t with mxcsr := m }) (exec i s)

/-- R18: no instruction reads or writes a flag. With other flags (and the same TF, which only says whether the launch is
refused, R165; its place in EFLAGS is the model's, notes/assumptions/9.md) every form does the same, and the flags are
still there afterwards. -/
def Obligations.FlagsAreNeitherReadNorWritten : Prop :=
  ∀ (i : Instr) (s : State) (fl : BitVec 32), State.tf { s with eflags := fl } = s.tf →
    exec i { s with eflags := fl } = mapNext (fun t => { t with eflags := fl }) (exec i s)

/-- R121: a VEX.128 form does not read the upper halves of its sources. Two states that differ only in upper halves of
vector registers give the same destination register, and stop with the same fault or refusal. -/
def Obligations.Vex128IgnoresUpperHalvesOfSources : Prop :=
  ∀ (i : Instr) (r : Bool) (x : Vex3) (v : BitVec 4) (reg : BitVec 3) (rm : RmOp) (s : State) (ymm : Vector Ymm 16),
    i = .vpaddb128C5 r v reg rm ∨ i = .vpaddb128C4 x v reg rm ∨ i = .vpaddw128C5 r v reg rm ∨
      i = .vpaddw128C4 x v reg rm ∨ i = .vpaddd128C5 r v reg rm ∨ i = .vpaddd128C4 x v reg rm →
    (∀ j, State.readXmm { s with ymm := ymm } j = s.readXmm j) →
    (∀ t, exec i s = .next t → ∃ t', exec i { s with ymm := ymm } = .next t' ∧
      t'.readYmm (regNum i.ext.r reg) = t.readYmm (regNum i.ext.r reg) ∧ t'.rip = t.rip ∧
      ∀ j, j ≠ regNum i.ext.r reg → t'.readYmm j = State.readYmm { s with ymm := ymm } j) ∧
    (∀ f, exec i s = .fault f → exec i { s with ymm := ymm } = .fault f) ∧
    (∀ why, exec i s = .refused why → exec i { s with ymm := ymm } = .refused why)

/-- The destructive legacy form and the VEX.128 form with its destination as first source give the same `XMM[d]`, in each of
their spellings, with the same extension bits, for a register source and for a memory source; a displacement with no
register counts from the end of the instruction (R68), so there the two have the same length (R107 to R109 against R122
to R124). -/
def Obligations.DestructiveFormAgreesWithThreeOperandForm : Prop :=
  ∀ (i i' : Instr) (rex : Rex) (r : Bool) (x : Vex3) (reg : BitVec 3) (rm : RmOp) (s t t' : State),
    let d := regNum i.ext.r reg
    ((i = .paddbSse reg rm ∨ i = .paddbSseRex rex reg rm) ∧
        (i' = .vpaddb128C5 r d reg rm ∨ i' = .vpaddb128C4 x d reg rm)) ∨
      ((i = .paddwSse reg rm ∨ i = .paddwSseRex rex reg rm) ∧
        (i' = .vpaddw128C5 r d reg rm ∨ i' = .vpaddw128C4 x d reg rm)) ∨
      ((i = .padddSse reg rm ∨ i = .padddSseRex rex reg rm) ∧
        (i' = .vpaddd128C5 r d reg rm ∨ i' = .vpaddd128C4 x d reg rm)) →
    i'.ext = i.ext → i'.length = i.length ∨ (∀ disp, rm ≠ .mem (.disp32 disp)) →
    exec i s = .next t → exec i' s = .next t' →
    t.readXmm d = t'.readXmm d ∧ (i'.length = i.length → t.rip = t'.rip)

/-- A VEX.256 form on registers is two VEX.128 forms side by side, in each of their spellings: the low half of its result is
the VEX.128 result on the low halves of the sources, the high half the VEX.128 result in a state whose sources' low halves
are the high halves (R102, R125 to R127). -/
def Obligations.Vex256IsTwoVex128 : Prop :=
  ∀ (wide narrow : Instr) (r r' : Bool) (x x' : Vex3) (v : BitVec 4) (reg q : BitVec 3) (s t : State)
    (ymm : Vector Ymm 16),
    ((wide = .vpaddb256C5 r v reg (.reg q) ∨ wide = .vpaddb256C4 x v reg (.reg q)) ∧
        (narrow = .vpaddb128C5 r' v reg (.reg q) ∨ narrow = .vpaddb128C4 x' v reg (.reg q))) ∨
      ((wide = .vpaddw256C5 r v reg (.reg q) ∨ wide = .vpaddw256C4 x v reg (.reg q)) ∧
        (narrow = .vpaddw128C5 r' v reg (.reg q) ∨ narrow = .vpaddw128C4 x' v reg (.reg q))) ∨
      ((wide = .vpaddd256C5 r v reg (.reg q) ∨ wide = .vpaddd256C4 x v reg (.reg q)) ∧
        (narrow = .vpaddd128C5 r' v reg (.reg q) ∨ narrow = .vpaddd128C4 x' v reg (.reg q))) →
    narrow.ext.r = wide.ext.r → narrow.ext.b = wide.ext.b → FormEnabled .vex128 s →
    (∀ j, State.readXmm { s with ymm := ymm } j = (s.readYmm j).extractLsb' 128 128) → exec wide s = .next t →
    let d := regNum wide.ext.r reg
    (∃ low, exec narrow s = .next low ∧ t.readXmm d = low.readXmm d) ∧
    (∃ high, exec narrow { s with ymm := ymm } = .next high ∧ (t.readYmm d).extractLsb' 128 128 = high.readXmm d)

/-- An MMX form on registers gives the low 64 bits of the 128-bit form on operands whose low 64 bits are the MMX operands,
in each of their spellings, the 128-bit form's registers being any that its REX byte reaches (R102, R104 to R109). -/
def Obligations.MmxIsTheLowHalfOfSse : Prop :=
  ∀ (i i' : Instr) (rex rex' : Rex) (reg q : BitVec 3) (s t t' : State),
    ((i = .paddbMmx reg (.reg q) ∨ i = .paddbMmxRex rex reg (.reg q)) ∧
        (i' = .paddbSse reg (.reg q) ∨ i' = .paddbSseRex rex' reg (.reg q))) ∨
      ((i = .paddwMmx reg (.reg q) ∨ i = .paddwMmxRex rex reg (.reg q)) ∧
        (i' = .paddwSse reg (.reg q) ∨ i' = .paddwSseRex rex' reg (.reg q))) ∨
      ((i = .padddMmx reg (.reg q) ∨ i = .padddMmxRex rex reg (.reg q)) ∧
        (i' = .padddSse reg (.reg q) ∨ i' = .padddSseRex rex' reg (.reg q))) →
    s.readMm reg = (s.readXmm (regNum i'.ext.r reg)).setWidth 64 →
    s.readMm q = (s.readXmm (regNum i'.ext.b q)).setWidth 64 →
    exec i s = .next t → exec i' s = .next t' →
    t.readMm reg = (t'.readXmm (regNum i'.ext.r reg)).setWidth 64

/-- The hardware reset values the spec lists for information, and no other (R27, R38, R170): the vector registers, the x87
data registers with the tags and TOP, MXCSR, EFLAGS, the enabling bits of CR0, CR4 and XCR0, the mode and the first fetch
address; and what follows from them: the launch is in a mode the spec refuses, and with CR4 and XCR0 as RESET leaves them
every SSE2 and VEX form raises #UD in whatever mode the spec models. The model's own in this: the first fetch address as the
number in `RIP` (notes/assumptions/22.md), and that the first step from reset answers `modeOutOfScope`
(notes/assumptions/1.md). -/
def Obligations.ResetValuesOfTheHardware : Prop :=
  (∀ i, State.reset.readYmm i = 0#256) ∧ (∀ i, State.reset.readX87 i = 0#80) ∧
  (∀ k (h : k < 8), State.reset.x87.tag[k] = 1#2) ∧ State.reset.x87.top = 0#3 ∧
  State.reset.mxcsr = 0x1F80#32 ∧ State.reset.eflags = 0x00000002#32 ∧
  State.reset.cfg.env.cr0Em = false ∧ State.reset.cfg.env.cr0Ts = false ∧
  State.reset.cfg.env.cr4Osfxsr = false ∧ State.reset.cfg.env.cr4Osxsave = false ∧
  State.reset.cfg.env.xcr0Sse = false ∧ State.reset.cfg.env.xcr0Avx = false ∧
  State.reset.cfg.mode = .realAddress ∧ State.reset.rip = 0xFFFFFFF0#64 ∧
  step State.reset = .refused .modeOutOfScope ∧
  (∀ (s : State) (i : Instr), launchRefusal s = none → i.formClass ≠ .mmx →
    s.cfg.env.cr4Osfxsr = State.reset.cfg.env.cr4Osfxsr → s.cfg.env.cr4Osxsave = State.reset.cfg.env.cr4Osxsave →
    s.cfg.env.xcr0Sse = State.reset.cfg.env.xcr0Sse → s.cfg.env.xcr0Avx = State.reset.cfg.env.xcr0Avx →
    exec i s = .fault (.ud s.rip))
end

