-- ==== Sys2Proof/Laws/Decode.lean ====
section
/-! SUPPORT. The small lemmas of the decoder's and the encoder's own definitions. -/

namespace Sys2Proof

/-- Taking an instruction apart and putting it together again gives it back. -/
@[simp] theorem Instr.toInstr_shape (i : Instr) : i.shape.toInstr = i := by cases i <;> rfl

/-- Every shape is the shape of its instruction. -/
@[simp] theorem Shape.shape_toInstr (sh : Shape) : sh.toInstr.shape = sh := by
  cases sh with
  | legacy sse rex e reg rm => cases sse <;> cases rex <;> cases e <;> rfl
  | c5 l r v e reg rm => cases l <;> cases e <;> rfl
  | c4 l x v e reg rm => cases l <;> cases e <;> rfl

@[simp] theorem Elem.ofOpcode_opcode (e : Elem) : Elem.ofOpcode e.opcode = some e := by cases e <;> rfl

/-- The bytes of an operand: the ModRM byte and its trailer. -/
theorem encodeRm_length (reg : BitVec 3) (rm : RmOp) : (encodeRm reg rm).length = 1 + rm.trailerLength := by
  cases rm with
  | reg r => rfl
  | mem m => cases m <;> rfl

/-- A shape's encoding has the shape's length (spec/30_encoding.md R51 step 6). -/
theorem Shape.encode_length (sh : Shape) : sh.encode.length = sh.length := by
  cases sh with
  | legacy sse rex e reg rm =>
    cases sse <;> cases rex <;> simp [Shape.encode, Shape.length, encodeRm_length] <;> omega
  | c5 l r v e reg rm => simp [Shape.encode, Shape.length, encodeRm_length]; omega
  | c4 l x v e reg rm => simp [Shape.encode, Shape.length, encodeRm_length]; omega

end Sys2Proof
end

