-- ==== Sys2Proof/Laws/Forms.lean ====
section
/-! SUPPORT. The shared operations of a form, each with one lemma that says once what it can do: later proofs cite these
and unfold none of the operations. -/

namespace Sys2Proof.Machine

/-- `firstSome` finds nothing exactly when there is nothing to find. -/
theorem firstSome_none {α : Type} (f : Nat → Option α) (n : Nat) : firstSome f n = none ↔ ∀ k < n, f k = none := by
  induction n with
  | zero => simp [firstSome]
  | succ n ih =>
    cases h : firstSome f n with
    | some r =>
      have : ¬ ∀ k < n, f k = none := fun hk => by simp [ih.2 hk] at h
      simp only [firstSome, h, reduceCtorEq, false_iff]
      exact fun hk => this fun k hlt => hk k (by omega)
    | none =>
      simp only [firstSome, h, Option.map_eq_none_iff, Nat.lt_succ_iff_lt_or_eq]
      exact ⟨fun hn k hk => hk.elim (ih.1 h k) (fun e => e ▸ hn), fun hk => hk n (.inr rfl)⟩

/-- What `firstSome` finds is the first there is. -/
theorem firstSome_some {α : Type} (f : Nat → Option α) (n k : Nat) (v : α) :
    firstSome f n = some (k, v) ↔ k < n ∧ f k = some v ∧ ∀ j < k, f j = none := by
  induction n with
  | zero => simp [firstSome]
  | succ n ih =>
    cases h : firstSome f n with
    | some r =>
      obtain ⟨k', v'⟩ := r
      simp only [firstSome, h]
      rw [h] at ih
      constructor
      · intro e
        obtain ⟨hk, hv⟩ := ih.1 e
        exact ⟨by omega, hv⟩
      · rintro ⟨hk, hv, hj⟩
        by_cases hkn : k < n
        · exact ih.2 ⟨hkn, hv, hj⟩
        · have : firstSome f n = none := (firstSome_none f n).2 fun j hjn => hj j (by omega)
          simp [this] at h
    | none =>
      have hn := (firstSome_none f n).1 h
      simp only [firstSome, h, Option.map_eq_some_iff, Prod.mk.injEq]
      constructor
      · rintro ⟨a, ha, rfl, rfl⟩
        exact ⟨by omega, ha, hn⟩
      · rintro ⟨hk, hv, -⟩
        have : k = n := by
          by_contra hne
          simp [hn k (by omega)] at hv
        subst this
        exact ⟨v, hv, rfl, rfl⟩

/-- The platform admits an access exactly when it admits every byte of it (spec/20_memory.md R36). -/
theorem State.access_none (s : State) (kind : AccessKind) (a : Addr) (n : Nat) :
    s.access kind a n = none ↔ ∀ k < n, s.byteFault kind a n k = none := by
  rw [← firstSome_none]
  unfold State.access
  cases firstSome (s.byteFault kind a n) n <;> simp

/-- A faulting access raises the fault of its first failing byte (spec/20_memory.md R36 (c)). -/
theorem State.access_some (s : State) (kind : AccessKind) (a : Addr) (n : Nat) (stop : Stop) :
    s.access kind a n = some stop ↔
      ∃ k f, k < n ∧ s.byteFault kind a n k = some f ∧ (∀ j < k, s.byteFault kind a n j = none) ∧
        stop = .fault (PlatFault.toFault f (s.byteAddr a k) s.rip) := by
  unfold State.access
  cases h : firstSome (s.byteFault kind a n) n with
  | none =>
    have hn := (firstSome_none _ _).1 h
    simp only [reduceCtorEq, false_iff]
    rintro ⟨k, f, hk, hf, -⟩
    simp [hn k hk] at hf
  | some r =>
    obtain ⟨k, f⟩ := r
    have hkf := (firstSome_some _ _ _ _).1 h
    constructor
    · intro e
      exact ⟨k, f, hkf.1, hkf.2.1, hkf.2.2, (Option.some.inj e).symm⟩
    · rintro ⟨k', f', hk', hf', hj', rfl⟩
      have := h.symm.trans ((firstSome_some _ _ _ _).2 ⟨hk', hf', hj'⟩)
      obtain ⟨rfl, rfl⟩ : k = k' ∧ f = f' := by simpa using this
      rfl

/-- No byte of an access touches a device exactly when no byte's address is in a device's span. -/
theorem State.touchesDevice_false (s : State) (a : Addr) (n : Nat) :
    s.touchesDevice a n = false ↔
      ∀ k < n, ∀ sp ∈ s.cfg.plat.devices, Span.covers sp (s.byteAddr a k) = false := by
  induction n with
  | zero => simp [State.touchesDevice]
  | succ n ih =>
    simp only [State.touchesDevice, Bool.or_eq_false_iff, ih, List.any_eq_false, Bool.not_eq_true,
      Nat.lt_succ_iff_lt_or_eq]
    exact ⟨fun h k hk => hk.elim (h.1 k) (fun e => e ▸ h.2), fun h => ⟨fun k hk => h k (.inl hk), h n (.inr rfl)⟩⟩

/-- `ReadSrc`'s checks pass exactly when the operand is aligned for its class, admitted, and on no device
(spec/60_exceptions.md R152). -/
theorem readCheck_none (cls : FormClass) (n : Nat) (a : Addr) (s : State) :
    readCheck cls n a s = none ↔
      (cls = .sse → a.toNat % 16 = 0) ∧ (∀ k < n, s.byteFault .read a n k = none) ∧
      s.touchesDevice a n = false ∧ (cls = .mmx → s.cfg.env.acCheck = true → a.toNat % 8 = 0) := by
  rw [← State.access_none]
  unfold readCheck
  by_cases h16 : a.toNat % 16 = 0 <;> cases h : s.access .read a n <;> cases cls <;> cases s.touchesDevice a n <;>
    cases s.cfg.env.acCheck <;> simp [h16]

/-- `Precheck` passes exactly when the launch is not refused and no condition of the class holds
(spec/60_exceptions.md R151). -/
theorem precheck_none (cls : FormClass) (s : State) :
    precheck cls s = none ↔
      launchRefusal s = none ∧ udCondition cls s = false ∧ s.cfg.env.cr0Ts = false ∧
      (cls = .mmx → s.cfg.env.x87Pending = false) := by
  unfold precheck
  cases launchRefusal s <;> cases udCondition cls s <;> cases s.cfg.env.cr0Ts <;> cases cls <;>
    cases s.cfg.env.x87Pending <;> simp

/-- What a form does when it answers a next state: its checks passed, its source was read, and the state is its own
effect with `RIP` advanced. -/
theorem runForm_next (cls : FormClass) (N : Nat) (reg : BitVec 3 → BitVec N) (e : Ext) (len : Nat) (rm : RmOp)
    (finish : BitVec N → State) (s t : State) :
    runForm cls N reg e len rm finish s = .next t ↔
      precheck cls s = none ∧ ∃ src, readSrc cls N reg e len rm s = .ok src ∧ t = (finish src).advance len := by
  unfold runForm
  cases precheck cls s with
  | some stop => cases stop <;> simp [Stop.outcome]
  | none =>
    cases readSrc cls N reg e len rm s with
    | error stop => cases stop <;> simp [Stop.outcome]
    | ok src => simp [eq_comm]

/-- What `ReadSrc` can answer: the register, or the loaded value of an operand whose checks pass. -/
theorem readSrc_ok (cls : FormClass) (N : Nat) (reg : BitVec 3 → BitVec N) (e : Ext) (len : Nat) (rm : RmOp) (s : State)
    (src : BitVec N) :
    readSrc cls N reg e len rm s = .ok src ↔
      (∃ r, rm = .reg r ∧ src = reg r) ∨
      (∃ m, rm = .mem m ∧ readCheck cls (N / 8) (s.linearAddr e len m) s = none ∧
        src = s.load (s.linearAddr e len m) N) := by
  cases rm with
  | reg r => simp [readSrc, eq_comm]
  | mem m =>
    simp only [readSrc]
    cases h : readCheck cls (N / 8) (s.linearAddr e len m) s <;> simp [h, eq_comm (a := src)]

end Sys2Proof.Machine
end

