-- ==== Sys2Proof/Laws/State.lean ====
section
/-! SUPPORT. The small lemmas of the state's updates: one per field per update, and the register file's read after
write. -/

namespace Sys2Proof.Machine

/-! ### `writeMm` (spec/10_state.md R12) -/

@[simp] theorem State.writeMm_ymm (s : State) (i : BitVec 3) (v : Mm) : (s.writeMm i v).ymm = s.ymm := rfl
@[simp] theorem State.writeMm_gpr (s : State) (i : BitVec 3) (v : Mm) : (s.writeMm i v).gpr = s.gpr := rfl
@[simp] theorem State.writeMm_rip (s : State) (i : BitVec 3) (v : Mm) : (s.writeMm i v).rip = s.rip := rfl
@[simp] theorem State.writeMm_eflags (s : State) (i : BitVec 3) (v : Mm) : (s.writeMm i v).eflags = s.eflags := rfl
@[simp] theorem State.writeMm_mxcsr (s : State) (i : BitVec 3) (v : Mm) : (s.writeMm i v).mxcsr = s.mxcsr := rfl
@[simp] theorem State.writeMm_mem (s : State) (i : BitVec 3) (v : Mm) : (s.writeMm i v).mem = s.mem := rfl
@[simp] theorem State.writeMm_cfg (s : State) (i : BitVec 3) (v : Mm) : (s.writeMm i v).cfg = s.cfg := rfl
@[simp] theorem State.writeMm_top (s : State) (i : BitVec 3) (v : Mm) : (s.writeMm i v).x87.top = 0#3 := rfl
@[simp] theorem State.writeMm_tag (s : State) (i : BitVec 3) (v : Mm) :
    (s.writeMm i v).x87.tag = Vector.replicate 8 0#2 := rfl

/-! ### `writeYmm` (spec/10_state.md R13) -/

@[simp] theorem State.writeYmm_mm (s : State) (i : BitVec 4) (v : Ymm) : (s.writeYmm i v).mm = s.mm := rfl
@[simp] theorem State.writeYmm_x87 (s : State) (i : BitVec 4) (v : Ymm) : (s.writeYmm i v).x87 = s.x87 := rfl
@[simp] theorem State.writeYmm_gpr (s : State) (i : BitVec 4) (v : Ymm) : (s.writeYmm i v).gpr = s.gpr := rfl
@[simp] theorem State.writeYmm_rip (s : State) (i : BitVec 4) (v : Ymm) : (s.writeYmm i v).rip = s.rip := rfl
@[simp] theorem State.writeYmm_eflags (s : State) (i : BitVec 4) (v : Ymm) : (s.writeYmm i v).eflags = s.eflags := rfl
@[simp] theorem State.writeYmm_mxcsr (s : State) (i : BitVec 4) (v : Ymm) : (s.writeYmm i v).mxcsr = s.mxcsr := rfl
@[simp] theorem State.writeYmm_mem (s : State) (i : BitVec 4) (v : Ymm) : (s.writeYmm i v).mem = s.mem := rfl
@[simp] theorem State.writeYmm_cfg (s : State) (i : BitVec 4) (v : Ymm) : (s.writeYmm i v).cfg = s.cfg := rfl

/-! ### `advance` (spec/10_state.md R16) -/

@[simp] theorem State.advance_mm (s : State) (n : Nat) : (s.advance n).mm = s.mm := rfl
@[simp] theorem State.advance_x87 (s : State) (n : Nat) : (s.advance n).x87 = s.x87 := rfl
@[simp] theorem State.advance_ymm (s : State) (n : Nat) : (s.advance n).ymm = s.ymm := rfl
@[simp] theorem State.advance_gpr (s : State) (n : Nat) : (s.advance n).gpr = s.gpr := rfl
@[simp] theorem State.advance_rip (s : State) (n : Nat) : (s.advance n).rip = s.nextRip n := rfl
@[simp] theorem State.advance_eflags (s : State) (n : Nat) : (s.advance n).eflags = s.eflags := rfl
@[simp] theorem State.advance_mxcsr (s : State) (n : Nat) : (s.advance n).mxcsr = s.mxcsr := rfl
@[simp] theorem State.advance_mem (s : State) (n : Nat) : (s.advance n).mem = s.mem := rfl
@[simp] theorem State.advance_cfg (s : State) (n : Nat) : (s.advance n).cfg = s.cfg := rfl

/-! ### Reads and address sums look at the fields they name only -/

@[simp] theorem State.writeMm_nextRip (s : State) (i : BitVec 3) (v : Mm) (n : Nat) :
    (s.writeMm i v).nextRip n = s.nextRip n := rfl
@[simp] theorem State.writeYmm_nextRip (s : State) (i : BitVec 4) (v : Ymm) (n : Nat) :
    (s.writeYmm i v).nextRip n = s.nextRip n := rfl
@[simp] theorem State.writeMm_readByte (s : State) (i : BitVec 3) (v : Mm) (a : Addr) :
    (s.writeMm i v).readByte a = s.readByte a := rfl
@[simp] theorem State.writeYmm_readByte (s : State) (i : BitVec 4) (v : Ymm) (a : Addr) :
    (s.writeYmm i v).readByte a = s.readByte a := rfl
@[simp] theorem State.advance_readByte (s : State) (n : Nat) (a : Addr) :
    (s.advance n).readByte a = s.readByte a := rfl
@[simp] theorem State.advance_readMm (s : State) (n : Nat) (i : BitVec 3) : (s.advance n).readMm i = s.readMm i := rfl
@[simp] theorem State.advance_readYmm (s : State) (n : Nat) (i : BitVec 4) : (s.advance n).readYmm i = s.readYmm i := rfl
@[simp] theorem State.advance_readXmm (s : State) (n : Nat) (i : BitVec 4) : (s.advance n).readXmm i = s.readXmm i := rfl
@[simp] theorem State.writeYmm_readMm (s : State) (i : BitVec 4) (v : Ymm) (j : BitVec 3) :
    (s.writeYmm i v).readMm j = s.readMm j := rfl
@[simp] theorem State.writeMm_readYmm (s : State) (i : BitVec 3) (v : Mm) (j : BitVec 4) :
    (s.writeMm i v).readYmm j = s.readYmm j := rfl

/-! ### Read after write -/

/-- An MMX register after a write: the one written holds the value, every other what it held. -/
theorem State.readMm_writeMm (s : State) (i j : BitVec 3) (v : Mm) :
    (s.writeMm i v).readMm j = if j = i then v else s.readMm j := by
  simp only [State.readMm, State.writeMm, Vector.getElem_set]
  by_cases h : j = i
  · simp [h]
  · have : i.toNat ≠ j.toNat := fun e => h (BitVec.eq_of_toNat_eq e.symm)
    simp [h, this]

/-- The exponent half of an x87 register after a write of an MMX register (spec/10_state.md R12 (c)). -/
theorem State.exp_writeMm (s : State) (i j : BitVec 3) (v : Mm) :
    (s.writeMm i v).x87.exp[j.toNat]'j.isLt = if j = i then 0xFFFF#16 else s.x87.exp[j.toNat]'j.isLt := by
  simp only [State.writeMm, Vector.getElem_set]
  by_cases h : j = i
  · simp [h]
  · have : i.toNat ≠ j.toNat := fun e => h (BitVec.eq_of_toNat_eq e.symm)
    simp [h, this]

/-- A vector register after a write: the one written holds the value, every other what it held. -/
theorem State.readYmm_writeYmm (s : State) (i j : BitVec 4) (v : Ymm) :
    (s.writeYmm i v).readYmm j = if j = i then v else s.readYmm j := by
  simp only [State.readYmm, State.writeYmm, Vector.getElem_set]
  by_cases h : j = i
  · simp [h]
  · have : i.toNat ≠ j.toNat := fun e => h (BitVec.eq_of_toNat_eq e.symm)
    simp [h, this]

/-- A legacy write sets the low half and keeps the upper half (spec/10_state.md R13). -/
theorem State.readYmm_writeXmm (s : State) (i j : BitVec 4) (v : Xmm) :
    (s.writeXmm i v).readYmm j = if j = i then (s.readYmm i).extractLsb' 128 128 ++ v else s.readYmm j :=
  State.readYmm_writeYmm s i j _

/-- A VEX.128 write sets the low half and clears the upper half (spec/41_vpadd_vex.md R121). -/
theorem State.readYmm_writeXmmZext (s : State) (i j : BitVec 4) (v : Xmm) :
    (s.writeXmmZext i v).readYmm j = if j = i then v.setWidth 256 else s.readYmm j :=
  State.readYmm_writeYmm s i j _

/-- The low half of two concatenated halves. -/
theorem setWidth_append_halves (u v : BitVec 128) : (u ++ v).setWidth 128 = v := by
  refine BitVec.eq_of_getLsbD_eq fun j hj => ?_
  rw [BitVec.getLsbD_setWidth, BitVec.getLsbD_append]
  simp [hj]

/-- The high half of two concatenated halves. -/
theorem extract_append_halves (u v : BitVec 128) : (u ++ v).extractLsb' 128 128 = u := by
  refine BitVec.eq_of_getLsbD_eq fun j hj => ?_
  rw [BitVec.getLsbD_extractLsb', BitVec.getLsbD_append]
  simp [hj]

/-- A legacy write seen as `XMM`: the register written holds the value, every other what it held. -/
theorem State.readXmm_writeXmm (s : State) (i j : BitVec 4) (v : Xmm) :
    (s.writeXmm i v).readXmm j = if j = i then v else s.readXmm j := by
  unfold State.readXmm
  rw [State.readYmm_writeXmm]
  split
  · exact setWidth_append_halves _ _
  · rfl

/-- A legacy write leaves every upper half (spec/10_state.md R13, first row). -/
theorem State.upper_writeXmm (s : State) (i j : BitVec 4) (v : Xmm) :
    ((s.writeXmm i v).readYmm j).extractLsb' 128 128 = (s.readYmm j).extractLsb' 128 128 := by
  rw [State.readYmm_writeXmm]
  split
  · rename_i h
    rw [h]
    exact extract_append_halves _ _
  · rfl

/-- A VEX.128 write seen as `XMM`: the register written holds the value, every other what it held. -/
theorem State.readXmm_writeXmmZext (s : State) (i j : BitVec 4) (v : Xmm) :
    (s.writeXmmZext i v).readXmm j = if j = i then v else s.readXmm j := by
  unfold State.readXmm
  rw [State.readYmm_writeXmmZext]
  split
  · simp
  · rfl

/-- A VEX.128 write clears the upper half of its register (spec/41_vpadd_vex.md R121). -/
theorem State.upper_writeXmmZext (s : State) (i : BitVec 4) (v : Xmm) :
    ((s.writeXmmZext i v).readYmm i).extractLsb' 128 128 = 0#128 := by
  rw [State.readYmm_writeXmmZext, if_pos rfl]
  refine BitVec.eq_of_getLsbD_eq fun j hj => ?_
  simp

/-- An x87 register after a write of an MMX register: ones above the value in the one written, every other what it held
(spec/10_state.md R12). -/
theorem State.readX87_writeMm (s : State) (i j : BitVec 3) (v : Mm) :
    (s.writeMm i v).readX87 j = if j = i then 0xFFFF#16 ++ v else s.readX87 j := by
  unfold State.readX87
  rw [State.exp_writeMm, State.readMm_writeMm]
  split <;> rfl

/-! ### Addresses -/

theorem State.wrapAddr_mode64 (s : State) (a : Addr) (h : s.cfg.mode = .mode64) : s.wrapAddr a = a := by
  simp [State.wrapAddr, h]

theorem State.wrapAddr_toNat (s : State) (a : Addr) (h : s.cfg.mode ≠ .mode64) :
    (s.wrapAddr a).toNat = a.toNat % 2 ^ 32 := by
  simp only [State.wrapAddr, h, if_false, BitVec.toNat_setWidth]
  omega

/-- Outside 64-bit mode the next instruction's address has 32 bits (spec/10_state.md R15, R16). -/
theorem State.nextRip_lt (s : State) (n : Nat) (h : s.cfg.mode ≠ .mode64) : (s.nextRip n).toNat < 2 ^ 32 := by
  rw [State.nextRip, State.wrapAddr_toNat s _ h]
  omega

end Sys2Proof.Machine
end

