-- ==== Sys2Proof/Laws/Exec.lean ====
section
/-! SUPPORT. What every form has in common, said once for all 24 constructors, so that a statement about every instruction
needs no case split: `exec` is `runForm` of the form's class, and its own effect is one register write. -/

namespace Sys2Proof.Machine

/-- The register write of a form of this class in state `s`: an MMX register for the MMX forms, a vector register for the
others. -/
def OneWrite (cls : FormClass) (s u : State) : Prop :=
  (cls = .mmx ∧ ∃ r v, u = s.writeMm r v) ∨ (cls ≠ .mmx ∧ ∃ d v, u = s.writeYmm d v)

/-- `exec` is `runForm` over the instruction's class, extension bits, length and operand, and its effect is one register
write. -/
theorem exec_runForm (i : Instr) (s : State) :
    ∃ (N : Nat) (reg : BitVec 3 → BitVec N) (finish : BitVec N → State),
      N / 8 = i.formClass.operandBytes ∧
      exec i s = runForm i.formClass N reg i.ext i.length i.rmOp finish s ∧
      ∀ src, OneWrite i.formClass s (finish src) := by
  cases i
  case paddbMmx | paddwMmx | padddMmx | paddbMmxRex | paddwMmxRex | padddMmxRex =>
    exact ⟨64, s.readMm, _, rfl, rfl, fun _ => .inl ⟨rfl, _, _, rfl⟩⟩
  case vpaddb256C5 | vpaddb256C4 | vpaddw256C5 | vpaddw256C4 | vpaddd256C5 | vpaddd256C4 =>
    exact ⟨256, _, _, rfl, rfl, fun _ => .inr ⟨nofun, _, _, rfl⟩⟩
  all_goals exact ⟨128, _, _, rfl, rfl, fun _ => .inr ⟨nofun, _, _, rfl⟩⟩

/-- The #UD conditions of a class do not hold when the class is enabled. -/
theorem FormEnabled.precheck {cls : FormClass} {s : State} (h : FormEnabled cls s) : precheck cls s = none := by
  obtain ⟨h1, h2, h3⟩ := h
  refine (precheck_none cls s).2 ⟨h1, ?_, h2, ?_⟩
  · cases cls <;> simp_all [udCondition]
  · rintro rfl
    exact h3.2.2

/-- The checks of a readable memory operand pass. -/
theorem SourceReadable.readCheck {i : Instr} {s : State} (h : SourceReadable i s) (m : MemForm) (hm : i.rmOp = .mem m) :
    readCheck i.formClass i.formClass.operandBytes (s.linearAddr i.ext i.length m) s = none := by
  obtain ⟨⟨h16, h8⟩, ha⟩ := h m hm
  exact (readCheck_none _ _ _ _).2
    ⟨h16, fun k hk => (ha k hk).1, (State.touchesDevice_false _ _ _).2 fun k hk => (ha k hk).2, h8⟩

/-- `ReadSrc` of a readable source answers the source's value. -/
theorem SourceReadable.readSrc {i : Instr} {s : State} (h : SourceReadable i s) (N : Nat) (reg : BitVec 3 → BitVec N)
    (hN : N / 8 = i.formClass.operandBytes) :
    readSrc i.formClass N reg i.ext i.length i.rmOp s = .ok (sourceValue N reg i s) := by
  rw [readSrc_ok]
  unfold sourceValue
  cases hr : i.rmOp with
  | reg r => exact .inl ⟨r, rfl, rfl⟩
  | mem m => exact .inr ⟨m, rfl, hN ▸ h.readCheck m hr, rfl⟩

end Sys2Proof.Machine
end

