-- ==== Sys2Proof/Laws/Lanes.lean ====
section
/-! SUPPORT. The one fact about packing lanes: bit `j` of the packed number is bit `j mod w` of lane `j / w`. -/

namespace Sys2Proof.Machine

theorem packLanes_lt {w : Nat} (f : Nat → BitVec w) (n : Nat) : packLanes f n < 2 ^ (w * n) := by
  induction n with
  | zero => simp [packLanes]
  | succ n ih =>
    have h : (f n).toNat + 1 ≤ 2 ^ w := (f n).isLt
    calc packLanes f (n + 1) < 2 ^ (w * n) * (f n).toNat + 2 ^ (w * n) := by simp only [packLanes]; omega
      _ = 2 ^ (w * n) * ((f n).toNat + 1) := by ring
      _ ≤ 2 ^ (w * n) * 2 ^ w := Nat.mul_le_mul_left _ h
      _ = 2 ^ (w * (n + 1)) := by rw [← pow_add, Nat.mul_succ]

/-- Every bit of packed lanes. -/
theorem packLanes_testBit {w : Nat} (f : Nat → BitVec w) (n i j : Nat) (hi : i < n) (hj : j < w) :
    (packLanes f n).testBit (w * i + j) = (f i).getLsbD j := by
  induction n with
  | zero => omega
  | succ n ih =>
    simp only [packLanes]
    rw [Nat.testBit_two_pow_mul_add _ (packLanes_lt f n)]
    by_cases h : i < n
    · have hle : w * i + w ≤ w * n := by
        calc w * i + w = w * (i + 1) := by ring
          _ ≤ w * n := Nat.mul_le_mul_left _ h
      rw [if_pos (by omega)]
      exact ih h
    · have : i = n := by omega
      subst this
      rw [if_neg (by omega)]
      simp [BitVec.testBit_toNat]

/-- Lane `i` of packed lanes is the lane packed, whatever the width of the whole, as long as it holds the lane. -/
theorem lane_ofNat_packLanes {w N : Nat} (f : Nat → BitVec w) (n i : Nat) (hi : i < n) (hN : w * i + w ≤ N) :
    lane w (BitVec.ofNat N (packLanes f n)) i = f i := by
  refine BitVec.eq_of_getLsbD_eq fun j hj => ?_
  simp only [lane, BitVec.getLsbD_extractLsb', hj, decide_true, Bool.true_and, BitVec.getLsbD_ofNat]
  rw [packLanes_testBit f n i j hi hj]
  simp
  omega

/-- The top of a lane that a width holds. -/
theorem lane_top (w N k : Nat) (h : k < N / w) : w * k + w ≤ N := by
  have h1 := Nat.mul_le_mul_left w (Nat.succ_le_of_lt h)
  have h2 := Nat.mul_div_le N w
  rw [Nat.mul_succ] at h1
  omega

/-- Everything `padd` does: each lane is the sum of the operands' lanes (spec/40_padd_legacy.md R100). -/
theorem lane_padd (w N k : Nat) (a b : BitVec N) (h : k < N / w) :
    lane w (padd w N a b) k = lane w a k + lane w b k :=
  lane_ofNat_packLanes _ _ _ h (lane_top w N k h)

/-- Everything `load` does: byte `k` of the value is the byte at the address of byte `k` (spec/20_memory.md R30). -/
theorem lane_load (s : State) (a : Addr) (N k : Nat) (h : k < N / 8) :
    lane 8 (s.load a N) k = s.readByte (s.byteAddr a k) :=
  lane_ofNat_packLanes _ _ _ h (lane_top 8 N k h)

end Sys2Proof.Machine
end

