-- ==== Sys2Proof/Laws/Memory.lean ====
section
/-! SUPPORT. Memory: every operation that writes it keeps the canonical form, a read after a write gives the value
written, and a write leaves every other byte alone. -/

namespace Sys2Proof.Machine

/-- What the canonical form says of a memory with a first entry. -/
theorem Memory.wf_cons (a : Nat) (v : Byte) (m : Memory) :
    Memory.wf ((a, v) :: m) = true ↔
      a < 2 ^ 64 ∧ v ≠ Memory.unlisted ∧ (∀ c ∈ m, a < c.1) ∧ Memory.wf m = true := by
  simp [Memory.wf, and_assoc]

/-- The addresses of a memory after a write were there before, or are the one written. -/
theorem Memory.mem_write (m : Memory) (x : Nat) (v : Byte) (c : Host.Cell) (h : c ∈ Memory.write m x v) :
    c ∈ m ∨ c = (x, v) := by
  induction m with
  | nil =>
    simp only [Memory.write] at h
    split at h <;> simp_all
  | cons e m ih =>
    obtain ⟨a, w⟩ := e
    simp only [Memory.write] at h
    split at h
    · split at h <;> simp_all
      tauto
    · split at h
      · split at h <;> simp_all
        tauto
      · rcases List.mem_cons.1 h with h | h
        · exact .inl (List.mem_cons.2 (.inl h))
        · exact (ih h).imp (List.mem_cons.2 ∘ .inr) id

/-- A write keeps the canonical form. -/
theorem Memory.write_wf (m : Memory) (x : Nat) (v : Byte) (hx : x < 2 ^ 64) (h : Memory.wf m = true) :
    Memory.wf (Memory.write m x v) = true := by
  induction m with
  | nil =>
    simp only [Memory.write]
    split
    · rfl
    · rename_i hv
      simp [Memory.wf, hv]
      omega
  | cons e m ih =>
    obtain ⟨a, w⟩ := e
    obtain ⟨ha, hw, hlt, hm⟩ := (Memory.wf_cons a w m).1 h
    simp only [Memory.write]
    split
    · rename_i hxa
      split
      · exact h
      · rename_i hv
        refine (Memory.wf_cons _ _ _).2 ⟨hx, hv, fun c hc => ?_, h⟩
        rcases List.mem_cons.1 hc with rfl | hc
        · exact hxa
        · exact lt_trans hxa (hlt c hc)
    · split
      · split
        · exact hm
        · rename_i hv
          exact (Memory.wf_cons _ _ _).2 ⟨ha, hv, hlt, hm⟩
      · rename_i hxa hne
        refine (Memory.wf_cons _ _ _).2 ⟨ha, hw, fun c hc => ?_, ih hm⟩
        rcases Memory.mem_write m x v c hc with hc | rfl
        · exact hlt c hc
        · omega

/-- An address below every entry is unlisted. -/
theorem Memory.read_of_lt (m : Memory) (x : Nat) (h : ∀ c ∈ m, x < c.1) : Memory.read m x = Memory.unlisted := by
  induction m with
  | nil => rfl
  | cons e m ih =>
    obtain ⟨a, w⟩ := e
    have hx : x < a := h (a, w) (by simp)
    simp only [Memory.read, if_neg (Nat.ne_of_lt hx)]
    exact ih fun c hc => h c (by simp [hc])

/-- A read after a write: the byte written where it was written, every other byte as before. -/
theorem Memory.read_write (m : Memory) (x y : Nat) (v : Byte) (h : Memory.wf m = true) :
    Memory.read (Memory.write m x v) y = if y = x then v else Memory.read m y := by
  induction m with
  | nil =>
    simp only [Memory.write]
    split <;> by_cases hy : y = x <;> simp_all [Memory.read]
  | cons e m ih =>
    obtain ⟨a, w⟩ := e
    obtain ⟨-, -, hlt, hm⟩ := (Memory.wf_cons a w m).1 h
    simp only [Memory.write]
    split
    · rename_i hxa
      have hx : Memory.read ((a, w) :: m) x = Memory.unlisted :=
        Memory.read_of_lt _ _ fun c hc => by
          rcases List.mem_cons.1 hc with rfl | hc
          · exact hxa
          · exact lt_trans hxa (hlt c hc)
      split
      · rename_i hv
        by_cases hy : y = x
        · simp [hy, hx, hv]
        · simp [hy]
      · by_cases hy : y = x <;> simp [Memory.read, hy]
    · split
      · rename_i _ hxa
        subst hxa
        have hx : Memory.read m x = Memory.unlisted := Memory.read_of_lt _ _ hlt
        split <;> by_cases hy : y = x <;> simp_all [Memory.read]
      · rename_i hxa hne
        simp only [Memory.read, ih hm]
        by_cases hya : y = a
        · have : y ≠ x := by omega
          simp [hya]
          omega
        · simp [hya]

/-- Memory after reset is in its canonical form. -/
theorem Memory.reset_wf : Memory.wf State.reset.mem = true := rfl

/-- Placing bytes keeps the canonical form. -/
theorem State.placeBytes_wf (bytes : List Byte) (s : State) (k : Nat) (h : Memory.wf s.mem = true) :
    Memory.wf (s.placeBytes k bytes).mem = true := by
  induction bytes generalizing s k with
  | nil => exact h
  | cons b bs ih => exact ih _ _ (Memory.write_wf _ _ _ (s.byteAddr s.rip k).isLt h)

end Sys2Proof.Machine
end

