-- ==== Sys2Proof/Laws/PerInstr.lean ====
section
/-! SUPPORT. The statements made per instruction. `EncodeLength`: the encoder writes as many bytes as `Instr.length`
says (spec/30_encoding.md R51 step 6). -/

namespace Sys2Proof.Laws

def EncodeLength.Statement (i : Instr) : Prop := (encode i).length = i.length

theorem EncodeLength.paddbMmx (reg : BitVec 3) (rm : RmOp) :
    EncodeLength.Statement (.paddbMmx reg rm) := Shape.encode_length _

theorem EncodeLength.paddbMmxRex (rex : Rex) (reg : BitVec 3) (rm : RmOp) :
    EncodeLength.Statement (.paddbMmxRex rex reg rm) := Shape.encode_length _

theorem EncodeLength.paddbSse (reg : BitVec 3) (rm : RmOp) :
    EncodeLength.Statement (.paddbSse reg rm) := Shape.encode_length _

theorem EncodeLength.paddbSseRex (rex : Rex) (reg : BitVec 3) (rm : RmOp) :
    EncodeLength.Statement (.paddbSseRex rex reg rm) := Shape.encode_length _

theorem EncodeLength.paddwMmx (reg : BitVec 3) (rm : RmOp) :
    EncodeLength.Statement (.paddwMmx reg rm) := Shape.encode_length _

theorem EncodeLength.paddwMmxRex (rex : Rex) (reg : BitVec 3) (rm : RmOp) :
    EncodeLength.Statement (.paddwMmxRex rex reg rm) := Shape.encode_length _

theorem EncodeLength.paddwSse (reg : BitVec 3) (rm : RmOp) :
    EncodeLength.Statement (.paddwSse reg rm) := Shape.encode_length _

theorem EncodeLength.paddwSseRex (rex : Rex) (reg : BitVec 3) (rm : RmOp) :
    EncodeLength.Statement (.paddwSseRex rex reg rm) := Shape.encode_length _

theorem EncodeLength.padddMmx (reg : BitVec 3) (rm : RmOp) :
    EncodeLength.Statement (.padddMmx reg rm) := Shape.encode_length _

theorem EncodeLength.padddMmxRex (rex : Rex) (reg : BitVec 3) (rm : RmOp) :
    EncodeLength.Statement (.padddMmxRex rex reg rm) := Shape.encode_length _

theorem EncodeLength.padddSse (reg : BitVec 3) (rm : RmOp) :
    EncodeLength.Statement (.padddSse reg rm) := Shape.encode_length _

theorem EncodeLength.padddSseRex (rex : Rex) (reg : BitVec 3) (rm : RmOp) :
    EncodeLength.Statement (.padddSseRex rex reg rm) := Shape.encode_length _

theorem EncodeLength.vpaddb128C5 (r : Bool) (v : BitVec 4) (reg : BitVec 3) (rm : RmOp) :
    EncodeLength.Statement (.vpaddb128C5 r v reg rm) := Shape.encode_length _

theorem EncodeLength.vpaddb128C4 (x : Vex3) (v : BitVec 4) (reg : BitVec 3) (rm : RmOp) :
    EncodeLength.Statement (.vpaddb128C4 x v reg rm) := Shape.encode_length _

theorem EncodeLength.vpaddb256C5 (r : Bool) (v : BitVec 4) (reg : BitVec 3) (rm : RmOp) :
    EncodeLength.Statement (.vpaddb256C5 r v reg rm) := Shape.encode_length _

theorem EncodeLength.vpaddb256C4 (x : Vex3) (v : BitVec 4) (reg : BitVec 3) (rm : RmOp) :
    EncodeLength.Statement (.vpaddb256C4 x v reg rm) := Shape.encode_length _

theorem EncodeLength.vpaddw128C5 (r : Bool) (v : BitVec 4) (reg : BitVec 3) (rm : RmOp) :
    EncodeLength.Statement (.vpaddw128C5 r v reg rm) := Shape.encode_length _

theorem EncodeLength.vpaddw128C4 (x : Vex3) (v : BitVec 4) (reg : BitVec 3) (rm : RmOp) :
    EncodeLength.Statement (.vpaddw128C4 x v reg rm) := Shape.encode_length _

theorem EncodeLength.vpaddw256C5 (r : Bool) (v : BitVec 4) (reg : BitVec 3) (rm : RmOp) :
    EncodeLength.Statement (.vpaddw256C5 r v reg rm) := Shape.encode_length _

theorem EncodeLength.vpaddw256C4 (x : Vex3) (v : BitVec 4) (reg : BitVec 3) (rm : RmOp) :
    EncodeLength.Statement (.vpaddw256C4 x v reg rm) := Shape.encode_length _

theorem EncodeLength.vpaddd128C5 (r : Bool) (v : BitVec 4) (reg : BitVec 3) (rm : RmOp) :
    EncodeLength.Statement (.vpaddd128C5 r v reg rm) := Shape.encode_length _

theorem EncodeLength.vpaddd128C4 (x : Vex3) (v : BitVec 4) (reg : BitVec 3) (rm : RmOp) :
    EncodeLength.Statement (.vpaddd128C4 x v reg rm) := Shape.encode_length _

theorem EncodeLength.vpaddd256C5 (r : Bool) (v : BitVec 4) (reg : BitVec 3) (rm : RmOp) :
    EncodeLength.Statement (.vpaddd256C5 r v reg rm) := Shape.encode_length _

theorem EncodeLength.vpaddd256C4 (x : Vex3) (v : BitVec 4) (reg : BitVec 3) (rm : RmOp) :
    EncodeLength.Statement (.vpaddd256C4 x v reg rm) := Shape.encode_length _

end Sys2Proof.Laws
end

