-- ==== Sys2Proof/Laws/Platform.lean ====
section
/-! SUPPORT. The platform data (spec/20_memory.md R36): the list of regions can write every function of the kind, the
address and the length of an access that names a failing byte and its fault. -/

namespace Sys2Proof.Machine

/-- The span of one address covers that address and no other. -/
theorem covers_point (a b : Addr) : Span.covers ⟨a, a⟩ b = true ↔ b = a := by
  simp only [Span.covers, Bool.and_eq_true, decide_eq_true_eq]
  exact ⟨fun h => BitVec.le_antisymm h.2 h.1, fun h => h ▸ ⟨BitVec.le_refl b, BitVec.le_refl b⟩⟩

/-- The bytes of an access have different addresses. -/
theorem State.byteAddr_inj (s : State) (a : Addr) (j k : Nat) (hj : j < 2 ^ 32) (hk : k < 2 ^ 32)
    (h : s.byteAddr a j = s.byteAddr a k) : j = k := by
  have h := congrArg BitVec.toNat h
  have ha := a.isLt
  unfold State.byteAddr at h
  by_cases hm : s.cfg.mode = .mode64
  · rw [State.wrapAddr_mode64 _ _ hm, State.wrapAddr_mode64 _ _ hm] at h
    simp only [BitVec.toNat_add, BitVec.toNat_ofNat] at h
    omega
  · rw [State.wrapAddr_toNat _ _ hm, State.wrapAddr_toNat _ _ hm] at h
    simp only [BitVec.toNat_add, BitVec.toNat_ofNat] at h
    omega

/-- No region fails the byte exactly when none of them does. -/
theorem regionFault_none (kind : AccessKind) (a : Addr) (n : Nat) (b : Addr) (rs : List Region) :
    regionFault kind a n b rs = none ↔ ∀ r ∈ rs, Region.fails r kind a n b = false := by
  induction rs with
  | nil => simp [regionFault]
  | cons r rs ih =>
    unfold regionFault
    split <;> simp_all

/-- A byte that some region fails gets the fault on which all the regions that fail it agree. -/
theorem regionFault_some (kind : AccessKind) (a : Addr) (n : Nat) (b : Addr) (rs : List Region) (v : PlatFault)
    (hr : ∃ r ∈ rs, Region.fails r kind a n b = true)
    (hv : ∀ r ∈ rs, Region.fails r kind a n b = true → r.verdict = v) : regionFault kind a n b rs = some v := by
  induction rs with
  | nil => simp at hr
  | cons r rs ih =>
    unfold regionFault
    split
    · rename_i h
      rw [hv r (by simp) h]
    · rename_i h
      exact ih (by simpa [h] using hr) fun r' hr' => hv r' (by simp [hr'])

/-- The region of one access that fails one byte of it. -/
def pointRegion (kind : AccessKind) (a : Addr) (n : Nat) (b : Addr) (v : PlatFault) : Region :=
  { kind := kind, start := ⟨a, a⟩, minBytes := n, maxBytes := n, bytes := ⟨b, b⟩, verdict := v }

theorem pointRegion_fails (kind kind' : AccessKind) (a a' : Addr) (n n' : Nat) (b b' : Addr) (v : PlatFault) :
    Region.fails (pointRegion kind a n b v) kind' a' n' b' = true ↔ kind = kind' ∧ a' = a ∧ n' = n ∧ b' = b := by
  simp only [Region.fails, pointRegion, Bool.and_eq_true, covers_point]
  exact ⟨fun ⟨⟨⟨⟨h1, h2⟩, h3⟩, h4⟩, h5⟩ =>
      ⟨of_decide_eq_true h1, h2, le_antisymm (of_decide_eq_true h4) (of_decide_eq_true h3), h5⟩,
    fun ⟨h1, h2, h3, h4⟩ => ⟨⟨⟨⟨decide_eq_true h1, h2⟩, decide_eq_true h3.ge⟩, decide_eq_true h3.le⟩, h4⟩⟩

/-- Every list of addresses, kinds and lengths can be gone through: the regions that write `f` on the accesses of at most
32 bytes. -/
theorem exists_regions (f : AccessKind → Addr → Nat → Option (Nat × PlatFault)) (at' : Addr → Nat → Addr) :
    ∃ rs : List Region, ∀ r, r ∈ rs ↔
      ∃ kind a n k v, n < 33 ∧ f kind a n = some (k, v) ∧ r = pointRegion kind a n (at' a k) v := by
  refine ⟨[AccessKind.read, AccessKind.fetch].flatMap fun kind =>
    (List.ofFn fun i : Fin (2 ^ 64) => BitVec.ofFin i).flatMap fun a =>
      (List.range 33).flatMap fun n =>
        (f kind a n).toList.map fun p => pointRegion kind a n (at' a p.1) p.2, fun r => ?_⟩
  simp only [List.mem_flatMap, List.mem_map, List.mem_range, Option.mem_toList, Prod.exists]
  constructor
  · rintro ⟨kind, -, a, -, n, hn, k, v, hf, rfl⟩
    exact ⟨kind, a, n, k, v, hn, hf, rfl⟩
  · rintro ⟨kind, a, n, k, v, hn, hf, rfl⟩
    exact ⟨kind, by cases kind <;> simp, a, List.mem_ofFn.2 ⟨a.toFin, rfl⟩, n, hn, k, v, hf, rfl⟩

/-- Every platform function of the kind, the address and the length of an access (up to 32 bytes) is some platform's: `f`
answers the place of the first failing byte and its fault, or none (spec/20_memory.md R36). -/
theorem State.exists_plat_access (s : State) (f : AccessKind → Addr → Nat → Option (Nat × PlatFault))
    (hf : ∀ kind a n k v, f kind a n = some (k, v) → k < n) :
    ∃ p : Plat, ∀ kind a n, n ≤ 32 →
      State.access { s with cfg := { s.cfg with plat := p } } kind a n =
        (f kind a n).map fun kv => raise (PlatFault.toFault kv.2 (s.byteAddr a kv.1)) s := by
  obtain ⟨rs, hrs⟩ := exists_regions f s.byteAddr
  refine ⟨{ regions := rs, devices := [], beyondTop := none }, fun kind a n hn => ?_⟩
  have hbyte : ∀ k, State.byteFault
      { s with cfg := { s.cfg with plat := { regions := rs, devices := [], beyondTop := none } } } kind a n k =
      regionFault kind a n (s.byteAddr a k) rs := fun k => if_neg (by simp)
  cases h : f kind a n with
  | none =>
    refine (State.access_none _ _ _ _).2 fun k _ => ?_
    rw [hbyte, regionFault_none]
    intro r hr
    obtain ⟨kind', a', n', k', v', -, hf', rfl⟩ := (hrs r).1 hr
    refine Bool.eq_false_iff.2 fun hc => ?_
    obtain ⟨rfl, rfl, rfl, -⟩ := (pointRegion_fails _ _ _ _ _ _ _ _ _).1 hc
    simp [h] at hf'
  | some kv =>
    obtain ⟨k, v⟩ := kv
    have hk := hf _ _ _ _ _ h
    refine (State.access_some _ _ _ _ _).2 ⟨k, v, hk, ?_, fun j hj => ?_, rfl⟩
    · rw [hbyte]
      refine regionFault_some _ _ _ _ _ _ ?_ fun r hr hc => ?_
      · exact ⟨_, (hrs _).2 ⟨kind, a, n, k, v, by omega, h, rfl⟩,
          (pointRegion_fails _ _ _ _ _ _ _ _ _).2 ⟨rfl, rfl, rfl, rfl⟩⟩
      · obtain ⟨kind', a', n', k', v', -, hf', rfl⟩ := (hrs r).1 hr
        obtain ⟨rfl, rfl, rfl, -⟩ := (pointRegion_fails _ _ _ _ _ _ _ _ _).1 hc
        rw [h] at hf'
        cases hf'
        rfl
    · rw [hbyte, regionFault_none]
      intro r hr
      obtain ⟨kind', a', n', k', v', -, hf', rfl⟩ := (hrs r).1 hr
      refine Bool.eq_false_iff.2 fun hc => ?_
      obtain ⟨rfl, rfl, rfl, hb⟩ := (pointRegion_fails _ _ _ _ _ _ _ _ _).1 hc
      rw [h] at hf'
      cases hf'
      have := State.byteAddr_inj s _ j k (by omega) (by omega) hb
      omega

end Sys2Proof.Machine
end

