-- ==== Sys2Proof/Laws/Run.lean ====
section
/-! SUPPORT. Runs and the steps they take, and what the fetch and the launch check depend on, so that a statement carried
along a run need not unfold them. -/

namespace Sys2Proof.Machine

/-- A run standing at the end address is done, however many steps it is allowed (spec/70_reset_and_hazards.md R173). -/
theorem run_at_end (n : Nat) (s : State) : run s.rip n s = .done s := by
  cases n <;> simp [run]

/-- A run elsewhere takes a step and goes on with the state it gives. -/
theorem run_step {endAddr : Addr} {s u : State} (n : Nat) (h : s.rip ≠ endAddr) (hs : step s = .next u) :
    run endAddr (n + 1) s = run endAddr n u := by
  simp only [run, h, hs, if_false]

/-- A run allowed `n + m` steps is the run allowed `n` steps, carried on for `m` where it is still on its way. -/
theorem run_add (endAddr : Addr) (n m : Nat) (s : State) :
    run endAddr (n + m) s =
      match run endAddr n s with
      | .running t => run endAddr m t
      | r => r := by
  induction n generalizing s with
  | zero =>
    by_cases h : s.rip = endAddr
    · subst h
      simp only [run_at_end]
    · simp only [Nat.zero_add, run, h, if_false]
  | succ n ih =>
    rw [Nat.succ_add]
    by_cases h : s.rip = endAddr
    · subst h
      simp only [run_at_end]
    · simp only [run, h, if_false]
      cases step s with
      | next t => exact ih t
      | fault f => rfl
      | refused r => rfl

/-- Steps one after another. -/
theorem StepsTo.append {endAddr : Addr} {j k : Nat} {s t u : State} (h : StepsTo endAddr j s t)
    (h' : StepsTo endAddr k t u) : StepsTo endAddr (j + k) s u := by
  induction j generalizing s with
  | zero => cases h; rwa [Nat.zero_add]
  | succ j ih =>
    obtain ⟨hne, v, hs, hv⟩ := h
    rw [Nat.succ_add]
    exact ⟨hne, v, hs, ih hv⟩

/-- The launch check looks at the launch configuration and EFLAGS only. -/
theorem launchRefusal_congr {s t : State} (hc : t.cfg = s.cfg) (hf : t.eflags = s.eflags) :
    launchRefusal t = launchRefusal s := by
  cases s; cases t; cases hc; cases hf; rfl

/-- What the platform says of a byte of an access depends on the launch configuration only. -/
theorem State.byteFault_congr {s t : State} (hc : t.cfg = s.cfg) (kind : AccessKind) (a : Addr) (n k : Nat) :
    t.byteFault kind a n k = s.byteFault kind a n k := by
  cases s; cases t; cases hc; rfl

/-- Byte `k` of what begins at byte `j` is byte `j + k` (spec/20_memory.md R30). -/
theorem State.byteAddr_add (s : State) (a : Addr) (j k : Nat) : s.byteAddr (s.byteAddr a j) k = s.byteAddr a (j + k) := by
  unfold State.byteAddr State.wrapAddr
  split <;> (apply BitVec.eq_of_toNat_eq; simp; omega)

end Sys2Proof.Machine
end

