-- ==== Sys2Proof/Tests/Slice0.lean ====
section
/-! SUPPORT. Tests on fixed values. Expected results come from spec/95_test_vectors.md (the vector's number stands in the
test's name or comment) or, where a comment says so, are worked out by hand from the rules; none is the model's own answer
read back. Below them, for every statement of Certificates/Slice0/Obligations.lean that has hypotheses, a `witness_`
theorem shows operands and a state that meet them together. -/

namespace Sys2Proof.Tests

open Sys2Proof Sys2Proof.Machine

/-! ### The start states of spec/95_test_vectors.md ("Conventions") -/

def openEnv : Env :=
  { cr0Em := false, cr0Ts := false, cr4Osfxsr := true, cr4Osxsave := true,
    xcr0Sse := true, xcr0Avx := true, x87Pending := false, acCheck := false }

def openPlat : Plat := { regions := [], devices := [], beyondTop := none }

/-- `MODE64`, every feature, every enabling bit, a platform that admits everything, `RIP` 0x1000. -/
def idle : State :=
  { State.reset with
    rip := 0x1000
    cfg :=
      { mode := .mode64
        features := { mmx := true, sse2 := true, avx := true, avx2 := true }
        env := openEnv
        plat := openPlat
        debugArmed := false } }

/-- The same in `MODE32`. -/
def idle32 : State := { idle with cfg := { idle.cfg with mode := .mode32 } }

def setMm (i : BitVec 3) (v : Mm) (s : State) : State := { s with mm := s.mm.set i.toNat v i.isLt }
def setYmm (i : BitVec 4) (v : Ymm) (s : State) : State := { s with ymm := s.ymm.set i.toNat v i.isLt }
def setGpr (i : BitVec 4) (v : BitVec 64) (s : State) : State := { s with gpr := s.gpr.set i.toNat v i.isLt }
def setEnv (e : Env) (s : State) : State := { s with cfg := { s.cfg with env := e } }
def setPlat (p : Plat) (s : State) : State := { s with cfg := { s.cfg with plat := p } }
def setFeatures (f : Features) (s : State) : State := { s with cfg := { s.cfg with features := f } }

/-- Bytes stored from an address on. -/
def poke (a : Nat) (bytes : List Byte) (s : State) : State :=
  match bytes with
  | [] => s
  | b :: bs => poke (a + 1) bs { s with mem := Memory.write s.mem a b }

/-- The instruction of a test, at 0x1000. -/
def code (bytes : List Byte) (s : State) : State := poke 0x1000 bytes s

/-- A view of the state after a step, none when the step stops. -/
def after {α : Type} (o : Host.Outcome State Fault Refusal) (view : State → α) : Option α :=
  match o with
  | .next t => some (view t)
  | .fault _ => none
  | .refused _ => none

/-! ### WellFormed: an ill-formed term for each check -/

theorem test_wf_base_rm4 : RmOp.wf (.mem (.base 4)) = false := by decide
theorem test_wf_base_rm5 : RmOp.wf (.mem (.base 5)) = false := by decide
theorem test_wf_disp8_rm4 : RmOp.wf (.mem (.baseDisp8 4 0)) = false := by decide
theorem test_wf_disp32_rm4 : RmOp.wf (.mem (.baseDisp32 4 0)) = false := by decide
theorem test_wf_sib_base5 : RmOp.wf (.mem (.sib 0 0 5)) = false := by decide
theorem test_wf_operand_refused : (Instr.paddbMmx 0 (.mem (.base 4))).wf .mode64 = false := by decide
theorem test_wf_mode_refused : (Instr.paddwSse 0 (.reg 0)).wf .virtual8086 = false := by decide
theorem test_wf_rex_needs_mode64 :
    (Instr.padddMmxRex ⟨false, false, false, false⟩ 0 (.reg 0)).wf .mode32 = false := by decide
theorem test_wf_vex_r_needs_mode64 : (Instr.vpaddb128C5 true 0 0 (.reg 0)).wf .mode32 = false := by decide
theorem test_wf_vex_v_needs_mode64 : (Instr.vpaddw256C5 false 8 0 (.reg 0)).wf .mode32 = false := by decide
theorem test_wf_vex_x_needs_mode64 :
    (Instr.vpaddd128C4 ⟨false, true, false, false⟩ 0 0 (.reg 0)).wf .mode32 = false := by decide
theorem test_wf_vex_b_needs_mode64 :
    (Instr.vpaddd256C4 ⟨false, false, true, false⟩ 0 0 (.reg 0)).wf .mode32 = false := by decide
theorem test_wf_accepts :
    (Instr.vpaddb256C4 ⟨true, true, true, true⟩ 15 7 (.mem (.sibDisp32 3 4 5 0))).wf .mode64 = true := by decide

/-! ### Decoding: one word for each constructor, its bytes written out from spec/30_encoding.md R71 to R73 -/

/-- The legacy rows 1 to 6 of R73 with ModRM `D1` = 11 010 001: reg 2, rm 1. -/
theorem test_decode_legacy :
    decode .mode64 [0x0F, 0xFC, 0xD1] = .instr (.paddbMmx 2 (.reg 1)) ∧
    decode .mode64 [0x0F, 0xFD, 0xD1] = .instr (.paddwMmx 2 (.reg 1)) ∧
    decode .mode64 [0x0F, 0xFE, 0xD1] = .instr (.padddMmx 2 (.reg 1)) ∧
    decode .mode32 [0x66, 0x0F, 0xFC, 0xD1] = .instr (.paddbSse 2 (.reg 1)) ∧
    decode .mode32 [0x66, 0x0F, 0xFD, 0xD1] = .instr (.paddwSse 2 (.reg 1)) ∧
    decode .mode32 [0x66, 0x0F, 0xFE, 0xD1] = .instr (.padddSse 2 (.reg 1)) := by decide

/-- The same rows with a REX byte `0100WRXB` (R55): `4C` = W 1, R 1, X 0, B 0; `43` = W 0, R 0, X 1, B 1. -/
theorem test_decode_rex :
    decode .mode64 [0x4C, 0x0F, 0xFC, 0xD1] = .instr (.paddbMmxRex ⟨true, true, false, false⟩ 2 (.reg 1)) ∧
    decode .mode64 [0x43, 0x0F, 0xFD, 0xD1] = .instr (.paddwMmxRex ⟨false, false, true, true⟩ 2 (.reg 1)) ∧
    decode .mode64 [0x44, 0x0F, 0xFE, 0xD1] = .instr (.padddMmxRex ⟨false, true, false, false⟩ 2 (.reg 1)) ∧
    decode .mode64 [0x66, 0x43, 0x0F, 0xFC, 0xD1] = .instr (.paddbSseRex ⟨false, false, true, true⟩ 2 (.reg 1)) ∧
    decode .mode64 [0x66, 0x4C, 0x0F, 0xFD, 0xD1] = .instr (.paddwSseRex ⟨true, true, false, false⟩ 2 (.reg 1)) ∧
    decode .mode64 [0x66, 0x41, 0x0F, 0xFE, 0xD1] = .instr (.padddSseRex ⟨false, false, false, true⟩ 2 (.reg 1)) := by
  decide

/-- Two-byte VEX (R56, R72), `R' vvvv' L pp`: `E9` = 1 1101 0 01, so R 0, v 2, L 0; `31` = 0 0110 0 01, so R 1, v 9, L 0;
`81` = 1 0000 0 01, so v 15; `ED` = 1 1101 1 01, so L 1; `F5` = 1 1110 1 01, so v 1, L 1; `7D` = 0 1111 1 01, so R 1, v 0. -/
theorem test_decode_vex2 :
    decode .mode64 [0xC5, 0xE9, 0xFC, 0xCB] = .instr (.vpaddb128C5 false 2 1 (.reg 3)) ∧
    decode .mode64 [0xC5, 0x31, 0xFD, 0xC1] = .instr (.vpaddw128C5 true 9 0 (.reg 1)) ∧
    decode .mode64 [0xC5, 0x81, 0xFE, 0xC7] = .instr (.vpaddd128C5 false 15 0 (.reg 7)) ∧
    decode .mode64 [0xC5, 0xED, 0xFC, 0xCB] = .instr (.vpaddb256C5 false 2 1 (.reg 3)) ∧
    decode .mode32 [0xC5, 0xF5, 0xFD, 0x07] = .instr (.vpaddw256C5 false 1 0 (.mem (.base 7))) ∧
    decode .mode64 [0xC5, 0x7D, 0xFE, 0x07] = .instr (.vpaddd256C5 true 0 0 (.mem (.base 7))) := by decide

/-- Three-byte VEX (R56, R72), `R' X' B' mmmmm` then `W vvvv' L pp`: `E1 69` = 111 00001, 0 1101 0 01; `41 35` = 010 00001,
0 0110 1 01; `41 B5` the same with W 1; `A1 D1` = 101 00001, 1 1010 0 01; `01 05` = 000 00001, 0 0000 1 01. -/
theorem test_decode_vex3 :
    decode .mode64 [0xC4, 0xE1, 0x69, 0xFC, 0xCB] = .instr (.vpaddb128C4 ⟨false, false, false, false⟩ 2 1 (.reg 3)) ∧
    decode .mode64 [0xC4, 0xA1, 0xD1, 0xFD, 0x04, 0x8B] =
      .instr (.vpaddw128C4 ⟨false, true, false, true⟩ 5 0 (.mem (.sib 2 1 3))) ∧
    decode .mode32 [0xC4, 0xC1, 0x29, 0xFE, 0xCB] = .instr (.vpaddd128C4 ⟨false, false, false, false⟩ 2 1 (.reg 3)) ∧
    decode .mode64 [0xC4, 0x01, 0x05, 0xFC, 0xCB] = .instr (.vpaddb256C4 ⟨true, true, true, false⟩ 15 1 (.reg 3)) ∧
    decode .mode64 [0xC4, 0x41, 0x35, 0xFD, 0xC2] = .instr (.vpaddw256C4 ⟨true, false, true, false⟩ 9 0 (.reg 2)) ∧
    decode .mode64 [0xC4, 0x41, 0xB5, 0xFE, 0xC2] = .instr (.vpaddd256C4 ⟨true, false, true, true⟩ 9 0 (.reg 2)) := by
  decide

/-- The rows of R66 and R67, one word each: ModRM and SIB bytes of section 6 of the test vectors. -/
theorem test_decode_operands :
    decode .mode64 [0x0F, 0xFC, 0x07] = .instr (.paddbMmx 0 (.mem (.base 7))) ∧
    decode .mode64 [0x66, 0x0F, 0xFE, 0x05, 0xF8, 0x0F, 0x00, 0x80] =
      .instr (.padddSse 0 (.mem (.disp32 0x80000FF8))) ∧
    decode .mode64 [0x0F, 0xFE, 0x40, 0xF8] = .instr (.padddMmx 0 (.mem (.baseDisp8 0 0xF8))) ∧
    decode .mode64 [0xC5, 0xFD, 0xFE, 0x80, 0x00, 0x01, 0x00, 0x00] =
      .instr (.vpaddd256C5 false 0 0 (.mem (.baseDisp32 0 0x100))) ∧
    decode .mode64 [0x0F, 0xFD, 0x04, 0x8B] = .instr (.paddwMmx 0 (.mem (.sib 2 1 3))) ∧
    decode .mode64 [0x0F, 0xFC, 0x04, 0x25, 0x00, 0x60, 0x00, 0x00] =
      .instr (.paddbMmx 0 (.mem (.sibNoBase 0 4 0x6000))) ∧
    decode .mode64 [0x0F, 0xFC, 0x5C, 0xE5, 0xFF] = .instr (.paddbMmx 3 (.mem (.sibDisp8 3 4 5 0xFF))) ∧
    decode .mode64 [0x0F, 0xFC, 0x9C, 0x24, 0x01, 0x02, 0x03, 0x04] =
      .instr (.paddbMmx 3 (.mem (.sibDisp32 0 4 4 0x04030201))) := by decide

/-- Vectors 6.18 to 6.25: prefixes that make `UD`. -/
theorem test_decode_ud :
    decode .mode64 [0xF0, 0x0F, 0xFC, 0xC1] = .ud ∧ decode .mode64 [0xF0, 0x66, 0x0F, 0xFC, 0xCA] = .ud ∧
    decode .mode64 [0xF0, 0xC5, 0xE9, 0xFC, 0xCB] = .ud ∧ decode .mode64 [0x66, 0xC5, 0xE9, 0xFC, 0xCB] = .ud ∧
    decode .mode64 [0xF3, 0xC5, 0xE9, 0xFC, 0xCB] = .ud ∧ decode .mode64 [0x48, 0xC5, 0xE9, 0xFC, 0xCB] = .ud ∧
    decode .mode64 [0xF0, 0x66, 0x66, 0x0F, 0xFC, 0xC1] = .ud := by decide

/-- Vectors 6.23 to 6.27: `Refused(Prefix)`. -/
theorem test_decode_bad_prefixes :
    decode .mode64 [0xF3, 0x0F, 0xFC, 0xC1] = .refused .badPrefixes ∧
    decode .mode64 [0xF2, 0x0F, 0xFE, 0xC1] = .refused .badPrefixes ∧
    decode .mode64 [0x66, 0x66, 0x0F, 0xFC, 0xCA] = .refused .badPrefixes ∧
    decode .mode64 [0xF0, 0x67, 0x0F, 0xFC, 0x00] = .refused .badPrefixes ∧
    decode .mode64 [0x65, 0x66, 0x0F, 0xFE, 0x00] = .refused .badPrefixes ∧
    decode .mode64 [0x67, 0xC5, 0xE9, 0xFC, 0x00] = .refused .badPrefixes := by decide

/-- Vectors 6.13, 6.15, 6.28 to 6.32: `Refused(OutOfScope)`. -/
theorem test_decode_out_of_scope :
    decode .mode32 [0x44, 0x0F, 0xFC, 0xC8] = .refused .outOfScope ∧
    decode .mode32 [0xC5, 0x69, 0x00] = .refused .outOfScope ∧
    decode .mode64 [0x66, 0x0F, 0xD4, 0xC1] = .refused .outOfScope ∧
    decode .mode64 [0x0F, 0xFF, 0xC1] = .refused .outOfScope ∧
    decode .mode64 [0xC5, 0xE8, 0xFC, 0xCB] = .refused .outOfScope ∧
    decode .mode64 [0xC4, 0xE2, 0x69, 0xFC, 0xCB] = .refused .outOfScope ∧
    decode .mode64 [0xC5, 0xE9, 0xD4, 0xCB] = .refused .outOfScope ∧
    decode .mode64 [0x48, 0x90] = .refused .outOfScope := by decide

/-- The words of the opcode table's `match` column, rows 1, 4 and the last, and the words' encodings. -/
theorem test_table_words :
    decodeTableWord 24 0x0FFC00 = some (.paddbMmx 0 (.mem (.base 0))) ∧
    decodeTableWord 40 0x66400FFC00 = some (.paddbSseRex ⟨false, false, false, false⟩ 0 (.mem (.base 0))) ∧
    decodeTableWord 40 0xC40105FEC0 = some (.vpaddd256C4 ⟨true, true, true, false⟩ 15 0 (.reg 0)) ∧
    encode (.vpaddd256C4 ⟨true, true, true, false⟩ 15 0 (.reg 0)) = [0xC4, 0x01, 0x05, 0xFE, 0xC0] ∧
    encode (.paddbSseRex ⟨false, true, false, true⟩ 0 (.reg 1)) = [0x66, 0x45, 0x0F, 0xFC, 0xC1] := by decide

/-- The host's interface runs the word's instruction as the first after reset. -/
theorem test_fetch_word :
    after (step (State.reset.withFetchWord 24 0x0FFCC1)) (fun t => (t.rip, t.x87.exp[0])) =
      some (0xFFFFFFF3, 0xFFFF) := by decide

/-! ### The lane function (spec/95_test_vectors.md section 2) -/

theorem test_padd_64 :
    padd 8 64 0xFF01807F0010FE02 0x01FF800100F003FE = 0x0000008000000100 ∧
    padd 16 64 0xFF01807F0010FE02 0x01FF800100F003FE = 0x0100008001000200 ∧
    padd 32 64 0xFF01807F0010FE02 0x01FF800100F003FE = 0x0101008001010200 := by decide

/-- No carry crosses from bit 127 to bit 128. -/
theorem test_padd_256_halves :
    padd 8 256 0x00000000000000000000000000000001FFFFFFFFFFFFFFFFFFFFFFFFFFFFFFFF
        0xFFFFFFFFFFFFFFFFFFFFFFFFFFFFFFFF00000000000000000000000000000001 =
      0xFFFFFFFFFFFFFFFFFFFFFFFFFFFFFF00FFFFFFFFFFFFFFFFFFFFFFFFFFFFFF00 := by decide

/-! ### MMX forms (section 3; 6.4, 6.9) -/

/-- The start state of 3.1 to 3.3. -/
def mmxStart : State :=
  { setMm 0 0xFF01807F0010FE02 (setMm 1 0x01FF800100F003FE idle) with
    x87 := { top := 5, tag := Vector.replicate 8 3, exp := Vector.replicate 8 0 } }

/-- What 3.1 to 3.3 look at. -/
def mmxView (t : State) : (Mm × Mm) × (BitVec 3 × BitVec 2 × BitVec 16 × BitVec 16) × Addr :=
  ((t.readMm 0, t.readMm 1), (t.x87.top, t.x87.tag[7], t.x87.exp[0], t.x87.exp[1]), t.rip)

theorem test_paddb_mmx_3_1 : after (step (code [0x0F, 0xFC, 0xC1] mmxStart)) mmxView =
    some ((0x0000008000000100, 0x01FF800100F003FE), (0, 0, 0xFFFF, 0), 0x1003) := by decide
theorem test_paddw_mmx_3_2 : after (step (code [0x0F, 0xFD, 0xC1] mmxStart)) mmxView =
    some ((0x0100008001000200, 0x01FF800100F003FE), (0, 0, 0xFFFF, 0), 0x1003) := by decide
theorem test_paddd_mmx_3_3 : after (step (code [0x0F, 0xFE, 0xC1] mmxStart)) mmxView =
    some ((0x0101008001010200, 0x01FF800100F003FE), (0, 0, 0xFFFF, 0), 0x1003) := by decide

/-- The start state of 3.7 to 3.9. -/
def mmxMem : State :=
  poke 0x2008 [0xFF, 0xFF, 0x01, 0x00, 0x00, 0x80, 0xFF, 0x7F] (setGpr 3 0x2000 (setMm 2 0x0102030405060708 idle))

theorem test_paddb_mmx_3_7 :
    after (step (code [0x0F, 0xFC, 0x53, 0x08] mmxMem)) (fun t => (t.readMm 2, t.rip)) =
      some (0x8001830405070607, 0x1004) := by decide
theorem test_paddw_mmx_3_8 :
    after (step (code [0x0F, 0xFD, 0x53, 0x08] mmxMem)) (fun t => (t.readMm 2, t.rip)) =
      some (0x8101830405070707, 0x1004) := by decide
theorem test_paddd_mmx_3_9 :
    after (step (code [0x0F, 0xFE, 0x53, 0x08] mmxMem)) (fun t => (t.readMm 2, t.rip)) =
      some (0x8101830405080707, 0x1004) := by decide

/-- 3.10 and 3.11: REX.R and REX.B do not extend an MMX register number. -/
theorem test_paddb_mmx_rex_3_10 :
    after (step (code [0x44, 0x0F, 0xFC, 0xC8] (setMm 0 0x0101010101010101 (setMm 1 0x1111111111111111 idle))))
      (fun t => (t.readMm 1, t.rip)) = some (0x1212121212121212, 0x1004) := by decide
/-- 6.4 with a REX byte `40` that changes nothing. -/
theorem test_paddw_mmx_rex :
    after (step (code [0x40, 0x0F, 0xFD, 0x04, 0x8B]
      (poke 0x500C [0x01, 0x00, 0xFF, 0xFF, 0x00, 0x80, 0x00, 0x80]
        (setMm 0 0x0001000100010001 (setGpr 3 0x5000 (setGpr 1 3 idle))))))
      (fun t => (t.readMm 0, t.rip)) = some (0x8001800100000002, 0x1005) := by decide
/-- 6.9 with REX.B, so that the base is R8 instead of RAX. -/
theorem test_paddd_mmx_rex :
    after (step (code [0x41, 0x0F, 0xFE, 0x40, 0xF8]
      (poke 0x8000 [0xFF, 0xFF, 0xFF, 0xFF, 0x01] (setMm 0 1 (setGpr 8 0x8008 idle)))))
      (fun t => (t.readMm 0, t.rip)) = some (0x0000000100000000, 0x1005) := by decide

/-! ### SSE2 forms (section 4; 6.2, 6.7, 6.11, 6.12) -/

/-- The start state of 4.1 to 4.3. -/
def sseStart : State :=
  setYmm 1 0xDEADBEEFDEADBEEFDEADBEEFDEADBEEF7FFFFFFF80000000FFFFFFFF00000001
    (setYmm 2 0x000000000000000000000000000000550000000180000000000000010000FFFF idle)

theorem test_paddb_sse_4_1 : after (step (code [0x66, 0x0F, 0xFC, 0xCA] sseStart)) (fun t => (t.readYmm 1, t.rip)) =
    some (0xDEADBEEFDEADBEEFDEADBEEFDEADBEEF7FFFFF0000000000FFFFFF000000FF00, 0x1004) := by decide
theorem test_paddw_sse_4_2 : after (step (code [0x66, 0x0F, 0xFD, 0xCA] sseStart)) (fun t => (t.readYmm 1, t.rip)) =
    some (0xDEADBEEFDEADBEEFDEADBEEFDEADBEEF7FFF000000000000FFFF000000000000, 0x1004) := by decide
theorem test_paddd_sse_4_3 : after (step (code [0x66, 0x0F, 0xFE, 0xCA] sseStart)) (fun t => (t.readYmm 1, t.rip)) =
    some (0xDEADBEEFDEADBEEFDEADBEEFDEADBEEF80000000000000000000000000010000, 0x1004) := by decide

/-- The start state of 4.4 to 4.6. -/
def sseMem : State :=
  poke 0x3000 [0x01, 0, 0, 0, 0x02, 0, 0, 0, 0xFF, 0xFF, 0xFF, 0xFF, 0, 0, 0, 0x80]
    (setGpr 0 0x3000 (setYmm 0 0x00000001000000020000000300000004 idle))

theorem test_paddb_sse_4_4 : after (step (code [0x66, 0x0F, 0xFC, 0x00] sseMem)) (fun t => (t.readXmm 0, t.rip)) =
    some (0x80000001FFFFFF010000000500000005, 0x1004) := by decide
theorem test_paddw_sse_4_5 : after (step (code [0x66, 0x0F, 0xFD, 0x00] sseMem)) (fun t => (t.readXmm 0, t.rip)) =
    some (0x80000001FFFF00010000000500000005, 0x1004) := by decide
/-- 6.12: in `MODE32` a displacement alone is an absolute address. -/
theorem test_paddd_sse_6_12 :
    after (step (code [0x66, 0x0F, 0xFE, 0x05, 0x00, 0x30, 0x00, 0x00] (poke 0x3000 [0x05] (setYmm 0 2 idle32))))
      (fun t => (t.readXmm 0, t.rip)) = some (7, 0x1008) := by decide

theorem test_paddb_sse_rex_4_7 :
    after (step (code [0x66, 0x45, 0x0F, 0xFC, 0xC1]
      (setYmm 8 0x000000000000000000000000000000AB00000000000000000000000000000102 (setYmm 9 0xFFFF idle))))
      (fun t => (t.readYmm 8, t.rip)) =
      some (0x000000000000000000000000000000AB00000000000000000000000000000001, 0x1005) := by decide
/-- 4.7 with word lanes, by hand: 0x0102 + 0xFFFF = 0x0101 modulo 2^16. -/
theorem test_paddw_sse_rex :
    after (step (code [0x66, 0x45, 0x0F, 0xFD, 0xC1] (setYmm 8 0x0102 (setYmm 9 0xFFFF idle))))
      (fun t => (t.readYmm 8, t.rip)) = some (0x0101, 0x1005) := by decide
/-- 6.2: REX.B does not change the RIP-relative case. -/
theorem test_paddd_sse_rex_6_2 :
    after (step (code [0x66, 0x41, 0x0F, 0xFE, 0x05, 0xF7, 0x0F, 0x00, 0x00] (poke 0x2000 [0x05] (setYmm 0 1 idle))))
      (fun t => (t.readXmm 0, t.rip)) = some (6, 0x1009) := by decide
/-- 6.7: REX.X makes SIB index 4 the register R12. -/
theorem test_paddd_sse_rex_6_7 :
    after (step (code [0x66, 0x42, 0x0F, 0xFE, 0x04, 0xA0]
      (poke 0x7010 [1, 0, 0, 0, 2, 0, 0, 0, 3, 0, 0, 0, 4] (setGpr 0 0x7000 (setGpr 12 4 idle)))))
      (fun t => (t.readXmm 0, t.rip)) = some (0x00000004000000030000000200000001, 0x1006) := by decide

/-! ### VEX forms (section 5; 6.3, 6.10, 6.16, 6.17) -/

/-- The start state of 5.1 to 5.3. -/
def vexStart : State :=
  setYmm 2 0xDEADBEEFDEADBEEFDEADBEEFDEADBEEF7FFFFFFF80000000FFFFFFFF00000001
    (setYmm 3 0xDEADBEEFDEADBEEFDEADBEEFDEADBEEF0000000180000000000000010000FFFF
      (setYmm 1 0xDEADBEEFDEADBEEFDEADBEEFDEADBEEFDEADBEEFDEADBEEFDEADBEEFDEADBEEF idle))

theorem test_vpaddb_128_5_1 : after (step (code [0xC5, 0xE9, 0xFC, 0xCB] vexStart)) (fun t => (t.readYmm 1, t.rip)) =
    some (0x7FFFFF0000000000FFFFFF000000FF00, 0x1004) := by decide
theorem test_vpaddw_128_5_2 : after (step (code [0xC5, 0xE9, 0xFD, 0xCB] vexStart)) (fun t => (t.readYmm 1, t.rip)) =
    some (0x7FFF000000000000FFFF000000000000, 0x1004) := by decide
theorem test_vpaddd_128_5_3 : after (step (code [0xC5, 0xE9, 0xFE, 0xCB] vexStart)) (fun t => (t.readYmm 1, t.rip)) =
    some (0x80000000000000000000000000010000, 0x1004) := by decide
/-- The three-byte spellings of 5.1 to 5.3. -/
theorem test_vpaddb_128_c4 :
    after (step (code [0xC4, 0xE1, 0x69, 0xFC, 0xCB] vexStart)) (fun t => (t.readYmm 1, t.rip)) =
      some (0x7FFFFF0000000000FFFFFF000000FF00, 0x1005) := by decide
theorem test_vpaddw_128_c4 :
    after (step (code [0xC4, 0xE1, 0x69, 0xFD, 0xCB] vexStart)) (fun t => (t.readYmm 1, t.rip)) =
      some (0x7FFF000000000000FFFF000000000000, 0x1005) := by decide
theorem test_vpaddd_128_c4 :
    after (step (code [0xC4, 0xE1, 0x69, 0xFE, 0xCB] vexStart)) (fun t => (t.readYmm 1, t.rip)) =
      some (0x80000000000000000000000000010000, 0x1005) := by decide
/-- 6.3: RIP-relative with a negative displacement, the operand being the instruction's own bytes. -/
theorem test_vpaddb_128_6_3 :
    after (step (code [0xC5, 0xF9, 0xFC, 0x05, 0xF8, 0xFF, 0xFF, 0xFF,
        0x90, 0x90, 0x90, 0x90, 0x90, 0x90, 0x90, 0x90] idle)) (fun t => (t.readYmm 0, t.rip)) =
      some (0x9090909090909090FFFFFFF805FCF9C5, 0x1008) := by decide
/-- 6.16 and 6.17: the same bytes name registers 10 and 11 in `MODE64`, 2 and 3 in `MODE32`. -/
theorem test_vpaddb_128_6_16 :
    after (step (code [0xC4, 0xC1, 0x29, 0xFC, 0xCB] (setYmm 2 1 (setYmm 3 2 idle32)))) (fun t => (t.readYmm 1, t.rip)) =
      some (3, 0x1005) ∧
    after (step (code [0xC4, 0xC1, 0x29, 0xFC, 0xCB] (setYmm 10 1 (setYmm 11 2 idle)))) (fun t => (t.readYmm 1, t.rip)) =
      some (3, 0x1005) := by decide
/-- 5.8: no alignment requirement. -/
theorem test_vpaddd_128_5_8 :
    after (step (code [0xC5, 0xF9, 0xFE, 0x00] (poke 0x3008 [0xFF, 0xFF, 0xFF, 0xFF, 0, 0, 0, 0x80]
      (setGpr 0 0x3008 (setYmm 0 0x00000001000000020000000300000004 idle)))))
      (fun t => (t.readYmm 0, t.rip)) = some (0x00000001000000028000000300000003, 0x1004) := by decide

/-- The start state of 5.9 to 5.11. -/
def vex256Start : State :=
  setYmm 2 0x0123456789ABCDEF0123456789ABCDEF0123456789ABCDEF0123456789ABCDEF
    (setYmm 3 0xFEDCBA9876543211FEDCBA9876543211FEDCBA9876543211FEDCBA9876543211 idle)

theorem test_vpaddb_256_5_9 : after (step (code [0xC5, 0xED, 0xFC, 0xCB] vex256Start)) (fun t => (t.readYmm 1, t.rip)) =
    some (0xFFFFFFFFFFFFFF00FFFFFFFFFFFFFF00FFFFFFFFFFFFFF00FFFFFFFFFFFFFF00, 0x1004) := by decide
theorem test_vpaddw_256_5_10 : after (step (code [0xC5, 0xED, 0xFD, 0xCB] vex256Start)) (fun t => (t.readYmm 1, t.rip)) =
    some (0xFFFFFFFFFFFF0000FFFFFFFFFFFF0000FFFFFFFFFFFF0000FFFFFFFFFFFF0000, 0x1004) := by decide
theorem test_vpaddd_256_5_11 : after (step (code [0xC5, 0xED, 0xFE, 0xCB] vex256Start)) (fun t => (t.readYmm 1, t.rip)) =
    some (0xFFFFFFFF00000000FFFFFFFF00000000FFFFFFFF00000000FFFFFFFF00000000, 0x1004) := by decide

/-- The start state of 5.12 to 5.14: 32 bytes at an odd address. -/
def vex256Mem : State :=
  poke 0x4001 [0xF0, 0xF1, 0xF2, 0xF3, 0xF4, 0xF5, 0xF6, 0xF7, 0xF8, 0xF9, 0xFA, 0xFB, 0xFC, 0xFD, 0xFE, 0xFF,
    0xF0, 0xF1, 0xF2, 0xF3, 0xF4, 0xF5, 0xF6, 0xF7, 0xF8, 0xF9, 0xFA, 0xFB, 0xFC, 0xFD, 0xFE, 0xFF]
    (setGpr 7 0x4001 (setYmm 1 0x1F1E1D1C1B1A191817161514131211100F0E0D0C0B0A09080706050403020100 idle))

theorem test_vpaddb_256_5_12 : after (step (code [0xC5, 0xF5, 0xFC, 0x07] vex256Mem)) (fun t => (t.readYmm 0, t.rip)) =
    some (0x1E1C1A18161412100E0C0A08060402000E0C0A0806040200FEFCFAF8F6F4F2F0, 0x1004) := by decide
theorem test_vpaddw_256_5_13 : after (step (code [0xC5, 0xF5, 0xFD, 0x07] vex256Mem)) (fun t => (t.readYmm 0, t.rip)) =
    some (0x1F1C1B18171413100F0C0B08070403000F0C0B0807040300FEFCFAF8F6F4F2F0, 0x1004) := by decide
theorem test_vpaddd_256_5_14 : after (step (code [0xC5, 0xF5, 0xFE, 0x07] vex256Mem)) (fun t => (t.readYmm 0, t.rip)) =
    some (0x1F1D1B18171513100F0D0B08070503000F0D0B0807050300FEFCFAF8F6F4F2F0, 0x1004) := by decide
/-- 5.9 and 5.11 in the three-byte spelling `C4 E1 6D` (W 0, v 2, L 1). -/
theorem test_vpaddb_256_c4 :
    after (step (code [0xC4, 0xE1, 0x6D, 0xFC, 0xCB] vex256Start)) (fun t => (t.readYmm 1, t.rip)) =
      some (0xFFFFFFFFFFFFFF00FFFFFFFFFFFFFF00FFFFFFFFFFFFFF00FFFFFFFFFFFFFF00, 0x1005) := by decide
theorem test_vpaddd_256_c4 :
    after (step (code [0xC4, 0xE1, 0x6D, 0xFE, 0xCB] vex256Start)) (fun t => (t.readYmm 1, t.rip)) =
      some (0xFFFFFFFF00000000FFFFFFFF00000000FFFFFFFF00000000FFFFFFFF00000000, 0x1005) := by decide
/-- 5.15 and 5.16: extended registers, W ignored. -/
theorem test_vpaddw_256_5_15 :
    after (step (code [0xC4, 0x41, 0x35, 0xFD, 0xC2]
      (setYmm 9 0x0001000200030004000100020003000400010002000300040001000200030004
        (setYmm 10 0xFFFF000100020003FFFF000100020003FFFF000100020003FFFF000100020003 idle))))
      (fun t => (t.readYmm 8, t.rip)) =
      some (0x0000000300050007000000030005000700000003000500070000000300050007, 0x1005) := by decide

/-! ### Exceptions and refusals (section 7) -/

/-- M, S, V and W of section 7 in one start state. -/
def quartet (s : State) : List (Host.Outcome State Fault Refusal) :=
  [step (code [0x0F, 0xFC, 0xC1] s), step (code [0x66, 0x0F, 0xFC, 0xCA] s),
   step (code [0xC5, 0xE9, 0xFC, 0xCB] s), step (code [0xC5, 0xED, 0xFC, 0xCB] s)]

/-- The fault of a step, none when it runs or is refused. -/
def faultOf : Host.Outcome State Fault Refusal → Option Fault
  | .fault f => some f
  | .next _ => none
  | .refused _ => none

theorem test_7_3 : (quartet (setEnv { openEnv with cr0Em := true, cr0Ts := true } idle)).map faultOf =
    [some (.ud 0x1000), some (.ud 0x1000), some (.nm 0x1000), some (.nm 0x1000)] := by decide
theorem test_7_4 : (quartet (setEnv { openEnv with cr4Osfxsr := false } idle)).map faultOf =
    [none, some (.ud 0x1000), none, none] := by decide
theorem test_7_6 : (quartet (setEnv { openEnv with xcr0Avx := false } idle)).map faultOf =
    [none, none, some (.ud 0x1000), some (.ud 0x1000)] := by decide
theorem test_7_8 : (quartet (setEnv { openEnv with x87Pending := true } idle)).map faultOf =
    [some (.mf 0x1000), none, none, none] := by decide
theorem test_7_12 : (quartet (setFeatures ⟨true, true, true, false⟩ idle)).map faultOf =
    [none, none, none, some (.ud 0x1000)] := by decide
/-- 7.18 and 7.15. -/
theorem test_7_15_7_18 :
    faultOf (step (code [0x66, 0x0F, 0xFE, 0x00] (setGpr 0 0x3008 idle))) = some (.gp 0x1000) ∧
    faultOf (step (code [0x0F, 0xFE, 0x00] (setGpr 0 0x3003 (setEnv { openEnv with acCheck := true } idle)))) =
      some (.ac 0x1000) := by decide

/-- The platform of 7.20 to 7.25. -/
def faultyPlat : Plat :=
  { regions := [.always .read ⟨0x6000, 0x6FFF⟩ (.pf 4), .always .read ⟨0x0000800000000000, 0xFFFFFFFFFFFFFFFF⟩ .gp]
    devices := [⟨0x7000, 0x70FF⟩], beyondTop := none }

theorem test_7_20 : faultOf (step (code [0xC5, 0xFD, 0xFE, 0x00] (setGpr 0 0x5FF0 (setPlat faultyPlat idle)))) =
    some (.pf 4 0x6000 0x1000) := by decide
theorem test_7_22 : faultOf (step (code [0x66, 0x0F, 0xFE, 0x00] (setGpr 0 0x6008 (setPlat faultyPlat idle)))) =
    some (.gp 0x1000) := by decide

/-- The platform of 7.26 to 7.29. -/
def fetchPlat : Plat :=
  { regions := [.always .fetch ⟨0x1003, 0x1FFF⟩ (.pf 0x14)], devices := [], beyondTop := none }

theorem test_7_28 :
    faultOf (step (code [0x66, 0x0F, 0xFE, 0xCA] (setPlat fetchPlat (setEnv { openEnv with cr0Em := true } idle)))) =
      some (.pf 0x14 0x1003 0x1000) := by decide
theorem test_7_29 : faultOf (step (code [0xF0, 0x0F, 0xFC, 0xC1] (setPlat fetchPlat idle))) =
    some (.pf 0x14 0x1003 0x1000) := by decide
/-- A platform of R36 whose verdict depends on the width of the access: it fails the whole of a 32-byte read and admits the
16-byte read at the same address. -/
def wideReadPlat : Plat :=
  { regions := [{ kind := .read, start := Span.all, minBytes := 32, maxBytes := 32, bytes := Span.all, verdict := .ss }]
    devices := [], beyondTop := none }

theorem test_platform_by_width :
    faultOf (step (code [0xC5, 0xFD, 0xFE, 0x00] (setGpr 0 0x3000 (setPlat wideReadPlat idle)))) = some (.ss 0x1000) ∧
    after (step (code [0xC5, 0xF9, 0xFE, 0x00] (setGpr 0 0x3000 (setPlat wideReadPlat idle)))) State.rip =
      some 0x1004 := by decide
/-- P5: the run leaves the spec at `EMMS` after one instruction. -/
theorem test_p5 :
    (match run 0x1005 2 (code [0x0F, 0xFE, 0xC1, 0x0F, 0x77] (setMm 0 1 (setMm 1 2 idle))) with
      | .refused r t => some (r, t.rip, t.readMm 0)
      | _ => none) = some (.outOfScope, 0x1003, 3) := by decide

/-! ### Witnesses: the hypotheses of the statements are met, each clause of a statement at a value of its own -/

/-- The bytes of a list stand at `RIP` and can be fetched, as a check the kernel evaluates. -/
def codeAt (s : State) (bytes : List Byte) : Bool :=
  (List.range bytes.length).all fun k =>
    s.access .fetch (s.byteAddr s.rip k) 1 == none && bytes[k]? == some (s.readByte (s.byteAddr s.rip k))

theorem codeAt_sound (s : State) (bytes : List Byte) (h : codeAt s bytes = true) : CodeAt s bytes := by
  intro k hk
  have := List.all_eq_true.1 h k (List.mem_range.2 hk)
  simp only [Bool.and_eq_true, beq_iff_eq, List.getElem?_eq_getElem hk, Option.some.injEq] at this
  exact ⟨this.1, this.2.symm⟩

/-- A memory operand can be read when its checks pass. -/
theorem readable (i : Instr) (m : MemForm) (s : State) (hm : i.rmOp = .mem m)
    (h : readCheck i.formClass i.formClass.operandBytes (s.linearAddr i.ext i.length m) s = none) :
    SourceReadable i s := by
  intro m' hm'
  obtain rfl : m = m' := RmOp.mem.inj (hm.symm.trans hm')
  obtain ⟨h16, hok, hdev, h8⟩ := (readCheck_none _ _ _ _).1 h
  exact ⟨⟨h16, h8⟩, fun k hk => ⟨hok k hk, (State.touchesDevice_false _ _ _).1 hdev k hk⟩⟩

theorem enabled_mmx : FormEnabled .mmx idle := ⟨by decide, by decide, by decide⟩
theorem enabled_sse : FormEnabled .sse idle := ⟨by decide, by decide, by decide⟩
theorem enabled_vex128 : FormEnabled .vex128 idle := ⟨by decide, by decide, by decide⟩
theorem enabled_vex256 : FormEnabled .vex256 idle := ⟨by decide, by decide, by decide⟩

/-- All the REX bits, and the addressing form that uses all three register extensions. -/
def rexAll : Rex := ⟨true, true, true, true⟩
def vexAll : Vex3 := ⟨true, true, true, true⟩
def farMem : MemForm := .sibDisp8 3 7 7 0x80

/-- The four clauses of `StepRunsDecodedInstruction`. -/
theorem witness_StepRunsDecodedInstruction :
    launchRefusal idle = none ∧
    decode .mode64 (code [0x0F, 0xFC, 0xC1] idle).fetchWindow = .instr (.paddbMmx 0 (.reg 1)) ∧
    decode .mode64 (code [0xF0, 0x0F, 0xFC, 0xC1] idle).fetchWindow = .ud ∧
    decode .mode64 (code [0x90] idle).fetchWindow = .refused .outOfScope ∧
    decode .mode64 (code [0x66, 0x66, 0x0F, 0xFC, 0xC1] idle).fetchWindow = .refused .badPrefixes := by decide

theorem witness_EncodedInstructionAtRipIsExecuted :
    launchRefusal (code [0xC5, 0xED, 0xFC, 0xCB] idle) = none ∧
    (Instr.vpaddb256C5 false 2 1 (.reg 3)).wf .mode64 = true ∧
    CodeAt (code [0xC5, 0xED, 0xFC, 0xCB] idle) (encode (.vpaddb256C5 false 2 1 (.reg 3))) :=
  ⟨by decide, by decide, codeAt_sound _ _ (by decide)⟩

theorem witness_FetchWordIsExecutedNext :
    Memory.wf State.reset.mem = true ∧ 32 / 8 ≤ maxLen ∧ decodeTableWord 32 0x660FFDCA = some (.paddwSse 1 (.reg 2)) ∧
    launchRefusal State.reset.launched = none ∧
    ∀ k < maxLen, State.reset.launched.access .fetch (State.reset.launched.byteAddr State.reset.rip k) 1 = none := by
  decide

/-- Both modes, and the longest encoding. -/
theorem witness_DecodeOfEncodeIsTheInstruction :
    (Instr.vpaddb128C4 vexAll 15 7 (.mem (.sibDisp32 3 7 7 0xFFFFFFFF))).wf .mode64 = true ∧
    (Instr.vpaddb128C4 ⟨false, false, false, true⟩ 7 7 (.mem (.disp32 0))).wf .mode32 = true ∧
    (Instr.padddSseRex rexAll 7 (.mem farMem)).wf .mode64 = true := by decide

/-- For `DecodedInstructionIsWellFormed`, `DecoderReadsExactlyItsLength` and `DecodedVectorRegistersAreReachable`. -/
theorem witness_DecodedInstruction :
    Mode.modelled .mode64 = true ∧ Mode.modelled .mode32 = true ∧
    decode .mode64 [0xC4, 0x41, 0x35, 0xFD, 0xC2, 0x00] = .instr (.vpaddw256C4 ⟨true, false, true, false⟩ 9 0 (.reg 2)) ∧
    decode .mode32 [0xC4, 0xC1, 0x29, 0xFC, 0xCB] = .instr (.vpaddb128C4 ⟨false, false, false, false⟩ 2 1 (.reg 3)) ∧
    10#4 ∈ (Instr.vpaddw256C4 ⟨true, false, true, false⟩ 9 0 (.reg 2)).vectorRegisters := by decide

theorem witness_LegacyPrefixTable :
    Mode.modelled .mode64 = true ∧
    (∀ b ∈ [0xF0#8, 0x67#8, 0x66#8],
      b ∈ [0xF0#8, 0xF2#8, 0xF3#8, 0x66#8, 0x67#8, 0x26#8, 0x2E#8, 0x36#8, 0x3E#8, 0x64#8, 0x65#8]) ∧
    (Shape.legacy false (some rexAll) .byte 0 (.reg 1)).toInstr.wf .mode64 = true ∧
    (Instr.vpaddb128C5 false 2 1 (.reg 3)).wf .mode64 = true ∧
    (Instr.vpaddb128C5 false 2 1 (.reg 3)).formClass = .vex128 := by decide

/-- Both clauses of `PrefixedVexRaisesUd`: a `66` byte, and a REX byte after it. -/
theorem witness_PrefixedVexRaisesUd :
    launchRefusal idle = none ∧ (Instr.vpaddb256C5 false 2 1 (.reg 3)).wf .mode64 = true ∧
    (Instr.vpaddb256C5 false 2 1 (.reg 3)).formClass = .vex256 ∧ (∀ b ∈ [0x66#8], b ∈ [0x66#8, 0xF2#8, 0xF3#8, 0xF0#8]) ∧
    CodeAt (code [0x66, 0xC5, 0xED, 0xFC, 0xCB] idle) ([0x66] ++ encode (.vpaddb256C5 false 2 1 (.reg 3))) ∧
    CodeAt (code [0x66, 0x4F, 0xC5, 0xED, 0xFC, 0xCB] idle)
      ([0x66] ++ [0x4F] ++ encode (.vpaddb256C5 false 2 1 (.reg 3))) :=
  ⟨by decide, by decide, by decide, by decide, codeAt_sound _ _ (by decide), codeAt_sound _ _ (by decide)⟩

/-- The two ways to meet the hypothesis on what stands before: legacy prefixes only, and a REX byte after them (its first
and its last value). Then each clause. -/
theorem witness_OtherEncodingsAreOutOfScope :
    isRexByte 0x40 = true ∧ isRexByte 0x4F = true ∧ [0x66#8] ++ [0x48#8] ≠ [0x66#8] ∧ (∀ b ∈ [0x66#8, 0xF3#8], isLegacyPrefix b = true) ∧ (0xFB#8 ≠ 0xFC#8 ∧ 0xFB#8 ≠ 0xFD#8 ∧ 0xFB#8 ≠ 0xFE#8) ∧
    (0xE8#8).extractLsb' 0 2 ≠ 1#2 ∧ (0xE2#8).extractLsb' 0 5 ≠ 1#5 ∧ (0x6A#8).extractLsb' 0 2 ≠ 1#2 ∧
    isLegacyPrefix 0x90 = false ∧ isRexByte 0x90 = false := by decide

theorem witness_Mode32ReadsPrefixBytesItsOwnWay :
    (∀ b ∈ [0x66#8], isLegacyPrefix b = true) ∧ 0x40 ≤ (0x40#8).toNat ∧ (0x4F#8).toNat ≤ 0x4F ∧
    (0xBF#8).toNat < 0xC0 := by decide

/-- The ways to meet the hypotheses on the ignored bits: `W` only; `X` with no SIB byte; `X` of a register source; `B` of a
displacement without a register and of a SIB byte without a base; every bit of an MMX form with a register source. -/
theorem witness_IgnoredBitsOfPrefixesChangeNothing :
    RmOp.SameBits (.mem farMem) true true true true ∧
    RmOp.SameBits (.mem (.baseDisp8 5 0)) true true false true ∧
    RmOp.SameBits (.reg 7) true true false true ∧
    RmOp.SameBits (.mem (.disp32 0)) true true false false ∧
    RmOp.SameBits (.mem (.sibNoBase 3 7 0)) true true true false ∧
    (∃ r, RmOp.reg 5 = .reg r) ∧ vexAll.r = (⟨true, false, false, false⟩ : Vex3).r ∧
    rexAll.r = (⟨false, true, false, false⟩ : Rex).r := by
  simp [RmOp.SameBits, RmOp.hasSib, RmOp.namesB, farMem, vexAll, rexAll]

theorem witness_TwoByteAndThreeByteVexAgree : ∀ d, RmOp.mem farMem ≠ .mem (.disp32 d) := by
  intro d h
  cases h

/-- For `PaddIsTheLanewiseSum`, `PaddLaws`, `LoadIsLittleEndian` and `PaddWidthsDifferAtCarries` (the last lane). -/
theorem witness_LaneWidths :
    (8 = 8 ∨ 8 = 16 ∨ 8 = 32) ∧ (256 = 64 ∨ 256 = 128 ∨ 256 = 256) ∧ 31 < 256 / 8 ∧
    ((8 = 8 ∧ 32 = 16) ∨ (8 = 8 ∧ 32 = 32) ∨ (8 = 16 ∧ 32 = 32)) := by decide

theorem witness_Addresses : idle.cfg.mode = .mode64 ∧ idle32.cfg.mode = .mode32 := by decide

theorem witness_CanonicalMemories :
    Memory.wf [(0, 1#8), (7, 2#8)] = true ∧ ∀ a, Memory.read [(0, 1#8), (7, 2#8)] a = Memory.read [(0, 1#8), (7, 2#8)] a :=
  ⟨by decide, fun _ => rfl⟩

/-- The result statements of the MMX forms, without and with REX, on a memory operand. -/
theorem witness_MmxAddsLanes :
    FormEnabled .mmx idle ∧ SourceReadable (.paddbMmx 7 (.mem (.disp32 0xFFFFFFFF))) idle ∧
    SourceReadable (.paddbMmxRex rexAll 7 (.mem farMem)) idle ∧
    SourceReadable (.paddwMmx 7 (.mem (.disp32 0xFFFFFFFF))) idle ∧
    SourceReadable (.paddwMmxRex rexAll 7 (.mem farMem)) idle ∧
    SourceReadable (.padddMmx 7 (.mem (.disp32 0xFFFFFFFF))) idle ∧
    SourceReadable (.padddMmxRex rexAll 7 (.mem farMem)) idle :=
  ⟨enabled_mmx, readable _ _ _ rfl (by decide), readable _ _ _ rfl (by decide), readable _ _ _ rfl (by decide),
    readable _ _ _ rfl (by decide), readable _ _ _ rfl (by decide), readable _ _ _ rfl (by decide)⟩

/-- The result statements of the SSE2 forms, without and with REX, on an aligned memory operand. -/
theorem witness_SseAddsLanes :
    FormEnabled .sse idle ∧ SourceReadable (.paddbSse 7 (.mem (.base 0))) idle ∧
    SourceReadable (.paddbSseRex rexAll 7 (.mem farMem)) idle ∧
    SourceReadable (.paddwSse 7 (.mem (.base 0))) idle ∧
    SourceReadable (.paddwSseRex rexAll 7 (.mem farMem)) idle ∧
    SourceReadable (.padddSse 7 (.mem (.base 0))) idle ∧
    SourceReadable (.padddSseRex rexAll 7 (.mem farMem)) idle :=
  ⟨enabled_sse, readable _ _ _ rfl (by decide), readable _ _ _ rfl (by decide), readable _ _ _ rfl (by decide),
    readable _ _ _ rfl (by decide), readable _ _ _ rfl (by decide), readable _ _ _ rfl (by decide)⟩

/-- The result statements of the VEX.128 forms, in both spellings, on an unaligned memory operand. -/
theorem witness_Vex128AddsLanes :
    FormEnabled .vex128 idle ∧ SourceReadable (.vpaddb128C5 true 15 7 (.mem (.disp32 0xFFFFFFFF))) idle ∧
    SourceReadable (.vpaddb128C4 vexAll 15 7 (.mem (.baseDisp8 0 1))) idle ∧
    SourceReadable (.vpaddw128C5 true 15 7 (.mem (.disp32 0xFFFFFFFF))) idle ∧
    SourceReadable (.vpaddw128C4 vexAll 15 7 (.mem (.baseDisp8 0 1))) idle ∧
    SourceReadable (.vpaddd128C5 true 15 7 (.mem (.disp32 0xFFFFFFFF))) idle ∧
    SourceReadable (.vpaddd128C4 vexAll 15 7 (.mem (.baseDisp8 0 1))) idle :=
  ⟨enabled_vex128, readable _ _ _ rfl (by decide), readable _ _ _ rfl (by decide), readable _ _ _ rfl (by decide),
    readable _ _ _ rfl (by decide), readable _ _ _ rfl (by decide), readable _ _ _ rfl (by decide)⟩

/-- The result statements of the VEX.256 forms, in both spellings, on an unaligned memory operand. -/
theorem witness_Vex256AddsLanes :
    FormEnabled .vex256 idle ∧ SourceReadable (.vpaddb256C5 true 15 7 (.mem (.disp32 0xFFFFFFFF))) idle ∧
    SourceReadable (.vpaddb256C4 vexAll 15 7 (.mem (.baseDisp8 0 1))) idle ∧
    SourceReadable (.vpaddw256C5 true 15 7 (.mem (.disp32 0xFFFFFFFF))) idle ∧
    SourceReadable (.vpaddw256C4 vexAll 15 7 (.mem (.baseDisp8 0 1))) idle ∧
    SourceReadable (.vpaddd256C5 true 15 7 (.mem (.disp32 0xFFFFFFFF))) idle ∧
    SourceReadable (.vpaddd256C4 vexAll 15 7 (.mem (.baseDisp8 0 1))) idle :=
  ⟨enabled_vex256, readable _ _ _ rfl (by decide), readable _ _ _ rfl (by decide), readable _ _ _ rfl (by decide),
    readable _ _ _ rfl (by decide), readable _ _ _ rfl (by decide), readable _ _ _ rfl (by decide)⟩

/-- `MmxFormsRaiseUd` and `SseFormsRaiseUd`, the LOCK clause included. -/
theorem witness_LegacyFormsRaiseUd :
    launchRefusal idle = none ∧ (Instr.paddbMmx 0 (.reg 1)).formClass = .mmx ∧
    (Instr.paddbSse 1 (.reg 2)).formClass = .sse ∧ (Instr.paddbMmx 0 (.reg 1)).wf .mode64 = true ∧
    (Instr.paddbSse 1 (.reg 2)).wf .mode64 = true ∧
    CodeAt (code [0xF0, 0x0F, 0xFC, 0xC1] idle) (0xF0 :: encode (.paddbMmx 0 (.reg 1))) ∧
    CodeAt (code [0xF0, 0x66, 0x0F, 0xFC, 0xCA] idle) (0xF0 :: encode (.paddbSse 1 (.reg 2))) :=
  ⟨by decide, by decide, by decide, by decide, by decide, codeAt_sound _ _ (by decide), codeAt_sound _ _ (by decide)⟩

/-- The clauses of `VexFormsRaiseUd`. -/
theorem witness_VexFormsRaiseUd :
    launchRefusal idle = none ∧ (Instr.vpaddb128C5 false 2 1 (.reg 3)).formClass = .vex128 ∧
    (Instr.vpaddb256C5 false 2 1 (.reg 3)).formClass = .vex256 ∧
    (Instr.vpaddb128C5 false 2 1 (.reg 3)).wf .mode64 = true ∧
    CodeAt (code [0xF3, 0xC5, 0xE9, 0xFC, 0xCB] idle) (0xF3 :: encode (.vpaddb128C5 false 2 1 (.reg 3))) ∧
    ((0x48#8).extractLsb' 4 4 = 4#4 ∧
      CodeAt (code [0x48, 0xC5, 0xE9, 0xFC, 0xCB] idle) (0x48 :: encode (.vpaddb128C5 false 2 1 (.reg 3)))) ∧
    (State.reset.cfg.mode ≠ .mode64 ∧ State.reset.cfg.mode ≠ .mode32) ∧
    (setFeatures ⟨true, true, false, true⟩ idle).cfg.mode.modelled = true ∧
    (setFeatures ⟨true, true, false, true⟩ idle).cfg.features.avx2 = true ∧
    (setFeatures ⟨true, true, false, true⟩ idle).cfg.features.avx = false :=
  ⟨by decide, by decide, by decide, by decide, codeAt_sound _ _ (by decide),
    ⟨by decide, codeAt_sound _ _ (by decide)⟩, by decide, by decide, by decide, by decide⟩

theorem witness_TaskSwitchedRaisesNm :
    launchRefusal (setEnv { openEnv with cr0Ts := true } idle) = none ∧
    (∀ cls ∈ [FormClass.mmx, .sse, .vex128, .vex256],
      udCondition cls (setEnv { openEnv with cr0Ts := true } idle) = false) ∧
    (setEnv { openEnv with cr0Ts := true } idle).cfg.env.cr0Ts = true := by decide

theorem witness_PendingX87RaisesMfInMmxFormsOnly :
    launchRefusal (setEnv { openEnv with x87Pending := true } idle) = none ∧
    (Instr.padddMmx 0 (.reg 1)).formClass = .mmx ∧
    udCondition .mmx (setEnv { openEnv with x87Pending := true } idle) = false ∧
    (setEnv { openEnv with x87Pending := true } idle).cfg.env.cr0Ts = false ∧
    (setEnv { openEnv with x87Pending := true } idle).cfg.env.x87Pending = true ∧
    (Instr.padddSse 0 (.reg 1)).formClass ≠ .mmx := by decide

/-- An m64 operand at 0x3003 under alignment checking (7.18). -/
def acState : State := setGpr 0 0x3003 (setEnv { openEnv with acCheck := true } idle)

theorem witness_AlignmentCheckRaisesAcInMmxFormsOnly :
    FormEnabled .mmx acState ∧ (Instr.padddMmx 0 (.mem (.base 0))).rmOp = .mem (.base 0) ∧
    ReadAdmitted acState (acState.linearAddr Ext.none 3 (.base 0)) 8 ∧ acState.cfg.env.acCheck = true ∧
    (acState.linearAddr Ext.none 3 (.base 0)).toNat % 8 ≠ 0 :=
  ⟨⟨by decide, by decide, by decide⟩, rfl, by unfold ReadAdmitted; decide, by decide, by decide⟩

theorem witness_MisalignedSseOperandRaisesGp :
    (Instr.padddSse 0 (.mem (.base 0))).formClass = .sse ∧
    (Instr.padddSse 0 (.mem (.base 0))).rmOp = .mem (.base 0) ∧ FormEnabled .sse (setGpr 0 0x3008 idle) ∧
    ((setGpr 0 0x3008 idle).linearAddr Ext.none 4 (.base 0)).toNat % 16 ≠ 0 :=
  ⟨by decide, rfl, ⟨by decide, by decide, by decide⟩, by decide⟩

/-- A 32-byte operand whose byte 16 is the first that fails (7.20). -/
def pageState : State := setGpr 0 0x5FF0 (setPlat faultyPlat idle)

theorem witness_PlatformFaultIsThatOfTheFirstFailingByte :
    (Instr.vpaddd256C5 false 0 0 (.mem (.base 0))).rmOp = .mem (.base 0) ∧ FormEnabled .vex256 pageState ∧
    16 < FormClass.operandBytes .vex256 ∧
    pageState.byteFault .read (pageState.linearAddr Ext.none 4 (.base 0)) 32 16 = some (.pf 4) ∧
    ∀ j < 16, pageState.byteFault .read (pageState.linearAddr Ext.none 4 (.base 0)) 32 j = none :=
  ⟨rfl, ⟨by decide, by decide, by decide⟩, by decide, by decide, by decide⟩

/-- An operand whose first byte is a device's. -/
def deviceState : State := setGpr 0 0x70FF (setPlat faultyPlat idle)

theorem witness_DeviceReadIsRefused :
    (Instr.padddMmx 0 (.mem (.base 0))).rmOp = .mem (.base 0) ∧ FormEnabled .mmx deviceState ∧
    (∀ j < FormClass.operandBytes .mmx,
      deviceState.byteFault .read (deviceState.linearAddr Ext.none 3 (.base 0)) 8 j = none) ∧
    ⟨0x7000, 0x70FF⟩ ∈ deviceState.cfg.plat.devices ∧
    Span.covers ⟨0x7000, 0x70FF⟩ (deviceState.byteAddr (deviceState.linearAddr Ext.none 3 (.base 0)) 0) = true :=
  ⟨rfl, ⟨by decide, by decide, by decide⟩, by decide, by decide, by decide⟩

theorem witness_FaultsAreThoseOfTheTable :
    faultOf (step (code [0xC5, 0xFD, 0xFE, 0x00] pageState)) = some (.pf 4 0x6000 0x1000) ∧
    faultOf (exec (.paddbMmx 0 (.reg 1)) (setEnv { openEnv with x87Pending := true } idle)) = some (.mf 0x1000) := by
  decide

/-- Three bytes that can be fetched and do not decide, and a fourth that cannot be fetched (7.26). -/
theorem witness_FetchFaultComesFirst :
    launchRefusal (code [0x66, 0x0F, 0xFE] (setPlat fetchPlat idle)) = none ∧
    CodeAt (code [0x66, 0x0F, 0xFE] (setPlat fetchPlat idle)) [0x66, 0x0F, 0xFE] ∧
    decode .mode64 [0x66, 0x0F, 0xFE] = .truncated ∧
    (code [0x66, 0x0F, 0xFE] (setPlat fetchPlat idle)).access .fetch 0x1003 1 =
      some (.fault (.pf 0x14 0x1003 0x1000)) :=
  ⟨by decide, codeAt_sound _ _ (by decide), by decide, by decide⟩

/-- Fifteen `66` bytes. -/
theorem witness_SequenceOverFifteenBytesRaisesGp :
    launchRefusal (code (List.replicate 15 0x66) idle) = none ∧ (List.replicate 15 0x66#8).length = maxLen ∧
    CodeAt (code (List.replicate 15 0x66) idle) (List.replicate 15 0x66) ∧
    decode .mode64 (List.replicate 15 0x66) = .truncated :=
  ⟨by decide, by decide, codeAt_sound _ _ (by decide), by decide⟩

/-- Each reason for which a launch is refused. -/
theorem witness_RefusedLaunches :
    launchRefusal State.reset = some .modeOutOfScope ∧
    launchRefusal (setFeatures ⟨true, true, false, true⟩ idle) = some .inconsistentFeatures ∧
    launchRefusal { idle with eflags := 0x102 } = some .debugLaunch ∧
    launchRefusal { idle with cfg := { idle.cfg with debugArmed := true } } = some .debugLaunch := by decide

/-- For the statements about every step: steps that write an MMX register and a vector register, from states that meet the
invariant, the second in `MODE32` at the top of the address space. -/
theorem witness_StepCompletes :
    (code [0x0F, 0xFC, 0xC1] idle).Inv ∧
    (poke 0 [0xFE, 0xC1] (poke 0xFFFFFFFE [0x66, 0x0F] { idle32 with rip := 0xFFFFFFFE })).Inv ∧
    after (step (code [0x0F, 0xFC, 0xC1] idle)) State.rip = some 0x1003 ∧
    after (step (poke 0 [0xFE, 0xC1] (poke 0xFFFFFFFE [0x66, 0x0F] { idle32 with rip := 0xFFFFFFFE }))) State.rip =
      some 2 :=
  ⟨⟨by decide, by decide⟩, ⟨by decide, by decide⟩, by decide, by decide⟩

/-- For `FlagsAreNeitherReadNorWritten`: every flag but TF. -/
theorem witness_FlagsAreNeitherReadNorWritten : State.tf { idle with eflags := 0xFFFFFEFF } = idle.tf := by decide

/-- A program of two instructions at 0x1000, the second of which reads the memory that `RAX` points to. -/
def twoSteps (rax : BitVec 64) : State :=
  code [0x0F, 0xFE, 0xC1, 0xC5, 0xFD, 0xFE, 0x00] (setGpr 0 rax (setPlat faultyPlat idle))

/-- The program of `twoSteps`. -/
def twoInstrs : List Instr := [.padddMmx 0 (.reg 1), .vpaddd256C5 false 0 0 (.mem (.base 0))]

/-- `RunReachesEndAfterItsSteps`, both clauses: two steps that reach END, which stands after the second instruction; a
program that runs to its end, and one whose second instruction faults. -/
theorem witness_RunReachesEndAfterItsSteps :
    (∃ t, StepsTo 0x1007 2 (twoSteps 0x2000) t ∧ t.rip = 0x1007) ∧
    (∀ rax ∈ [0x2000#64, 0x6000#64],
      (twoSteps rax).Inv ∧ launchRefusal (twoSteps rax) = none ∧
      (∀ i ∈ twoInstrs, i.wf (twoSteps rax).cfg.mode = true) ∧
      codeAt (twoSteps rax) (twoInstrs.flatMap encode) = true) ∧
    (twoInstrs.flatMap encode).length < 2 ^ 32 ∧
    (twoSteps 0x2000).byteAddr (twoSteps 0x2000).rip (twoInstrs.flatMap encode).length = 0x1007 ∧
    faultOf (exec (.vpaddd256C5 false 0 0 (.mem (.base 0))) (twoSteps 0x6000)) = some (.pf 4 0x6000 0x1000) := by
  refine ⟨⟨_, ⟨by decide, _, rfl, by decide, _, rfl, rfl⟩, by decide⟩, ?_, by decide, by decide, by decide⟩
  intro rax h
  simp only [List.mem_cons, List.not_mem_nil, or_false] at h
  rcases h with rfl | rfl
  all_goals exact ⟨⟨by decide, by decide⟩, by decide, by decide, by decide⟩

/-- Two vector register files that differ in upper halves only, from which a form runs, faults and is refused. -/
theorem witness_Vex128IgnoresUpperHalvesOfSources :
    (∀ j, State.readXmm { idle with ymm := Vector.replicate 16 (0xAB#256 <<< 128) } j = idle.readXmm j) ∧
    (∃ t, exec (.vpaddb128C5 false 2 1 (.reg 3)) idle = .next t) ∧
    exec (.vpaddb128C4 vexAll 2 1 (.reg 3)) (setEnv { openEnv with cr0Ts := true } idle) = .fault (.nm 0x1000) ∧
    exec (.vpaddb128C5 false 2 1 (.mem (.base 0))) deviceState = .refused .deviceRead :=
  ⟨by decide, ⟨_, rfl⟩, rfl, rfl⟩

/-- A memory source without REX; extended registers by REX and by the three-byte prefix; a displacement with no register
where both have eight bytes. -/
theorem witness_DestructiveFormAgreesWithThreeOperandForm :
    (∃ t t', exec (.paddbSse 1 (.mem (.base 0))) idle = .next t ∧
      exec (.vpaddb128C5 false (regNum false 1) 1 (.mem (.base 0))) idle = .next t') ∧
    (∃ t t', exec (.padddSseRex ⟨false, true, false, true⟩ 1 (.reg 2)) idle = .next t ∧
      exec (.vpaddd128C4 ⟨true, false, true, false⟩ (regNum true 1) 1 (.reg 2)) idle = .next t') ∧
    (Instr.vpaddd128C4 ⟨true, false, true, false⟩ 9 1 (.reg 2)).ext =
      (Instr.padddSseRex ⟨false, true, false, true⟩ 1 (.reg 2)).ext ∧
    (Instr.vpaddb128C5 false 1 1 (.mem (.disp32 0))).length = (Instr.paddbSse 1 (.mem (.disp32 0))).length ∧
    (∀ disp, RmOp.mem (.base 0) ≠ .mem (.disp32 disp)) :=
  ⟨⟨_, _, rfl, rfl⟩, ⟨_, _, rfl, rfl⟩, rfl, rfl, nofun⟩

/-- The two-byte prefix beside the three-byte one, and extended registers in both. -/
theorem witness_Vex256IsTwoVex128 :
    FormEnabled .vex128 idle ∧
    (∀ j, State.readXmm { idle with ymm := Vector.replicate 16 0 } j = (idle.readYmm j).extractLsb' 128 128) ∧
    (∃ t, exec (.vpaddb256C5 false 2 1 (.reg 3)) idle = .next t) ∧
    (∃ t, exec (.vpaddw256C4 ⟨true, false, true, false⟩ 9 1 (.reg 3)) idle = .next t) ∧
    (Instr.vpaddb128C4 ⟨false, true, false, true⟩ 2 1 (.reg 3)).ext.r = (Instr.vpaddb256C5 false 2 1 (.reg 3)).ext.r ∧
    (Instr.vpaddb128C4 ⟨false, true, false, true⟩ 2 1 (.reg 3)).ext.b = (Instr.vpaddb256C5 false 2 1 (.reg 3)).ext.b :=
  ⟨enabled_vex128, by decide, ⟨_, rfl⟩, ⟨_, rfl⟩, rfl, rfl⟩

/-- The forms without REX, and the 128-bit form on `XMM9` and `XMM10`. -/
theorem witness_MmxIsTheLowHalfOfSse :
    let s := setMm 1 7 (setYmm 1 7 (setYmm 9 7 idle))
    (s.readMm 1 = (s.readXmm (regNum (Instr.paddbSse 1 (.reg 2)).ext.r 1)).setWidth 64 ∧
      s.readMm 2 = (s.readXmm (regNum (Instr.paddbSse 1 (.reg 2)).ext.b 2)).setWidth 64) ∧
    (s.readMm 1 = (s.readXmm (regNum (Instr.paddbSseRex rexAll 1 (.reg 2)).ext.r 1)).setWidth 64 ∧
      s.readMm 2 = (s.readXmm (regNum (Instr.paddbSseRex rexAll 1 (.reg 2)).ext.b 2)).setWidth 64) ∧
    (∃ t, exec (.paddbMmx 1 (.reg 2)) s = .next t) ∧ (∃ t, exec (.paddbSse 1 (.reg 2)) s = .next t) ∧
    ∃ t, exec (.paddbSseRex rexAll 1 (.reg 2)) s = .next t :=
  ⟨by decide, by decide, ⟨_, rfl⟩, ⟨_, rfl⟩, _, rfl⟩

/-- The last clause of `ResetValuesOfTheHardware`. -/
theorem witness_ResetValuesOfTheHardware :
    launchRefusal (setEnv Env.afterReset idle) = none ∧ (Instr.padddSse 0 (.reg 1)).formClass ≠ .mmx ∧
    (setEnv Env.afterReset idle).cfg.env.cr4Osfxsr = State.reset.cfg.env.cr4Osfxsr ∧
    (setEnv Env.afterReset idle).cfg.env.cr4Osxsave = State.reset.cfg.env.cr4Osxsave ∧
    (setEnv Env.afterReset idle).cfg.env.xcr0Sse = State.reset.cfg.env.xcr0Sse ∧
    (setEnv Env.afterReset idle).cfg.env.xcr0Avx = State.reset.cfg.env.xcr0Avx := by decide

end Sys2Proof.Tests
end

/-! ### What no form sees (spec/10_state.md R18, R19)

The checks and the source operand of a form depend on a few components only; an update of any other component therefore
commutes with every form. -/

namespace Sys2Proof.Machine

/-- The #UD conditions of a class look at the launch configuration only. -/
theorem udCondition_congr {s t : State} (hc : t.cfg = s.cfg) (cls : FormClass) :
    udCondition cls t = udCondition cls s := by
  cases cls <;> simp only [udCondition, hc]

/-- `Precheck` looks at the launch configuration and `RIP`, and at what the launch check looks at. -/
theorem precheck_congr {s t : State} (hc : t.cfg = s.cfg) (hr : t.rip = s.rip)
    (hl : launchRefusal t = launchRefusal s) (cls : FormClass) : precheck cls t = precheck cls s := by
  simp only [precheck, udCondition_congr hc, raise, hl, hc, hr]

/-- The address of byte `k` of an access depends on the launch configuration only. -/
theorem State.byteAddr_congr {s t : State} (hc : t.cfg = s.cfg) (a : Addr) (k : Nat) :
    t.byteAddr a k = s.byteAddr a k := by
  simp only [State.byteAddr, State.wrapAddr, hc]

/-- What the platform says of an access depends on the launch configuration, and the fault it raises on `RIP`. -/
theorem State.access_congr {s t : State} (hc : t.cfg = s.cfg) (hr : t.rip = s.rip) (kind : AccessKind) (a : Addr)
    (n : Nat) : t.access kind a n = s.access kind a n := by
  have hbyte : t.byteFault kind a n = s.byteFault kind a n := funext (State.byteFault_congr hc kind a n)
  simp only [State.access, raise, hbyte, hr, State.byteAddr_congr hc]

/-- Which bytes are a device's depends on the launch configuration only. -/
theorem State.touchesDevice_congr {s t : State} (hc : t.cfg = s.cfg) (a : Addr) (n : Nat) :
    t.touchesDevice a n = s.touchesDevice a n := by
  rw [Bool.eq_iff_iff, ← not_iff_not, Bool.not_eq_true, Bool.not_eq_true, State.touchesDevice_false,
    State.touchesDevice_false]
  simp only [State.byteAddr_congr hc, hc]

/-- The checks of `ReadSrc` look at the launch configuration and `RIP` only. -/
theorem readCheck_congr {s t : State} (hc : t.cfg = s.cfg) (hr : t.rip = s.rip) (cls : FormClass) (n : Nat)
    (a : Addr) : readCheck cls n a t = readCheck cls n a s := by
  simp only [readCheck, raise, State.access_congr hc hr, State.touchesDevice_congr hc, hc, hr]

/-- The address of a memory operand depends on the general registers, `RIP` and the launch configuration. -/
theorem State.linearAddr_congr {s t : State} (hc : t.cfg = s.cfg) (hr : t.rip = s.rip) (hg : t.gpr = s.gpr)
    (e : Ext) (len : Nat) (m : MemForm) : t.linearAddr e len m = s.linearAddr e len m := by
  have hreg : t.readGpr = s.readGpr := funext fun i => by simp only [State.readGpr, hg]
  simp only [State.linearAddr, State.nextRip, State.wrapAddr, hreg, hr, hc]

/-- The value of a memory operand depends on memory and the launch configuration. -/
theorem State.load_congr {s t : State} (hc : t.cfg = s.cfg) (hm : t.mem = s.mem) (a : Addr) (N : Nat) :
    t.load a N = s.load a N := by
  simp only [State.load, State.readByte, State.byteAddr_congr hc, hm]

/-- An update that no form sees: it leaves what the checks, the operands and `RIP` are read from, and it commutes with
each register write and with the advance of `RIP`. -/
structure Unseen (f : State → State) : Prop where
  mm : ∀ s, (f s).mm = s.mm
  ymm : ∀ s, (f s).ymm = s.ymm
  gpr : ∀ s, (f s).gpr = s.gpr
  rip : ∀ s, (f s).rip = s.rip
  mem : ∀ s, (f s).mem = s.mem
  cfg : ∀ s, (f s).cfg = s.cfg
  writeMm : ∀ s i v, (f s).writeMm i v = f (s.writeMm i v)
  writeYmm : ∀ s i v, (f s).writeYmm i v = f (s.writeYmm i v)
  advance : ∀ s n, (f s).advance n = f (s.advance n)

section
variable {f : State → State} (hf : Unseen f)
include hf

theorem Unseen.readMm (s : State) : (f s).readMm = s.readMm :=
  funext fun i => by simp only [State.readMm, hf.mm]

theorem Unseen.readYmm (s : State) : (f s).readYmm = s.readYmm :=
  funext fun i => by simp only [State.readYmm, hf.ymm]

theorem Unseen.readXmm (s : State) : (f s).readXmm = s.readXmm :=
  funext fun i => by simp only [State.readXmm, hf.readYmm]

theorem Unseen.writeXmm (s : State) (i : BitVec 4) (v : Xmm) : (f s).writeXmm i v = f (s.writeXmm i v) := by
  simp only [State.writeXmm, hf.readYmm, hf.writeYmm]

theorem Unseen.writeXmmZext (s : State) (i : BitVec 4) (v : Xmm) :
    (f s).writeXmmZext i v = f (s.writeXmmZext i v) := hf.writeYmm s i _

/-- The source operand is the same after an unseen update, and so is the stop when it cannot be read. -/
theorem Unseen.readSrc (s : State) (cls : FormClass) (N : Nat) (reg : BitVec 3 → BitVec N) (e : Ext) (len : Nat)
    (rm : RmOp) : readSrc cls N reg e len rm (f s) = readSrc cls N reg e len rm s := by
  cases rm with
  | reg r => rfl
  | mem m =>
    simp only [Machine.readSrc, State.linearAddr_congr (hf.cfg s) (hf.rip s) (hf.gpr s),
      readCheck_congr (hf.cfg s) (hf.rip s), State.load_congr (hf.cfg s) (hf.mem s)]

/-- The shared pattern of the forms commutes with an unseen update when the form's own effect does. -/
theorem Unseen.runForm {s : State} (hl : launchRefusal (f s) = launchRefusal s) (cls : FormClass) (N : Nat)
    (reg : BitVec 3 → BitVec N) (e : Ext) (len : Nat) (rm : RmOp) {finish finish' : BitVec N → State}
    (hfinish : ∀ src, finish' src = f (finish src)) :
    runForm cls N reg e len rm finish' (f s) = mapNext f (runForm cls N reg e len rm finish s) := by
  simp only [Machine.runForm, precheck_congr (hf.cfg s) (hf.rip s) hl, hf.readSrc]
  cases precheck cls s with
  | some stop => cases stop <;> rfl
  | none =>
    cases Machine.readSrc cls N reg e len rm s with
    | error stop => cases stop <;> rfl
    | ok src => simp only [mapNext, hfinish, hf.advance]

theorem Unseen.mmxForm {s : State} (hl : launchRefusal (f s) = launchRefusal s) (w : Nat) (e : Ext) (reg : BitVec 3)
    (rm : RmOp) (len : Nat) : mmxForm w e reg rm len (f s) = mapNext f (mmxForm w e reg rm len s) := by
  simp only [Machine.mmxForm, hf.readMm]
  exact hf.runForm hl _ _ _ _ _ _ fun src => hf.writeMm s _ _

theorem Unseen.sseForm {s : State} (hl : launchRefusal (f s) = launchRefusal s) (w : Nat) (e : Ext) (reg : BitVec 3)
    (rm : RmOp) (len : Nat) : sseForm w e reg rm len (f s) = mapNext f (sseForm w e reg rm len s) := by
  simp only [Machine.sseForm, hf.readXmm]
  exact hf.runForm hl _ _ _ _ _ _ fun src => hf.writeXmm s _ _

theorem Unseen.vex128Form {s : State} (hl : launchRefusal (f s) = launchRefusal s) (w : Nat) (e : Ext)
    (v : BitVec 4) (reg : BitVec 3) (rm : RmOp) (len : Nat) :
    vex128Form w e v reg rm len (f s) = mapNext f (vex128Form w e v reg rm len s) := by
  simp only [Machine.vex128Form, hf.readXmm]
  exact hf.runForm hl _ _ _ _ _ _ fun src => hf.writeXmmZext s _ _

theorem Unseen.vex256Form {s : State} (hl : launchRefusal (f s) = launchRefusal s) (w : Nat) (e : Ext)
    (v : BitVec 4) (reg : BitVec 3) (rm : RmOp) (len : Nat) :
    vex256Form w e v reg rm len (f s) = mapNext f (vex256Form w e v reg rm len s) := by
  simp only [Machine.vex256Form, hf.readYmm]
  exact hf.runForm hl _ _ _ _ _ _ fun src => hf.writeYmm s _ _

/-- Every form commutes with an unseen update that leaves the launch's verdict: the update made before it is found
afterwards, and the faults and refusals are the same. -/
theorem Unseen.exec {s : State} (hl : launchRefusal (f s) = launchRefusal s) (i : Instr) :
    exec i (f s) = mapNext f (exec i s) := by
  cases i
  case paddbMmx | paddwMmx | padddMmx | paddbMmxRex | paddwMmxRex | padddMmxRex => exact hf.mmxForm hl ..
  case paddbSse | paddwSse | padddSse | paddbSseRex | paddwSseRex | padddSseRex => exact hf.sseForm hl ..
  case vpaddb128C5 | vpaddb128C4 | vpaddw128C5 | vpaddw128C4 | vpaddd128C5 | vpaddd128C4 =>
    exact hf.vex128Form hl ..
  case vpaddb256C5 | vpaddb256C4 | vpaddw256C5 | vpaddw256C4 | vpaddd256C5 | vpaddd256C4 =>
    exact hf.vex256Form hl ..

end

/-- No form sees a write of MXCSR (spec/10_state.md R19). -/
theorem Unseen.setMxcsr (m : BitVec 32) : Unseen fun s => { s with mxcsr := m } where
  mm _ := rfl
  ymm _ := rfl
  gpr _ := rfl
  rip _ := rfl
  mem _ := rfl
  cfg _ := rfl
  writeMm _ _ _ := rfl
  writeYmm _ _ _ := rfl
  advance _ _ := rfl

/-- Settles O54: replacing MXCSR is an update no form sees, and the launch check does not look at it. -/
theorem mxcsrIsNeitherReadNorWritten : Obligations.MxcsrIsNeitherReadNorWritten := fun i s m =>
  (Unseen.setMxcsr m).exec (s := s) (launchRefusal_congr rfl rfl) i

end Sys2Proof.Machine

/-! ### What the decoder makes of encoded bytes (spec/30_encoding.md R51 to R60)

The decoder's stages in their order, each on bytes the encoder wrote: the prefix list, the operand, the opcode, the two
VEX prefixes. What is left of a sequence that is one of the twelve forms is the verdict on the bytes before it. -/

namespace Sys2Proof

/-! #### The prefix list and the REX byte -/

/-- The bytes of R54. -/
theorem isRefusedPrefix_iff (b : Byte) :
    isRefusedPrefix b = true ↔ b ∈ [0x67#8, 0x26#8, 0x2E#8, 0x36#8, 0x3E#8, 0x64#8, 0x65#8] := by
  simp [isRefusedPrefix, or_assoc]

/-- The bytes of R51 step 1. -/
theorem isLegacyPrefix_iff (b : Byte) :
    isLegacyPrefix b = true ↔
      b ∈ [0xF0#8, 0xF2#8, 0xF3#8, 0x66#8, 0x67#8, 0x26#8, 0x2E#8, 0x36#8, 0x3E#8, 0x64#8, 0x65#8] := by
  simp [isLegacyPrefix, isRefusedPrefix, or_assoc]

/-- No byte is both a legacy prefix and a REX byte. -/
theorem not_isLegacyPrefix_of_isRexByte {b : Byte} (h : isRexByte b = true) : isLegacyPrefix b = false := by
  rw [← Bool.not_eq_true, isLegacyPrefix_iff]
  intro hb
  have hnone : ∀ c ∈ [0xF0#8, 0xF2#8, 0xF3#8, 0x66#8, 0x67#8, 0x26#8, 0x2E#8, 0x36#8, 0x3E#8, 0x64#8, 0x65#8],
      isRexByte c = false := by decide
  exact absurd h (by simp [hnone b hb])

/-- The REX bytes are `40` to `4F` (R55). -/
theorem isRexByte_iff (b : Byte) : isRexByte b = true ↔ 0x40 ≤ b.toNat ∧ b.toNat ≤ 0x4F := by
  have hb := b.isLt
  rw [isRexByte, beq_iff_eq, ← BitVec.toNat_inj, BitVec.extractLsb'_toNat, Nat.shiftRight_eq_div_pow,
    BitVec.toNat_ofNat]
  omega

@[simp] theorem Rex.isRexByte_toByte (rex : Rex) : isRexByte rex.toByte = true := by
  obtain ⟨w, r, x, b⟩ := rex
  revert w r x b
  decide

@[simp] theorem Rex.ofByte_toByte (rex : Rex) : Rex.ofByte rex.toByte = rex := by
  obtain ⟨w, r, x, b⟩ := rex
  revert w r x b
  decide

/-- The prefix list ends before the first byte that is no legacy prefix. -/
theorem splitPrefixes_append {P : List Byte} (hP : ∀ b ∈ P, isLegacyPrefix b = true) {c : Byte}
    (hc : isLegacyPrefix c = false) (bs : List Byte) : splitPrefixes (P ++ c :: bs) = (P, c :: bs) := by
  induction P with
  | nil => simp [splitPrefixes, hc]
  | cons p P ih =>
    obtain ⟨hp, hP⟩ := List.forall_mem_cons.1 hP
    simp [splitPrefixes, hp, ih hP]

/-- Decoding goes on after the legacy prefixes when no REX byte follows them (R51 steps 1 and 2). -/
theorem decode_prefixes {mode : Mode} {P : List Byte} (hP : ∀ b ∈ P, isLegacyPrefix b = true) {c : Byte}
    (hc : isLegacyPrefix c = false) (hrex : isRexByte c = false) (bs : List Byte) :
    decode mode (P ++ c :: bs) = parseBody mode P none (c :: bs) := by
  simp [decode, splitPrefixes_append hP hc, hrex]

/-- In `MODE64` decoding goes on after the legacy prefixes and the REX byte (R51 step 2). -/
theorem decode_prefixes_rex {P : List Byte} (hP : ∀ b ∈ P, isLegacyPrefix b = true) {c : Byte}
    (hc : isRexByte c = true) (bs : List Byte) :
    decode .mode64 (P ++ c :: bs) = parseBody .mode64 P (some (Rex.ofByte c)) bs := by
  simp [decode, splitPrefixes_append hP (not_isLegacyPrefix_of_isRexByte hc), hc]

/-! #### Opcode, ModRM, SIB and displacement -/

@[simp] theorem modrmByte_mod (mod : BitVec 2) (reg rm : BitVec 3) :
    (modrmByte mod reg rm).extractLsb' 6 2 = mod := by
  revert mod reg rm
  decide

@[simp] theorem modrmByte_reg (mod : BitVec 2) (reg rm : BitVec 3) :
    (modrmByte mod reg rm).extractLsb' 3 3 = reg := by
  revert mod reg rm
  decide

@[simp] theorem modrmByte_rm (mod : BitVec 2) (reg rm : BitVec 3) :
    (modrmByte mod reg rm).extractLsb' 0 3 = rm := by
  revert mod reg rm
  decide

/-- Four displacement bytes are read back least significant first (R69). -/
@[simp] theorem takeDisp32_disp32Bytes (d : BitVec 32) (rest : List Byte) :
    takeDisp32 (disp32Bytes d ++ rest) = some (d, rest) := by
  have hd : d.extractLsb' 24 8 ++ d.extractLsb' 16 8 ++ d.extractLsb' 8 8 ++ d.extractLsb' 0 8 = d := by
    rw [BitVec.extractLsb'_append_extractLsb'_eq_extractLsb' (show 24 = 16 + 8 from rfl),
      BitVec.extractLsb'_append_extractLsb'_eq_extractLsb' (show 16 = 8 + 8 from rfl),
      BitVec.extractLsb'_append_extractLsb'_eq_extractLsb' (show 8 = 0 + 8 from rfl)]
    exact BitVec.extractLsb'_eq_self
  exact congrArg (fun v => some (v, rest)) hd

/-- The operand's bytes are a ModRM byte with `reg` in its middle field and a trailer; from its other two fields and the
trailer the operand is read back, and no byte more (R62, R66, R67, R69). -/
theorem encodeRm_parseRm (reg : BitVec 3) (rm : RmOp) (h : rm.wf = true) :
    ∃ modrm trailer, encodeRm reg rm = modrm :: trailer ∧ modrm.extractLsb' 3 3 = reg ∧
      ∀ rest, parseRm (modrm.extractLsb' 6 2) (modrm.extractLsb' 0 3) (trailer ++ rest) = some (rm, rest) := by
  cases rm with
  | reg r => exact ⟨_, _, rfl, by simp, by simp [parseRm]⟩
  | mem m =>
    cases m
    case base | disp32 | baseDisp8 | baseDisp32 =>
      exact ⟨_, _, rfl, by simp, by simp_all [parseRm, takeDisp8, RmOp.wf, MemForm.wf]⟩
    case sib | sibNoBase | sibDisp8 | sibDisp32 =>
      exact ⟨_, _, rfl, by simp, by simp_all [parseRm, parseSib, takeDisp8, RmOp.wf, MemForm.wf]⟩

/-- The opcode and the operand of a form are read back whatever follows them (R51 steps 3 to 5). -/
theorem parseOpcode_encode (finish : Elem → BitVec 3 → RmOp → Decoded) (e : Elem) (reg : BitVec 3) {rm : RmOp}
    (h : rm.wf = true) (rest : List Byte) :
    parseOpcode finish (e.opcode :: (encodeRm reg rm ++ rest)) = finish e reg rm := by
  obtain ⟨modrm, trailer, henc, hreg, hrm⟩ := encodeRm_parseRm reg rm h
  simp [parseOpcode, henc, hreg, hrm]

/-! #### The VEX prefixes -/

/-- The last byte of a VEX prefix (R56): its top bit, then `vvvv` inverted, `L`, and the implied prefix `66`
(R59). -/
def vexLastByte (t : Bool) (v : BitVec 4) (l : Bool) : Byte := BitVec.ofBool t ++ ~~~v ++ BitVec.ofBool l ++ 1#2

/-- The middle byte of a three-byte VEX prefix (R56): `R`, `X` and `B` inverted and the opcode map `0F` (R59). -/
def vexMapByte (x : Vex3) : Byte :=
  BitVec.ofBool (!x.r) ++ BitVec.ofBool (!x.x) ++ BitVec.ofBool (!x.b) ++ 1#5

theorem Shape.encode_c5 (l r : Bool) (v : BitVec 4) (e : Elem) (reg : BitVec 3) (rm : RmOp) :
    (Shape.c5 l r v e reg rm).encode = 0xC5#8 :: vexLastByte (!r) v l :: e.opcode :: encodeRm reg rm := rfl

theorem Shape.encode_c4 (l : Bool) (x : Vex3) (v : BitVec 4) (e : Elem) (reg : BitVec 3) (rm : RmOp) :
    (Shape.c4 l x v e reg rm).encode =
      0xC4#8 :: vexMapByte x :: vexLastByte x.w v l :: e.opcode :: encodeRm reg rm := rfl

section
variable (t : Bool) (v : BitVec 4) (l : Bool)

@[simp] theorem vexLastByte_top : (vexLastByte t v l)[7] = t := by revert t v l; decide
@[simp] theorem vexLastByte_v : (vexLastByte t v l).extractLsb' 3 4 = ~~~v := by revert t v l; decide
@[simp] theorem vexLastByte_l : (vexLastByte t v l)[2] = l := by revert t v l; decide
@[simp] theorem vexLastByte_pp : (vexLastByte t v l).extractLsb' 0 2 = 1#2 := by revert t v l; decide

/-- Bits 7:6 of the two-byte prefix, by which `MODE32` tells it from LDS (R57). -/
theorem vexLastByte_isVex32 (h : v.msb = false) : (vexLastByte true v l).extractLsb' 6 2 = 3#2 := by
  revert v l
  decide

end

section
variable (r x b w : Bool)

@[simp] theorem vexMapByte_r : (vexMapByte ⟨r, x, b, w⟩)[7] = !r := by revert r x b w; decide
@[simp] theorem vexMapByte_x : (vexMapByte ⟨r, x, b, w⟩)[6] = !x := by revert r x b w; decide
@[simp] theorem vexMapByte_b : (vexMapByte ⟨r, x, b, w⟩)[5] = !b := by revert r x b w; decide
@[simp] theorem vexMapByte_map : (vexMapByte ⟨r, x, b, w⟩).extractLsb' 0 5 = 1#5 := by revert r x b w; decide

/-- Bits 7:6 of the middle byte, by which `MODE32` tells the prefix from LES (R57). -/
theorem vexMapByte_isVex32 : (vexMapByte ⟨false, false, b, w⟩).extractLsb' 6 2 = 3#2 := by revert b w; decide

end

/-- Outside `MODE64` no bit of a VEX prefix extends a register number (R57). -/
theorem vexExtensionWf_of_ne {mode : Mode} {r x b : Bool} {v : BitVec 4} (h : vexExtensionWf mode r x b v = true)
    (hm : mode ≠ .mode64) : r = false ∧ x = false ∧ b = false ∧ v.msb = false := by
  simpa [vexExtensionWf, hm, and_assoc] using h

/-- The bits `MODE32` ignores (R57) are 0 in the encoding of an instruction. -/
theorem vexMode32_of_wf (x : Vex3) {v : BitVec 4} (hb : x.b = false) (hv : v.msb = false) :
    vexMode32 x v = (x, v) := by
  have hand : ∀ u : BitVec 4, u.msb = false → u &&& 7#4 = u := by decide
  rw [vexMode32, ← hb, hand v hv]

/-- The two-byte VEX prefix and what follows it are read back (R56, R57). -/
theorem parseC5_encode {mode : Mode} (P : List Byte) (hadRex l : Bool) {r : Bool} {v : BitVec 4} (e : Elem)
    (reg : BitVec 3) {rm : RmOp} (hv : vexExtensionWf mode r false false v = true) (hrm : rm.wf = true)
    (rest : List Byte) :
    parseC5 mode P hadRex (vexLastByte (!r) v l :: e.opcode :: (encodeRm reg rm ++ rest)) =
      vexVerdict P hadRex (.c5 l r v e reg rm) := by
  have hvex : ¬(mode ≠ .mode64 ∧ (vexLastByte (!r) v l).extractLsb' 6 2 ≠ 3#2) := by
    rintro ⟨hm, hbits⟩
    obtain ⟨rfl, -, -, hmsb⟩ := vexExtensionWf_of_ne hv hm
    exact hbits (vexLastByte_isVex32 v l hmsb)
  rw [parseC5, if_neg hvex, if_neg (by simp), parseOpcode_encode _ _ _ hrm]
  simp

/-- The three-byte VEX prefix and what follows it are read back (R56, R57). -/
theorem parseC4_encode {mode : Mode} (P : List Byte) (hadRex l : Bool) {x : Vex3} {v : BitVec 4} (e : Elem)
    (reg : BitVec 3) {rm : RmOp} (hv : vexExtensionWf mode x.r x.x x.b v = true) (hrm : rm.wf = true)
    (rest : List Byte) :
    parseC4 mode P hadRex (vexMapByte x :: vexLastByte x.w v l :: e.opcode :: (encodeRm reg rm ++ rest)) =
      vexVerdict P hadRex (.c4 l x v e reg rm) := by
  obtain ⟨r, x, b, w⟩ := x
  have hvex : ¬(mode ≠ .mode64 ∧ (vexMapByte ⟨r, x, b, w⟩).extractLsb' 6 2 ≠ 3#2) := by
    rintro ⟨hm, hbits⟩
    obtain ⟨rfl, rfl, -, -⟩ := vexExtensionWf_of_ne hv hm
    exact hbits (vexMapByte_isVex32 b w)
  have hkept : (if mode = .mode64 then (⟨r, x, b, w⟩, v) else vexMode32 ⟨r, x, b, w⟩ v) = (⟨r, x, b, w⟩, v) := by
    split
    · rfl
    · next hm =>
      obtain ⟨-, -, hb, hmsb⟩ := vexExtensionWf_of_ne hv hm
      exact vexMode32_of_wf _ hb hmsb
  rw [parseC4, if_neg hvex]
  simp [parseOpcode_encode _ _ _ hrm, hkept]

/-! #### Whole sequences -/

/-- The VEX family (R50). -/
def Shape.isVex : Shape → Bool
  | .legacy .. => false
  | _ => true

/-- The instructions of the two VEX classes are those of the VEX family. -/
theorem Instr.isVex_of_formClass {i : Instr} (h : i.formClass = .vex128 ∨ i.formClass = .vex256) :
    i.shape.isVex = true := by
  rw [Instr.formClass] at h
  cases hsh : i.shape with
  | legacy sse rex e reg rm => rw [hsh] at h; cases sse <;> simp at h
  | c5 l r v e reg rm => rfl
  | c4 l x v e reg rm => rfl

/-- Which legacy shapes are instructions of the mode: a REX byte asks for `MODE64` (R55). -/
theorem Shape.wf_legacy (mode : Mode) (sse : Bool) (rex : Option Rex) (e : Elem) (reg : BitVec 3) (rm : RmOp) :
    (Shape.legacy sse rex e reg rm).toInstr.wf mode =
      ((if rex.isSome then mode == .mode64 else mode.modelled) && rm.wf) := by
  cases sse <;> cases rex <;> cases e <;> rfl

/-- Which two-byte VEX shapes are instructions of the mode. -/
theorem Shape.wf_c5 (mode : Mode) (l r : Bool) (v : BitVec 4) (e : Elem) (reg : BitVec 3) (rm : RmOp) :
    (Shape.c5 l r v e reg rm).toInstr.wf mode = (mode.modelled && vexExtensionWf mode r false false v && rm.wf) := by
  cases l <;> cases e <;> rfl

/-- Which three-byte VEX shapes are instructions of the mode. -/
theorem Shape.wf_c4 (mode : Mode) (l : Bool) (x : Vex3) (v : BitVec 4) (e : Elem) (reg : BitVec 3) (rm : RmOp) :
    (Shape.c4 l x v e reg rm).toInstr.wf mode = (mode.modelled && vexExtensionWf mode x.r x.x x.b v && rm.wf) := by
  cases l <;> cases e <;> rfl

/-- After the prefixes the encoding of a VEX shape is read back, whatever follows it. -/
theorem parseBody_encode_vex {mode : Mode} {sh : Shape} (hvex : sh.isVex = true) (hwf : sh.toInstr.wf mode = true)
    (P : List Byte) (rex : Option Rex) (rest : List Byte) :
    parseBody mode P rex (sh.encode ++ rest) = vexVerdict P rex.isSome sh := by
  cases sh with
  | legacy sse rex e reg rm => exact absurd hvex (by simp [Shape.isVex])
  | c5 l r v e reg rm =>
    simp only [Shape.wf_c5, Bool.and_eq_true] at hwf
    obtain ⟨⟨-, hv⟩, hrm⟩ := hwf
    simpa [parseBody, Shape.encode_c5] using parseC5_encode P rex.isSome l e reg hv hrm rest
  | c4 l x v e reg rm =>
    simp only [Shape.wf_c4, Bool.and_eq_true] at hwf
    obtain ⟨⟨-, hv⟩, hrm⟩ := hwf
    simpa [parseBody, Shape.encode_c4] using parseC4_encode P rex.isSome l e reg hv hrm rest

/-- After the prefixes a legacy sequence is read back, whatever follows it. -/
theorem parseBody_encode_legacy (mode : Mode) (P : List Byte) (rex : Option Rex) (e : Elem) (reg : BitVec 3) {rm : RmOp}
    (hrm : rm.wf = true) (rest : List Byte) :
    parseBody mode P rex (0x0F#8 :: e.opcode :: (encodeRm reg rm ++ rest)) = legacyVerdict P rex e reg rm := by
  simp [parseBody, parseOpcode_encode _ _ _ hrm]

/-- The encoding of a VEX shape begins with `C4` or `C5`. -/
theorem Shape.encode_vex {sh : Shape} (hvex : sh.isVex = true) :
    ∃ c bs, sh.encode = c :: bs ∧ isLegacyPrefix c = false ∧ isRexByte c = false := by
  cases sh with
  | legacy sse rex e reg rm => exact absurd hvex (by simp [Shape.isVex])
  | c5 l r v e reg rm => exact ⟨_, _, Shape.encode_c5 .., by decide, by decide⟩
  | c4 l x v e reg rm => exact ⟨_, _, Shape.encode_c4 .., by decide, by decide⟩

section
variable {mode : Mode} {P : List Byte} (hP : ∀ b ∈ P, isLegacyPrefix b = true)
include hP

/-- Legacy prefixes before the encoding of a legacy form without `66`: their verdict is `legacyVerdict`. -/
theorem decode_prefixes_encode_legacy {rex : Option Rex} {e : Elem} {reg : BitVec 3} {rm : RmOp}
    (hwf : (Shape.legacy false rex e reg rm).toInstr.wf mode = true) (rest : List Byte) :
    decode mode (P ++ ((Shape.legacy false rex e reg rm).encode ++ rest)) = legacyVerdict P rex e reg rm := by
  rw [Shape.wf_legacy, Bool.and_eq_true] at hwf
  obtain ⟨hmode, hrm⟩ := hwf
  cases rex with
  | none =>
    exact (decode_prefixes hP (by decide) (by decide) _).trans (parseBody_encode_legacy mode P none e reg hrm rest)
  | some rex =>
    obtain rfl : mode = .mode64 := by simpa using hmode
    refine (decode_prefixes_rex hP rex.isRexByte_toByte _).trans ?_
    rw [Rex.ofByte_toByte]
    exact parseBody_encode_legacy .mode64 P (some rex) e reg hrm rest

/-- Legacy prefixes before the encoding of a VEX form: their verdict is `vexVerdict`. -/
theorem decode_prefixes_encode_vex {i : Instr} (hvex : i.shape.isVex = true) (hwf : i.wf mode = true)
    (rest : List Byte) : decode mode (P ++ (encode i ++ rest)) = vexVerdict P false i.shape := by
  obtain ⟨c, bs, henc, hc, hrex⟩ := Shape.encode_vex hvex
  have hbody := parseBody_encode_vex hvex (by rwa [Instr.toInstr_shape]) P none rest
  rw [henc] at hbody
  rw [encode, henc]
  exact (decode_prefixes hP hc hrex _).trans hbody

/-- Legacy prefixes and a REX byte before the encoding of a VEX form: their verdict is `vexVerdict` (R60). -/
theorem decode_prefixes_rex_encode_vex {i : Instr} (hvex : i.shape.isVex = true) (hwf : i.wf .mode64 = true)
    {b : Byte} (hb : isRexByte b = true) (rest : List Byte) :
    decode .mode64 (P ++ b :: (encode i ++ rest)) = vexVerdict P true i.shape :=
  (decode_prefixes_rex hP hb _).trans
    (parseBody_encode_vex hvex (by rwa [Instr.toInstr_shape]) P (some (Rex.ofByte b)) rest)

end

/-- An operand has at most a SIB byte and four displacement bytes after its ModRM byte (R66, R69). -/
theorem RmOp.trailerLength_le (rm : RmOp) : rm.trailerLength ≤ 5 := by
  cases rm with
  | reg r => exact Nat.zero_le 5
  | mem m => cases m <;> simp [RmOp.trailerLength]

/-- No encoding is longer than ten bytes (R51 step 6, R76). -/
theorem encode_length_le (i : Instr) : (encode i).length ≤ 10 := by
  have hop := RmOp.trailerLength_le
  rw [encode, Shape.encode_length]
  cases i.shape with
  | legacy sse rex e reg rm =>
    have hsse := Bool.toNat_le sse
    have hrex := Bool.toNat_le rex.isSome
    have := hop rm
    simp only [Shape.length]
    omega
  | c5 l r v e reg rm => exact Nat.add_le_add (by decide : 4 ≤ 5) (hop rm)
  | c4 l x v e reg rm => exact Nat.add_le_add_left (hop rm) 5

/-! #### The verdicts on the bytes before a form -/

/-- The last row of R53, which comes first: some byte of R54 is in the list. -/
theorem any_isRefusedPrefix (P : List Byte) :
    P.any isRefusedPrefix = true ↔ ∃ b ∈ P, b ∈ [0x67#8, 0x26#8, 0x2E#8, 0x36#8, 0x3E#8, 0x64#8, 0x65#8] := by
  simp only [List.any_eq_true, isRefusedPrefix_iff]

/-- A VEX form after bytes of which none is refused, and at least one stands there, is `UD` (R60). -/
theorem vexVerdict_ud {P : List Byte} {hadRex : Bool} (sh : Shape)
    (hP : ∀ b ∈ P, b ∈ [0x66#8, 0xF2#8, 0xF3#8, 0xF0#8]) (hsome : P ≠ [] ∨ hadRex = true) :
    vexVerdict P hadRex sh = .ud := by
  have hrefused : P.any isRefusedPrefix = false := by
    have hnone : ∀ b ∈ [0x66#8, 0xF2#8, 0xF3#8, 0xF0#8], isRefusedPrefix b = false := by decide
    simpa using fun b hb => hnone b (hP b hb)
  rcases hsome with h | h <;> simp [vexVerdict, hrefused, h]

/-- A single legacy prefix that is none of R54, LOCK or a repeat prefix is `66`. -/
theorem eq_66_of_isLegacyPrefix {b : Byte} (h : isLegacyPrefix b = true)
    (hrefused : b ∉ [0x67#8, 0x26#8, 0x2E#8, 0x36#8, 0x3E#8, 0x64#8, 0x65#8])
    (hF0 : b ≠ 0xF0#8) (hF2 : b ≠ 0xF2#8) (hF3 : b ≠ 0xF3#8) : b = 0x66#8 := by
  rw [← isRefusedPrefix_iff] at hrefused
  simpa [isLegacyPrefix, hrefused, hF0, hF2, hF3] using h

/-- The legacy column of R53, row by row. -/
theorem legacyVerdict_table {P : List Byte} (hP : ∀ b ∈ P, isLegacyPrefix b = true) (rex : Option Rex) (e : Elem)
    (reg : BitVec 3) (rm : RmOp) :
    if ∃ b ∈ P, b ∈ [0x67#8, 0x26#8, 0x2E#8, 0x36#8, 0x3E#8, 0x64#8, 0x65#8] then
      legacyVerdict P rex e reg rm = .refused .badPrefixes
    else if 0xF0#8 ∈ P then legacyVerdict P rex e reg rm = .ud
    else if 0xF2#8 ∈ P ∨ 0xF3#8 ∈ P then legacyVerdict P rex e reg rm = .refused .badPrefixes
    else if P = [] then legacyVerdict P rex e reg rm = .instr (Shape.legacy false rex e reg rm).toInstr
    else if P = [0x66#8] then legacyVerdict P rex e reg rm = .instr (Shape.legacy true rex e reg rm).toInstr
    else legacyVerdict P rex e reg rm = .refused .badPrefixes := by
  simp only [legacyVerdict, any_isRefusedPrefix, List.contains_iff_mem, Bool.or_eq_true]
  split_ifs with hrefused hlock hrepeat hnil hsse
  · rfl
  · rfl
  · rfl
  · rw [hnil]
  · rw [hsse]
  · cases P with
    | nil => exact absurd rfl hnil
    | cons b P =>
      cases P with
      | cons c P => rfl
      | nil =>
        have hb : b = 0x66#8 := eq_66_of_isLegacyPrefix (hP b (by simp))
          (fun h => hrefused ⟨b, by simp, h⟩) (fun h => hlock (by simp [h]))
          (fun h => hrepeat (.inl (by simp [h]))) (fun h => hrepeat (.inr (by simp [h])))
        exact absurd (congrArg (fun c => [c]) hb) hsse

/-- The VEX column of R53, row by row. -/
theorem vexVerdict_table (P : List Byte) (sh : Shape) :
    if ∃ b ∈ P, b ∈ [0x67#8, 0x26#8, 0x2E#8, 0x36#8, 0x3E#8, 0x64#8, 0x65#8] then
      vexVerdict P false sh = .refused .badPrefixes
    else if P = [] then vexVerdict P false sh = .instr sh.toInstr
    else vexVerdict P false sh = .ud := by
  simp only [vexVerdict, any_isRefusedPrefix, Bool.not_false, Bool.and_true, List.isEmpty_iff]
  split_ifs <;> rfl

/-- Settles O10: both columns are the decoder's verdicts, row by row. -/
theorem legacyPrefixTable : Obligations.LegacyPrefixTable := by
  intro mode P rest _ hP
  replace hP : ∀ b ∈ P, isLegacyPrefix b = true := fun b hb => (isLegacyPrefix_iff b).2 (hP b hb)
  refine ⟨fun rex e reg rm hwf => ?_, fun i hwf hcls => ?_⟩
  · rw [List.append_assoc, decode_prefixes_encode_legacy hP hwf]
    exact legacyVerdict_table hP rex e reg rm
  · rw [List.append_assoc, decode_prefixes_encode_vex hP (Instr.isVex_of_formClass hcls) hwf]
    have h := vexVerdict_table P i.shape
    rw [Instr.toInstr_shape] at h
    exact h

end Sys2Proof

namespace Sys2Proof.Machine

/-! #### A step over bytes that can be fetched -/

/-- Bytes that stand from byte `k` of the instruction on, each of which can be fetched, are what is fetched first. -/
theorem State.fetchFrom_startsWith (s : State) (bytes : List Byte) {n k : Nat} (hn : bytes.length ≤ n)
    (h : ∀ j (hj : j < bytes.length),
      s.access .fetch (s.byteAddr s.rip (k + j)) 1 = none ∧ s.readByte (s.byteAddr s.rip (k + j)) = bytes[j]) :
    bytes <+: s.fetchFrom n k := by
  induction bytes generalizing n k with
  | nil => exact List.nil_prefix
  | cons b bs ih =>
    obtain ⟨n, rfl⟩ : ∃ m, n = m + 1 := ⟨n - 1, by simp at hn; omega⟩
    obtain ⟨haccess, hbyte⟩ := h 0 (by simp)
    simp only [Nat.add_zero, List.getElem_cons_zero] at haccess hbyte
    rw [State.fetchFrom, haccess, hbyte, List.cons_prefix_cons]
    refine ⟨rfl, ih (by simpa using hn) fun j hj => ?_⟩
    rw [Nat.add_assoc, Nat.add_comm 1 j]
    exact h (j + 1) (by simpa using hj)

/-- Up to fifteen bytes that stand at `RIP` and can be fetched are the first the decoder sees (R42, R52). -/
theorem CodeAt.fetchWindow_startsWith {s : State} {bytes : List Byte} (h : CodeAt s bytes)
    (hlen : bytes.length ≤ maxLen) :
    bytes <+: s.fetchWindow :=
  s.fetchFrom_startsWith bytes hlen fun j hj => by simpa using h j hj

/-- A step whose bytes decode to `UD` raises #UD (R75). -/
theorem step_of_decode_ud {s : State} (hl : launchRefusal s = none) (h : decode s.cfg.mode s.fetchWindow = .ud) :
    step s = .fault (.ud s.rip) := by
  simp [step, hl, h, raise, Stop.outcome]

/-- Bytes at `RIP` that are `UD` whatever follows them raise #UD. -/
theorem step_of_codeAt_ud {s : State} {bytes : List Byte} (hl : launchRefusal s = none) (hcode : CodeAt s bytes)
    (hlen : bytes.length ≤ maxLen) (hud : ∀ rest, decode s.cfg.mode (bytes ++ rest) = .ud) :
    step s = .fault (.ud s.rip) := by
  obtain ⟨rest, hwindow⟩ := hcode.fetchWindow_startsWith hlen
  exact step_of_decode_ud hl (hwindow ▸ hud rest)

/-- Settles O11: the verdict on a VEX form after such bytes is `UD` whatever follows, and up to fifteen bytes are in the
decoder's window. -/
theorem prefixedVexRaisesUd : Obligations.PrefixedVexRaisesUd := by
  intro s i P hl hwf hcls hP
  have hvex := Instr.isVex_of_formClass hcls
  have hlen := encode_length_le i
  have hlegacy : ∀ b ∈ P, isLegacyPrefix b = true := by
    have hall : ∀ b ∈ [0x66#8, 0xF2#8, 0xF3#8, 0xF0#8], isLegacyPrefix b = true := by decide
    exact fun b hb => hall b (hP b hb)
  refine ⟨fun hne => ?_, fun b hmode hlo hhi => ?_⟩
  · have hud : ∀ rest, decode s.cfg.mode (P ++ encode i ++ rest) = .ud := fun rest => by
      rw [List.append_assoc, decode_prefixes_encode_vex hlegacy hvex hwf, vexVerdict_ud _ hP (.inl hne)]
    refine ⟨hud, fun hshort hcode => step_of_codeAt_ud hl hcode ?_ hud⟩
    simp only [List.length_append, maxLen]
    omega
  · have hud : ∀ rest, decode s.cfg.mode (P ++ [b] ++ encode i ++ rest) = .ud := fun rest => by
      rw [hmode] at hwf ⊢
      rw [List.append_assoc, List.append_assoc, List.singleton_append,
        decode_prefixes_rex_encode_vex hlegacy hvex hwf ((isRexByte_iff b).2 ⟨hlo, hhi⟩),
        vexVerdict_ud _ hP (.inr rfl)]
    refine ⟨hud, fun hshort hcode => step_of_codeAt_ud hl hcode ?_ hud⟩
    simp only [List.length_append, List.length_singleton, maxLen]
    omega

end Sys2Proof.Machine


/-! ### The lane-wise sum (spec/40_padd_legacy.md R100) -/

namespace Sys2Proof.Machine

/-- Bit `j` of a value is bit `j % w` of its lane `j / w`. -/
theorem getLsbD_lane {w N : Nat} (hw : 0 < w) (v : BitVec N) (j : Nat) :
    (lane w v (j / w)).getLsbD (j % w) = v.getLsbD j := by
  simp [lane, Nat.mod_lt j hw, Nat.div_add_mod]

/-- Lanes that fill the width determine the value. -/
theorem eq_of_lane_eq {w N : Nat} (hdvd : w ∣ N) {u v : BitVec N} (h : ∀ k < N / w, lane w u k = lane w v k) :
    u = v := by
  refine BitVec.eq_of_getLsbD_eq fun j hj => ?_
  have hw : 0 < w := Nat.pos_of_dvd_of_pos hdvd (by omega)
  have hk : j / w < N / w := Nat.div_lt_div_of_lt_of_dvd hdvd hj
  rw [← getLsbD_lane hw u, ← getLsbD_lane hw v, h _ hk]

/-- Lane-wise sums have one solution where the lanes fill the width, and it is `padd`. -/
theorem eq_padd_iff_laneSums {w N : Nat} (hdvd : w ∣ N) (r a b : BitVec N) : r = padd w N a b ↔ LaneSums w N r a b := by
  constructor
  · rintro rfl k hk
    exact lane_padd w N k a b hk
  · intro h
    exact eq_of_lane_eq hdvd fun k hk => (h k hk).trans (lane_padd w N k a b hk).symm

/-- `LaneSums` in numbers: a sum of words wraps modulo 2^w. -/
theorem laneSums_iff_toNat (w N : Nat) (r a b : BitVec N) :
    LaneSums w N r a b ↔
      ∀ k < N / w, (lane w r k).toNat = ((lane w a k).toNat + (lane w b k).toNat) % 2 ^ w :=
  forall₂_congr fun _ _ => by rw [BitVec.toNat_eq, BitVec.toNat_add]

/-- Every lane width of the forms divides every operand width (R100). -/
theorem laneWidth_dvd {w N : Nat} (hw : w = 8 ∨ w = 16 ∨ w = 32) (hN : N = 64 ∨ N = 128 ∨ N = 256) : w ∣ N := by
  have h32 : w ∣ 32 := by rcases hw with rfl | rfl | rfl <;> decide
  have h32N : 32 ∣ N := by rcases hN with rfl | rfl | rfl <;> decide
  exact h32.trans h32N

/-- Settles O16, by the one solution that lane-wise sums have, with the words read as numbers. -/
theorem paddIsTheLanewiseSum : Obligations.PaddIsTheLanewiseSum := fun w N a b r hw hN =>
  (eq_padd_iff_laneSums (laneWidth_dvd hw hN) r a b).trans (laneSums_iff_toNat w N r a b)

end Sys2Proof.Machine

/-! ### Which faults a form raises, and when (spec/60_exceptions.md R142 to R148, R151, R152)

A form's fault is one of `Precheck` or, once that has passed, one of the checks on its memory operand. Each of the two
says once which faults it raises and under which conditions; the statements about a fault read one of their cases. -/

namespace Sys2Proof.Machine

/-- What an exception that is taken reports is the exception at `RIP` (R150). -/
@[simp] theorem raise_eq_fault_iff {exception : Addr → Fault} {s : State} {f : Fault} :
    raise exception s = .fault f ↔ f = exception s.rip := by
  rw [raise, Stop.fault.injEq, eq_comm]

section
variable {cls : FormClass} {s : State} {f : Fault}

/-- The faults of `Precheck` in their order: #UD, then #NM, then for the MMX forms #MF (R151). -/
theorem precheck_fault_iff :
    precheck cls s = some (.fault f) ↔
      launchRefusal s = none ∧
      ((udCondition cls s = true ∧ f = .ud s.rip) ∨
       (udCondition cls s = false ∧ s.cfg.env.cr0Ts = true ∧ f = .nm s.rip) ∨
       (udCondition cls s = false ∧ s.cfg.env.cr0Ts = false ∧ cls = .mmx ∧ s.cfg.env.x87Pending = true ∧
         f = .mf s.rip)) := by
  unfold precheck
  cases launchRefusal s with
  | some r => simp
  | none =>
    cases udCondition cls s with
    | true => simp
    | false =>
      cases s.cfg.env.cr0Ts with
      | true => simp
      | false => simp [and_assoc]

/-- The faults of `ReadSrc`'s checks in their order: the alignment of the legacy SSE forms, the platform, the alignment
check of the MMX forms (R152). -/
theorem readCheck_fault_iff {n : Nat} {a : Addr} :
    readCheck cls n a s = some (.fault f) ↔
      ((cls = .sse ∧ a.toNat % 16 ≠ 0) ∧ f = .gp s.rip) ∨
      (¬ (cls = .sse ∧ a.toNat % 16 ≠ 0) ∧
        (s.access .read a n = some (.fault f) ∨
         (s.access .read a n = none ∧ s.touchesDevice a n = false ∧
           (cls = .mmx ∧ s.cfg.env.acCheck = true ∧ a.toNat % 8 ≠ 0) ∧ f = .ac s.rip))) := by
  unfold readCheck
  by_cases halign : cls = .sse ∧ a.toNat % 16 ≠ 0
  · simp [halign.1, halign.2]
  · rw [if_neg halign]
    simp only [halign, false_and, false_or, not_false_eq_true, true_and]
    cases s.access .read a n with
    | some stop => simp
    | none =>
      cases s.touchesDevice a n with
      | true => simp
      | false => simp

/-- The platform raises #SS, #GP or #PF only (R149). -/
theorem PlatFault.toFault_vector (p : PlatFault) (addr rip : Addr) :
    (PlatFault.toFault p addr rip).vector ∈ [12, 13, 14] := by
  cases p <;> simp [PlatFault.toFault, Fault.vector]

/-- The checks on a memory operand raise none of the faults of `Precheck`. -/
theorem readCheck_fault_vector {n : Nat} {a : Addr} (h : readCheck cls n a s = some (.fault f)) :
    f.vector ∈ [12, 13, 14, 17] := by
  obtain ⟨-, rfl⟩ | ⟨-, haccess | ⟨-, -, -, rfl⟩⟩ := readCheck_fault_iff.1 h
  · simp [Fault.vector]
  · obtain ⟨k, p, -, -, -, hstop⟩ := (State.access_some ..).1 haccess
    obtain rfl := Stop.fault.inj hstop
    exact List.mem_append_left [17] (PlatFault.toFault_vector p _ _)
  · simp [Fault.vector]

end

section
variable {i : Instr} {s : State} {f : Fault}

/-- A form's fault is one of `Precheck`, or one of the checks on its memory operand (R151, R152). -/
theorem exec_fault_iff :
    exec i s = .fault f ↔
      precheck i.formClass s = some (.fault f) ∨
      (precheck i.formClass s = none ∧ ∃ m, i.rmOp = .mem m ∧
        readCheck i.formClass i.formClass.operandBytes (s.linearAddr i.ext i.length m) s = some (.fault f)) := by
  obtain ⟨N, reg, finish, hN, hexec, -⟩ := exec_runForm i s
  rw [hexec, runForm]
  cases precheck i.formClass s with
  | some stop => cases stop <;> simp [Stop.outcome]
  | none =>
    cases i.rmOp with
    | reg r => simp [readSrc]
    | mem m =>
      simp only [readSrc, hN]
      cases hread : readCheck i.formClass i.formClass.operandBytes (s.linearAddr i.ext i.length m) s with
      | none => simp [hread]
      | some stop => cases stop <;> simp [hread, Stop.outcome]

/-- In a launch that is not refused a form raises #UD exactly when one of its conditions holds: no other check of it
raises #UD. -/
theorem exec_ud_iff (hl : launchRefusal s = none) :
    exec i s = .fault (.ud s.rip) ↔ udCondition i.formClass s = true := by
  rw [exec_fault_iff, precheck_fault_iff]
  constructor
  · rintro (⟨-, hud⟩ | ⟨-, m, -, hread⟩)
    · simpa using hud
    · exact absurd (readCheck_fault_vector hread) (by simp [Fault.vector])
  · exact fun hud => .inl ⟨hl, .inl ⟨hud, rfl⟩⟩

end

/-! #### LOCK before a legacy form (spec/60_exceptions.md R142, R143) -/

/-- A legacy form after LOCK, and after its `66` byte if it has one, is `UD` (R53). -/
theorem legacyVerdict_lock (sse : Bool) (rex : Option Rex) (e : Elem) (reg : BitVec 3) (rm : RmOp) :
    legacyVerdict (0xF0#8 :: if sse then [0x66#8] else []) rex e reg rm = .ud := by
  cases sse <;> rfl

/-- The instructions of the two legacy classes are those of the legacy family. -/
theorem exists_legacy_of_formClass {i : Instr} (h : i.formClass = .mmx ∨ i.formClass = .sse) :
    ∃ sse rex e reg rm, i.shape = .legacy sse rex e reg rm := by
  rw [Instr.formClass] at h
  cases hsh : i.shape with
  | legacy sse rex e reg rm => exact ⟨sse, rex, e, reg, rm, rfl⟩
  | c5 l r v e reg rm => rw [hsh] at h; cases l <;> simp at h
  | c4 l x v e reg rm => rw [hsh] at h; cases l <;> simp at h

/-- LOCK before the encoding of a legacy form is `UD`, whatever follows it. -/
theorem decode_lock_encode {mode : Mode} {i : Instr} (hcls : i.formClass = .mmx ∨ i.formClass = .sse)
    (hwf : i.wf mode = true) (rest : List Byte) : decode mode (0xF0#8 :: encode i ++ rest) = .ud := by
  obtain ⟨sse, rex, e, reg, rm, hsh⟩ := exists_legacy_of_formClass hcls
  have hwf' : (Shape.legacy false rex e reg rm).toInstr.wf mode = true := by
    rw [← Instr.toInstr_shape i, hsh, Shape.wf_legacy] at hwf
    rwa [Shape.wf_legacy]
  have hP : ∀ b ∈ 0xF0#8 :: (if sse then [0x66#8] else []), isLegacyPrefix b = true := by cases sse <;> decide
  have hbytes : 0xF0#8 :: encode i ++ rest =
      (0xF0#8 :: if sse then [0x66#8] else []) ++ ((Shape.legacy false rex e reg rm).encode ++ rest) := by
    rw [encode, hsh]
    simp [Shape.encode]
  rw [hbytes, decode_prefixes_encode_legacy hP hwf', legacyVerdict_lock]

/-- A step over LOCK and a legacy form raises #UD. -/
theorem step_lock_encode {s : State} {i : Instr} (hl : launchRefusal s = none)
    (hcls : i.formClass = .mmx ∨ i.formClass = .sse) (hwf : i.wf s.cfg.mode = true)
    (hcode : CodeAt s (0xF0#8 :: encode i)) : step s = .fault (.ud s.rip) := by
  refine step_of_codeAt_ud hl hcode ?_ (decode_lock_encode hcls hwf)
  have hlen := encode_length_le i
  simp only [List.length_cons, maxLen]
  omega

/-! #### The statements -/

/-- Settles O35: `exec_ud_iff` at the MMX class, and LOCK by the decoder. -/
theorem mmxFormsRaiseUd : Obligations.MmxFormsRaiseUd := by
  intro s i hl hcls
  refine ⟨?_, step_lock_encode hl (.inl hcls)⟩
  rw [exec_ud_iff hl, hcls]
  simp [udCondition]

/-- Settles O36: `exec_ud_iff` at the legacy SSE class, and LOCK by the decoder. -/
theorem sseFormsRaiseUd : Obligations.SseFormsRaiseUd := by
  intro s i hl hcls
  refine ⟨?_, step_lock_encode hl (.inr hcls)⟩
  rw [exec_ud_iff hl, hcls]
  simp [udCondition, or_assoc]

/-- Settles O38: the #NM case of `Precheck`. -/
theorem taskSwitchedRaisesNm : Obligations.TaskSwitchedRaisesNm := fun _ _ hl hud hts =>
  exec_fault_iff.2 (.inl (precheck_fault_iff.2 ⟨hl, .inr (.inl ⟨hud, hts, rfl⟩)⟩))

/-- Settles O39: #MF is the last case of `Precheck`, which names the MMX class, and no case of the checks on a memory
operand. -/
theorem pendingX87RaisesMfInMmxFormsOnly : Obligations.PendingX87RaisesMfInMmxFormsOnly := by
  refine fun s i => ⟨fun hl hcls hud hts hmf => ?_, fun hcls rip hexec => ?_⟩
  · rw [← hcls] at hud
    exact exec_fault_iff.2 (.inl (precheck_fault_iff.2 ⟨hl, .inr (.inr ⟨hud, hts, hcls, hmf, rfl⟩)⟩))
  · rcases exec_fault_iff.1 hexec with hpre | ⟨-, m, -, hread⟩
    · obtain ⟨-, ⟨-, hf⟩ | ⟨-, -, hf⟩ | ⟨-, -, hmmx, -⟩⟩ := precheck_fault_iff.1 hpre
      · cases hf
      · cases hf
      · exact hcls hmmx
    · exact absurd (readCheck_fault_vector hread) (by simp [Fault.vector])

/-- Settles O41: the first of the checks on a memory operand, before the platform is asked. -/
theorem misalignedSseOperandRaisesGp : Obligations.MisalignedSseOperandRaisesGp := by
  intro s i m hcls hm henabled halign
  have hpre : precheck i.formClass s = none := hcls ▸ henabled.precheck
  exact exec_fault_iff.2 (.inr ⟨hpre, m, hm, readCheck_fault_iff.2 (.inl ⟨⟨hcls, halign⟩, rfl⟩)⟩)

end Sys2Proof.Machine

/-! ### Decoding gives back what was encoded (spec/30_encoding.md R51, R71 to R73) -/

namespace Sys2Proof

/-- A legacy form of the SSE2 class is the MMX form after a `66` byte (R71). -/
theorem Shape.encode_legacy (sse : Bool) (rex : Option Rex) (e : Elem) (reg : BitVec 3) (rm : RmOp) :
    (Shape.legacy sse rex e reg rm).encode =
      (if sse then [0x66#8] else []) ++ (Shape.legacy false rex e reg rm).encode := by
  simp [Shape.encode]

/-- After no legacy prefix a legacy sequence is the MMX form, after one `66` byte the SSE2 form (R53). -/
theorem legacyVerdict_sse (sse : Bool) (rex : Option Rex) (e : Elem) (reg : BitVec 3) (rm : RmOp) :
    legacyVerdict (if sse then [0x66#8] else []) rex e reg rm = .instr (Shape.legacy sse rex e reg rm).toInstr := by
  cases sse <;> rfl

/-- The decoder is a left inverse of the encoder on the instructions of the mode, whatever bytes follow. -/
theorem decode_encode {mode : Mode} {i : Instr} (hwf : i.wf mode = true) (rest : List Byte) :
    decode mode (encode i ++ rest) = .instr i := by
  have hvex (hsh : i.shape.isVex = true) : decode mode (encode i ++ rest) = .instr i := by
    refine (decode_prefixes_encode_vex (P := []) (by simp) hsh hwf rest).trans ?_
    simp [vexVerdict]
  cases hsh : i.shape with
  | legacy sse rex e reg rm =>
    have hwf' : (Shape.legacy false rex e reg rm).toInstr.wf mode = true := by
      rw [← Instr.toInstr_shape i, hsh, Shape.wf_legacy] at hwf
      rwa [Shape.wf_legacy]
    have hP : ∀ b ∈ (if sse then [0x66#8] else []), isLegacyPrefix b = true := by cases sse <;> decide
    rw [encode, hsh, Shape.encode_legacy, List.append_assoc, decode_prefixes_encode_legacy hP hwf',
      legacyVerdict_sse, ← hsh, Instr.toInstr_shape]
  | c5 l r v e reg rm => exact hvex (by rw [hsh]; rfl)
  | c4 l x v e reg rm => exact hvex (by rw [hsh]; rfl)

/-- Settles O5, by the decoder's verdict on the encoding after its own prefix bytes. -/
theorem decodeOfEncodeIsTheInstruction : Obligations.DecodeOfEncodeIsTheInstruction := fun _ _ rest hwf =>
  decode_encode hwf rest

/-! #### What the decoder has read when it answers an instruction

Each stage of the decoder that answers an instruction has read it off the first bytes: what follows them does not
matter, and the fields it read are those an encoding of the mode can hold. -/

/-- A four-byte displacement is read off four bytes (R69). -/
theorem map_takeDisp32_some {α : Type} {f : BitVec 32 × List Byte → α} {bs : List Byte} {y : α}
    (h : (takeDisp32 bs).map f = some y) :
    ∃ d0 d1 d2 d3 tail, bs = d0 :: d1 :: d2 :: d3 :: tail ∧ f (d3 ++ d2 ++ d1 ++ d0, tail) = y := by
  match bs, h with
  | d0 :: d1 :: d2 :: d3 :: tail, h => exact ⟨d0, d1, d2, d3, tail, rfl, Option.some.inj h⟩

/-- A one-byte displacement is read off one byte (R69). -/
theorem map_takeDisp8_some {α : Type} {f : BitVec 8 × List Byte → α} {bs : List Byte} {y : α}
    (h : (takeDisp8 bs).map f = some y) : ∃ d tail, bs = d :: tail ∧ f (d, tail) = y := by
  cases bs with
  | nil => cases h
  | cons d tail => exact ⟨d, tail, rfl, Option.some.inj h⟩

/-- The operand of a SIB byte is a row of R66, and it was read off the bytes that belong to it. -/
theorem parseSib_some {mod : BitVec 2} {sib : Byte} {bs tail : List Byte} {rm : RmOp}
    (h : parseSib mod sib bs = some (rm, tail)) :
    rm.wf = true ∧ ∃ n, rm.trailerLength = n + 1 ∧ n ≤ bs.length ∧
      ∀ rest, parseSib mod sib (bs.take n ++ rest) = some (rm, rest) := by
  simp only [parseSib] at h
  split_ifs at h with h0 h5 h1
  · obtain ⟨d0, d1, d2, d3, _, rfl, ⟨⟩⟩ := map_takeDisp32_some h
    exact ⟨rfl, 4, rfl, by simp, fun rest => by simp [parseSib, takeDisp32, h0, h5]⟩
  · obtain ⟨rfl, rfl⟩ : _ = rm ∧ bs = tail := by simpa using h
    exact ⟨by simpa [RmOp.wf, MemForm.wf] using h5, 0, rfl, by simp, fun rest => by simp [parseSib, h0, h5]⟩
  · obtain ⟨d, _, rfl, ⟨⟩⟩ := map_takeDisp8_some h
    exact ⟨rfl, 1, rfl, by simp, fun rest => by simp [parseSib, takeDisp8, h1]⟩
  · obtain ⟨d0, d1, d2, d3, _, rfl, ⟨⟩⟩ := map_takeDisp32_some h
    exact ⟨rfl, 4, rfl, by simp, fun rest => by simp [parseSib, takeDisp32, h0, h1]⟩

/-- An operand is a row of R66, and it was read off its trailer. -/
theorem parseRm_some {mod : BitVec 2} {r : BitVec 3} {bs tail : List Byte} {rm : RmOp}
    (h : parseRm mod r bs = some (rm, tail)) :
    rm.wf = true ∧ rm.trailerLength ≤ bs.length ∧
      ∀ rest, parseRm mod r (bs.take rm.trailerLength ++ rest) = some (rm, rest) := by
  unfold parseRm at h
  split_ifs at h with h3 h4 h0 h5 h1
  · obtain ⟨rfl, rfl⟩ : RmOp.reg r = rm ∧ bs = tail := by simpa using h
    exact ⟨rfl, Nat.zero_le _, fun rest => by simp [parseRm, RmOp.trailerLength, h3]⟩
  · cases bs with
    | nil => cases h
    | cons sib bs =>
      obtain ⟨hwf, n, hn, hle, hread⟩ := parseSib_some h
      refine ⟨hwf, by simpa [hn] using hle, fun rest => ?_⟩
      rw [hn, List.take_succ_cons, List.cons_append, parseRm, if_neg h3, if_pos h4]
      exact hread rest
  · obtain ⟨d0, d1, d2, d3, _, rfl, ⟨⟩⟩ := map_takeDisp32_some h
    exact ⟨rfl, by simp [RmOp.trailerLength], fun rest => by
      simp [parseRm, takeDisp32, RmOp.trailerLength, h0, h5]⟩
  · obtain ⟨rfl, rfl⟩ : _ = rm ∧ bs = tail := by simpa using h
    exact ⟨by simp [RmOp.wf, MemForm.wf, h4, h5], Nat.zero_le _, fun rest => by
      simp [parseRm, RmOp.trailerLength, h4, h0, h5]⟩
  · obtain ⟨d, _, rfl, ⟨⟩⟩ := map_takeDisp8_some h
    exact ⟨by simp [RmOp.wf, MemForm.wf, h4], by simp [RmOp.trailerLength], fun rest => by
      simp [parseRm, takeDisp8, RmOp.trailerLength, h4, h1]⟩
  · obtain ⟨d0, d1, d2, d3, _, rfl, ⟨⟩⟩ := map_takeDisp32_some h
    exact ⟨by simp [RmOp.wf, MemForm.wf, h4], by simp [RmOp.trailerLength], fun rest => by
      simp [parseRm, takeDisp32, RmOp.trailerLength, h3, h4, h0, h1]⟩

/-- The opcode is one of the three, the operand a row of R66, and nothing after the operand was read. -/
theorem parseOpcode_instr {finish : Elem → BitVec 3 → RmOp → Decoded} {bs : List Byte} {i : Instr}
    (h : parseOpcode finish bs = .instr i) :
    ∃ e reg rm, finish e reg rm = .instr i ∧ rm.wf = true ∧ 2 + rm.trailerLength ≤ bs.length ∧
      ∀ rest, parseOpcode finish (bs.take (2 + rm.trailerLength) ++ rest) = .instr i := by
  match bs, h with
  | [op], h =>
    simp only [parseOpcode] at h
    split at h <;> cases h
  | op :: modrm :: bs, h =>
    simp only [parseOpcode] at h
    cases hop : Elem.ofOpcode op with
    | none => simp [hop] at h
    | some e =>
      cases hparse : parseRm (modrm.extractLsb' 6 2) (modrm.extractLsb' 0 3) bs with
      | none => simp [hop, hparse] at h
      | some p =>
        obtain ⟨rm, tail⟩ := p
        obtain ⟨hwf, hle, hread⟩ := parseRm_some hparse
        have hfinish : finish e (modrm.extractLsb' 3 3) rm = .instr i := by simpa [hop, hparse] using h
        refine ⟨e, _, rm, hfinish, hwf, by simpa [Nat.add_comm 2] using hle, fun rest => ?_⟩
        simp [Nat.add_comm 2, parseOpcode, hop, hread, hfinish]

/-- The legacy prefixes before an instruction are none for an MMX form and one byte for an SSE2 form (R53). -/
theorem legacyVerdict_instr {P : List Byte} {rex : Option Rex} {e : Elem} {reg : BitVec 3} {rm : RmOp} {i : Instr}
    (h : legacyVerdict P rex e reg rm = .instr i) :
    ∃ sse : Bool, i = (Shape.legacy sse rex e reg rm).toInstr ∧ P.length = sse.toNat := by
  unfold legacyVerdict at h
  split_ifs at h
  match P, h with
  | [], h => exact ⟨false, (Decoded.instr.inj h).symm, rfl⟩
  | [_], h => exact ⟨true, (Decoded.instr.inj h).symm, rfl⟩

/-- Nothing stands before a VEX prefix (R53, R60). -/
theorem vexVerdict_instr {P : List Byte} {hadRex : Bool} {sh : Shape} {i : Instr}
    (h : vexVerdict P hadRex sh = .instr i) : P = [] ∧ hadRex = false ∧ i = sh.toInstr := by
  unfold vexVerdict at h
  split_ifs at h with _ hnone
  simp only [Bool.and_eq_true, List.isEmpty_iff, Bool.not_eq_true'] at hnone
  exact ⟨hnone.1, hnone.2, (Decoded.instr.inj h).symm⟩

/-- `p`, standing after `before` bytes of the instruction, reads the rest of it off the first of the bytes `bs` and no
others, and the instruction is one of the mode. -/
def Reads (mode : Mode) (p : List Byte → Decoded) (before : Nat) (bs : List Byte) (i : Instr) : Prop :=
  (mode.modelled = true → i.wf mode = true) ∧
    ∃ n, before + n = i.length ∧ n ≤ bs.length ∧ ∀ rest, p (bs.take n ++ rest) = .instr i

/-- A stage that passes on what follows its own bytes reads them and what the next stage reads. -/
theorem Reads.append {mode : Mode} {p q : List Byte → Decoded} {before : Nat} {own bs : List Byte} {i : Instr}
    (h : Reads mode p (before + own.length) bs i) (hq : ∀ rest, q (own ++ rest) = p rest) :
    Reads mode q before (own ++ bs) i := by
  obtain ⟨hwf, n, hlen, hle, hread⟩ := h
  refine ⟨hwf, own.length + n, by omega, by simpa using hle, fun rest => ?_⟩
  rw [List.take_length_add_append, List.append_assoc, hq, hread]

theorem Shape.length_toInstr (sh : Shape) : sh.toInstr.length = sh.length := by
  rw [Instr.length, Shape.shape_toInstr]

/-- What a two-byte VEX prefix says of what follows it (R56, R57, R59). -/
theorem parseC5_cons (mode : Mode) (P : List Byte) (hadRex : Bool) (v1 : Byte) (bs : List Byte) :
    parseC5 mode P hadRex (v1 :: bs) =
      if mode ≠ .mode64 ∧ v1.extractLsb' 6 2 ≠ 3#2 then .refused .outOfScope
      else if v1.extractLsb' 0 2 ≠ 1#2 then .refused .outOfScope
      else parseOpcode (fun e reg rm =>
        vexVerdict P hadRex (.c5 (v1[2]) (!v1[7]) (~~~(v1.extractLsb' 3 4)) e reg rm)) bs := rfl

/-- The bits `R`, `X`, `B`, `W` and the register `vvvv` of a three-byte VEX prefix as the mode reads them (R56, R57). -/
def vex3Fields (mode : Mode) (v1 v2 : Byte) : Vex3 × BitVec 4 :=
  if mode = .mode64 then (⟨!v1[7], !v1[6], !v1[5], v2[7]⟩, ~~~(v2.extractLsb' 3 4))
  else vexMode32 ⟨!v1[7], !v1[6], !v1[5], v2[7]⟩ (~~~(v2.extractLsb' 3 4))

/-- What a three-byte VEX prefix says of what follows it (R56, R57, R59). -/
theorem parseC4_cons_cons (mode : Mode) (P : List Byte) (hadRex : Bool) (v1 v2 : Byte) (bs : List Byte) :
    parseC4 mode P hadRex (v1 :: v2 :: bs) =
      if mode ≠ .mode64 ∧ v1.extractLsb' 6 2 ≠ 3#2 then .refused .outOfScope
      else if v1.extractLsb' 0 5 ≠ 1#5 ∨ v2.extractLsb' 0 2 ≠ 1#2 then .refused .outOfScope
      else parseOpcode (fun e reg rm =>
        vexVerdict P hadRex (.c4 (v2[2]) (vex3Fields mode v1 v2).1 (vex3Fields mode v1 v2).2 e reg rm)) bs := rfl

/-- Outside `MODE64` bits 7:6 of a two-byte prefix leave no register above 7 to name (R57). -/
theorem vexExtensionWf_c5 {mode : Mode} {v1 : Byte} (h : ¬(mode ≠ .mode64 ∧ v1.extractLsb' 6 2 ≠ 3#2)) :
    vexExtensionWf mode (!v1[7]) false false (~~~(v1.extractLsb' 3 4)) = true := by
  have hbits : ∀ v : Byte, v.extractLsb' 6 2 = 3#2 → (!v[7]) = false ∧ (~~~(v.extractLsb' 3 4)).msb = false := by
    decide
  by_cases hm : mode = .mode64
  · simp [vexExtensionWf, hm]
  · obtain ⟨hr, hv⟩ := hbits v1 (by simpa [hm] using h)
    rw [vexExtensionWf, hr, hv]
    simp

/-- Outside `MODE64` bits 7:6 of a three-byte prefix, and the bits the mode ignores, leave no register above 7 to name
(R57). -/
theorem vexExtensionWf_c4 {mode : Mode} {v1 : Byte} (h : ¬(mode ≠ .mode64 ∧ v1.extractLsb' 6 2 ≠ 3#2)) (v2 : Byte) :
    vexExtensionWf mode (vex3Fields mode v1 v2).1.r (vex3Fields mode v1 v2).1.x (vex3Fields mode v1 v2).1.b
      (vex3Fields mode v1 v2).2 = true := by
  have hbits : ∀ v : Byte, v.extractLsb' 6 2 = 3#2 → (!v[7]) = false ∧ (!v[6]) = false := by decide
  have hmsb : ∀ v : BitVec 4, (v &&& 7#4).msb = false := by decide
  by_cases hm : mode = .mode64
  · simp [vexExtensionWf, hm]
  · obtain ⟨hr, hx⟩ := hbits v1 (by simpa [hm] using h)
    rw [vex3Fields, if_neg hm, vexMode32, vexExtensionWf, hr, hx, hmsb]
    simp

/-- An instruction read after `C5` is one of the mode, read off the bytes that belong to it. -/
theorem parseC5_instr {mode : Mode} {P : List Byte} {hadRex : Bool} {bs : List Byte} {i : Instr}
    (h : parseC5 mode P hadRex bs = .instr i) :
    Reads mode (parseC5 mode P hadRex) (P.length + hadRex.toNat + 1) bs i := by
  cases bs with
  | nil => cases h
  | cons v1 bs =>
    rw [parseC5_cons] at h
    split_ifs at h with hmode hpp
    obtain ⟨e, reg, rm, hfinish, hrm, hle, hread⟩ := parseOpcode_instr h
    obtain ⟨rfl, rfl, rfl⟩ := vexVerdict_instr hfinish
    refine Reads.append (own := [v1]) ⟨fun hmod => ?_, _, ?_, hle, hread⟩ fun rest => ?_
    · rw [Shape.wf_c5, hmod, hrm, vexExtensionWf_c5 hmode]
      rfl
    · simp only [Shape.length_toInstr, Shape.length, List.length_nil, List.length_singleton, Bool.toNat_false]
      omega
    · exact (parseC5_cons ..).trans ((if_neg hmode).trans (if_neg hpp))

/-- An instruction read after `C4` is one of the mode, read off the bytes that belong to it. -/
theorem parseC4_instr {mode : Mode} {P : List Byte} {hadRex : Bool} {bs : List Byte} {i : Instr}
    (h : parseC4 mode P hadRex bs = .instr i) :
    Reads mode (parseC4 mode P hadRex) (P.length + hadRex.toNat + 1) bs i := by
  match bs, h with
  | [v1], h =>
    rw [parseC4] at h
    split_ifs at h
  | v1 :: v2 :: bs, h =>
    rw [parseC4_cons_cons] at h
    split_ifs at h with hmode hpp
    obtain ⟨e, reg, rm, hfinish, hrm, hle, hread⟩ := parseOpcode_instr h
    obtain ⟨rfl, rfl, rfl⟩ := vexVerdict_instr hfinish
    refine Reads.append (own := [v1, v2]) ⟨fun hmod => ?_, _, ?_, hle, hread⟩ fun rest => ?_
    · rw [Shape.wf_c4, hmod, hrm, vexExtensionWf_c4 hmode]
      rfl
    · simp only [Shape.length_toInstr, Shape.length, List.length_nil, List.length_cons, Bool.toNat_false]
      omega
    · exact (parseC4_cons_cons ..).trans ((if_neg hmode).trans (if_neg hpp))

/-- What follows the legacy prefixes and REX begins with a byte after which the rest is read; a REX byte stands in
`MODE64` only (R55). -/
theorem parseBody_instr {mode : Mode} {P : List Byte} {rex : Option Rex} {bs : List Byte} {i : Instr}
    (hrex : rex.isSome = true → mode = .mode64) (h : parseBody mode P rex bs = .instr i) :
    ∃ c tail, bs = c :: tail ∧
      Reads mode (fun rest => parseBody mode P rex (c :: rest)) (P.length + rex.isSome.toNat + 1) tail i := by
  cases bs with
  | nil => cases h
  | cons c tail =>
    refine ⟨c, tail, rfl, ?_⟩
    simp only [parseBody] at h ⊢
    split_ifs at h ⊢
    · obtain ⟨e, reg, rm, hfinish, hrm, hle, hread⟩ := parseOpcode_instr h
      obtain ⟨sse, rfl, hP⟩ := legacyVerdict_instr hfinish
      refine ⟨fun hmod => ?_, _, ?_, hle, hread⟩
      · rw [Shape.wf_legacy, hrm, hmod]
        split
        · next hsome => simp [hrex hsome]
        · rfl
      · simp only [Shape.length_toInstr, Shape.length, hP]
        omega
    · exact parseC5_instr h
    · exact parseC4_instr h

/-- The list `P` of legacy prefixes is the longest one that the bytes begin with (R51 step 1). -/
theorem splitPrefixes_spec (bs : List Byte) :
    (∀ b ∈ (splitPrefixes bs).1, isLegacyPrefix b = true) ∧ (splitPrefixes bs).1 ++ (splitPrefixes bs).2 = bs ∧
      ∀ c ∈ (splitPrefixes bs).2.head?, isLegacyPrefix c = false := by
  induction bs with
  | nil => simp [splitPrefixes]
  | cons b bs ih =>
    obtain ⟨hP, hbs, hhead⟩ := ih
    by_cases hb : isLegacyPrefix b = true
    · simpa [splitPrefixes, hb, hbs] using ⟨hP, hhead⟩
    · simp [splitPrefixes, hb]

/-- Decoding after the legacy prefixes: in `MODE64` a REX byte is read, and the rest is the body (R51 steps 1 and 2). -/
theorem decode_afterPrefixes {mode : Mode} {P : List Byte} (hP : ∀ b ∈ P, isLegacyPrefix b = true) {c : Byte}
    (hc : isLegacyPrefix c = false) (bs : List Byte) :
    decode mode (P ++ c :: bs) =
      if mode = .mode64 ∧ isRexByte c = true then parseBody mode P (some (Rex.ofByte c)) bs
      else parseBody mode P none (c :: bs) := by
  simp [decode, splitPrefixes_append hP hc]

/-- Bytes that are not legacy prefixes only are such prefixes, then a byte that is none, then more bytes. -/
theorem exists_afterPrefixes {mode : Mode} {bytes : List Byte} (h : decode mode bytes ≠ .truncated) :
    ∃ P c bs, bytes = P ++ c :: bs ∧ (∀ b ∈ P, isLegacyPrefix b = true) ∧ isLegacyPrefix c = false := by
  obtain ⟨hP, hbytes, hhead⟩ := splitPrefixes_spec bytes
  cases hbody : (splitPrefixes bytes).2 with
  | nil => exact absurd (by simp [decode, hbody]) h
  | cons c bs =>
    rw [hbody] at hbytes hhead
    exact ⟨_, c, bs, hbytes.symm, hP, hhead c rfl⟩

/-- An instruction the decoder answers is one of the mode, and it was read off as many bytes as it is long. -/
theorem decode_reads {mode : Mode} {bytes : List Byte} {i : Instr} (h : decode mode bytes = .instr i) :
    Reads mode (decode mode) 0 bytes i := by
  obtain ⟨P, c, bs, rfl, hP, hc⟩ := exists_afterPrefixes (mode := mode) (bytes := bytes) (by simp [h])
  rw [decode_afterPrefixes hP hc] at h
  split_ifs at h with hrex
  · obtain ⟨b, tail, rfl, hreads⟩ := parseBody_instr (fun _ => hrex.1) h
    have := Reads.append (q := decode mode) (before := 0) (own := P ++ [c, b]) (by simpa using hreads) fun rest => by
      simp [decode_afterPrefixes hP hc, hrex]
    simpa using this
  · obtain ⟨b, tail, hbs, hreads⟩ := parseBody_instr (by simp) h
    obtain ⟨rfl, rfl⟩ := List.cons.inj hbs
    have := Reads.append (q := decode mode) (before := 0) (own := P ++ [c]) (by simpa using hreads) fun rest => by
      simp [decode_afterPrefixes hP hc, hrex]
    simpa using this

/-- Settles O6: well-formedness is part of what the decoder reads. -/
theorem decodedInstructionIsWellFormed : Obligations.DecodedInstructionIsWellFormed := fun _ _ _ hmod h =>
  (decode_reads h).1 hmod

/-! #### More bytes change no verdict -/

/-- Once `p` has answered anything but `truncated`, more bytes change nothing. -/
def Settled (p : List Byte → Decoded) : Prop := ∀ bs rest, p bs ≠ .truncated → p (bs ++ rest) = p bs

theorem settled_parseOpcode (finish : Elem → BitVec 3 → RmOp → Decoded) : Settled (parseOpcode finish) := by
  intro bs rest h
  match bs, h with
  | [op], h =>
    cases hop : Elem.ofOpcode op with
    | none => simp [parseOpcode, hop]
    | some e => exact absurd (by simp [parseOpcode, hop]) h
  | op :: modrm :: bs, h =>
    cases hop : Elem.ofOpcode op with
    | none => simp [parseOpcode, hop]
    | some e =>
      cases hparse : parseRm (modrm.extractLsb' 6 2) (modrm.extractLsb' 0 3) bs with
      | none => exact absurd (by simp [parseOpcode, hop, hparse]) h
      | some p =>
        obtain ⟨rm, tail⟩ := p
        obtain ⟨-, -, hread⟩ := parseRm_some hparse
        have hmore := hread (bs.drop rm.trailerLength ++ rest)
        rw [← List.append_assoc, List.take_append_drop] at hmore
        simp [parseOpcode, hop, hparse, hmore]

theorem settled_parseC5 (mode : Mode) (P : List Byte) (hadRex : Bool) : Settled (parseC5 mode P hadRex) := by
  intro bs rest h
  cases bs with
  | nil => exact absurd rfl h
  | cons v1 bs =>
    rw [List.cons_append, parseC5_cons, parseC5_cons] at *
    split_ifs at h ⊢
    · rfl
    · rfl
    · exact settled_parseOpcode _ bs rest h

theorem settled_parseC4 (mode : Mode) (P : List Byte) (hadRex : Bool) : Settled (parseC4 mode P hadRex) := by
  intro bs rest h
  match bs, h with
  | [v1], h =>
    rw [parseC4] at h
    split_ifs at h with hmode
    · simp [parseC4, hmode]
    · exact absurd rfl h
  | v1 :: v2 :: bs, h =>
    rw [List.cons_append, List.cons_append, parseC4_cons_cons, parseC4_cons_cons] at *
    split_ifs at h ⊢
    · rfl
    · rfl
    · exact settled_parseOpcode _ bs rest h

theorem settled_parseBody (mode : Mode) (P : List Byte) (rex : Option Rex) : Settled (parseBody mode P rex) := by
  intro bs rest h
  cases bs with
  | nil => exact absurd rfl h
  | cons b bs =>
    simp only [List.cons_append, parseBody] at h ⊢
    split_ifs at h ⊢
    · exact settled_parseOpcode _ bs rest h
    · exact settled_parseC5 _ _ _ bs rest h
    · exact settled_parseC4 _ _ _ bs rest h
    · rfl

theorem settled_decode (mode : Mode) : Settled (decode mode) := by
  intro bytes rest h
  obtain ⟨P, c, bs, rfl, hP, hc⟩ := exists_afterPrefixes h
  rw [List.append_assoc, List.cons_append, decode_afterPrefixes hP hc, decode_afterPrefixes hP hc] at *
  split_ifs at h ⊢
  · exact settled_parseBody _ _ _ bs rest h
  · exact settled_parseBody _ _ _ (c :: bs) rest h

/-- Settles O7: an instruction is read off its `len` bytes; had fewer of them settled anything, they would have settled
that same instruction, which is longer. -/
theorem decoderReadsExactlyItsLength : Obligations.DecoderReadsExactlyItsLength := by
  intro mode bytes i h
  obtain ⟨-, n, hn, hle, hread⟩ := decode_reads h
  obtain rfl : n = i.length := by omega
  refine ⟨hle, hread, fun n hlt => ?_⟩
  by_contra hne
  have hsame := settled_decode mode (bytes.take n) (bytes.drop n) hne
  rw [List.take_append_drop, h] at hsame
  obtain ⟨-, m, hm, hshort, -⟩ := decode_reads hsame.symm
  rw [List.length_take] at hshort
  omega

/-! #### Registers and lengths -/

/-- A well-formed instruction names only vector registers that the mode reaches (R13, R57, R63). -/
theorem vectorRegisters_lt {mode : Mode} {i : Instr} (hwf : i.wf mode = true) :
    ∀ r ∈ i.vectorRegisters, r.toNat < mode.nxmm := by
  by_cases hm : mode = .mode64
  · subst hm
    exact fun r _ => r.isLt
  · have h8 : mode.nxmm = 8 := by cases mode <;> simp_all [Mode.nxmm]
    have hlow : ∀ lo : BitVec 3, (Machine.regNum false lo).toNat < 8 := by decide
    have hv : ∀ v : BitVec 4, v.msb = false → v.toNat < 8 := by decide
    rw [← Instr.toInstr_shape i] at hwf
    rw [h8, Instr.vectorRegisters]
    cases hsh : i.shape with
    | legacy sse rex e reg rm =>
      rw [hsh, Shape.wf_legacy] at hwf
      obtain rfl : rex = none := by cases rex <;> simp_all
      cases sse <;> cases rm <;> simp [hlow]
    | c5 l r v e reg rm =>
      rw [hsh, Shape.wf_c5, Bool.and_eq_true, Bool.and_eq_true] at hwf
      obtain ⟨⟨-, hext⟩, -⟩ := hwf
      obtain ⟨rfl, -, -, hmsb⟩ := vexExtensionWf_of_ne hext hm
      cases rm <;> simp [hlow, hv v hmsb]
    | c4 l x v e reg rm =>
      rw [hsh, Shape.wf_c4, Bool.and_eq_true, Bool.and_eq_true] at hwf
      obtain ⟨⟨-, hext⟩, -⟩ := hwf
      obtain ⟨hr, -, hb, hmsb⟩ := vexExtensionWf_of_ne hext hm
      cases rm <;> simp [hlow, hv v hmsb, hr, hb]

/-- Settles O9: a decoded instruction is well-formed. -/
theorem decodedVectorRegistersAreReachable : Obligations.DecodedVectorRegistersAreReachable := fun _ _ _ hmod h =>
  vectorRegisters_lt ((decode_reads h).1 hmod)

/-- Every instruction has three bytes or more: an opcode, a ModRM byte and something before them. -/
theorem Instr.three_le_length (i : Instr) : 3 ≤ i.length := by
  rw [Instr.length]
  cases i.shape <;> simp only [Shape.length] <;> omega

/-- No instruction is longer than ten bytes (R51 step 6, R76). -/
theorem Instr.length_le_ten (i : Instr) : i.length ≤ 10 := by
  have h := encode_length_le i
  rwa [encode, Shape.encode_length] at h

/-- Settles O8. -/
theorem instructionLengthIsThreeToTen : Obligations.InstructionLengthIsThreeToTen :=
  ⟨fun i => ⟨i.three_le_length, i.length_le_ten⟩, rfl, rfl, rfl⟩

/-- Settles O4: the decoder evaluates on each of the words. -/
theorem workedEncodingsDecode : Obligations.WorkedEncodingsDecode := by
  unfold Obligations.WorkedEncodingsDecode
  decide

/-! #### Bytes that are none of the twelve forms (spec/30_encoding.md R51, R55, R57, R75) -/

/-- An opcode outside the spec is out of scope, whatever the form would have been (R51 steps 3 and 4). -/
theorem parseOpcode_outOfScope (finish : Elem → BitVec 3 → RmOp → Decoded) {op : Byte} (hb : op ≠ 0xFC#8)
    (hw : op ≠ 0xFD#8) (hd : op ≠ 0xFE#8) (rest : List Byte) :
    parseOpcode finish (op :: rest) = .refused .outOfScope := by
  simp [parseOpcode, Elem.ofOpcode, hb, hw, hd]

/-- Body bytes after a first byte that begins none of the forms are out of scope (R55, R75). -/
theorem parseBody_outOfScope (mode : Mode) (P : List Byte) (rex : Option Rex) {b : Byte} (h0F : b ≠ 0x0F#8)
    (hC4 : b ≠ 0xC4#8) (hC5 : b ≠ 0xC5#8) (rest : List Byte) :
    parseBody mode P rex (b :: rest) = .refused .outOfScope := by
  simp [parseBody, h0F, hC4, hC5]

/-- After legacy prefixes, and in `MODE64` a REX byte, the three bytes with which a form can go on begin the body. -/
theorem exists_decode_eq_parseBody {mode : Mode} {P Q : List Byte} (hP : ∀ b ∈ P, isLegacyPrefix b = true)
    (hQ : Q = P ∨ (mode = .mode64 ∧ ∃ b, isRexByte b = true ∧ Q = P ++ [b])) :
    ∃ rex, ∀ c ∈ [0x0F#8, 0xC4#8, 0xC5#8], ∀ bs, decode mode (Q ++ c :: bs) = parseBody mode P rex (c :: bs) := by
  have hplain : ∀ c ∈ [0x0F#8, 0xC4#8, 0xC5#8], isLegacyPrefix c = false ∧ isRexByte c = false := by decide
  rcases hQ with rfl | ⟨rfl, b, hb, rfl⟩
  · exact ⟨none, fun c hc bs => decode_prefixes hP (hplain c hc).1 (hplain c hc).2 bs⟩
  · exact ⟨_, fun c _ bs => by simpa using decode_prefixes_rex hP hb (c :: bs)⟩

/-- Settles O12: the opcode is looked at before what stands in front of it. -/
theorem otherEncodingsAreOutOfScope : Obligations.OtherEncodingsAreOutOfScope := by
  intro mode P Q rest _ hP hQ
  obtain ⟨rex, hbody⟩ := exists_decode_eq_parseBody hP hQ
  have h0F : ∀ bs, decode mode (Q ++ 0x0F#8 :: bs) = parseOpcode (legacyVerdict P rex) bs := hbody _ (by simp)
  have hC5 : ∀ bs, decode mode (Q ++ 0xC5#8 :: bs) = parseC5 mode P rex.isSome bs := hbody _ (by simp)
  have hC4 : ∀ bs, decode mode (Q ++ 0xC4#8 :: bs) = parseC4 mode P rex.isSome bs := hbody _ (by simp)
  refine ⟨fun op hb hw hd => ?_, fun v1 op hb hw hd => ?_, fun v1 v2 op hb hw hd => ?_, fun v1 hpp => ?_,
    fun v1 v2 hpp => ?_, fun b hb hrex h0F hC4 hC5 => ?_, fun hne b h0F hC4 hC5 => ?_⟩
  · rw [h0F, parseOpcode_outOfScope _ hb hw hd]
  · rw [hC5, parseC5_cons, parseOpcode_outOfScope _ hb hw hd, ite_self, ite_self]
  · rw [hC4, parseC4_cons_cons, parseOpcode_outOfScope _ hb hw hd, ite_self, ite_self]
  · rw [hC5, parseC5_cons, if_pos hpp, ite_self]
  · rw [hC4, parseC4_cons_cons, if_pos hpp, ite_self]
  · rw [decode_prefixes hP hb hrex, parseBody_outOfScope _ _ _ h0F hC4 hC5]
  · obtain hQ | ⟨rfl, c, hc, rfl⟩ := hQ
    · exact absurd hQ hne
    · rw [List.append_assoc, List.singleton_append, decode_prefixes_rex hP hc, parseBody_outOfScope] <;> assumption

/-- In `MODE32` no byte is a REX byte: the body begins after the legacy prefixes (R55). -/
theorem decode_mode32 {P : List Byte} (hP : ∀ b ∈ P, isLegacyPrefix b = true) {c : Byte}
    (hc : isLegacyPrefix c = false) (bs : List Byte) :
    decode .mode32 (P ++ c :: bs) = parseBody .mode32 P none (c :: bs) := by
  simp [decode_afterPrefixes hP hc]

/-- `MODE32` reads the same prefix whatever `B'` is (R57). -/
theorem vex3Fields_mode32_flipB (v1 v2 : Byte) : vex3Fields .mode32 (v1 ^^^ 0x20#8) v2 = vex3Fields .mode32 v1 v2 := by
  have h : ∀ v : Byte, (v ^^^ 0x20#8)[7] = v[7] ∧ (v ^^^ 0x20#8)[6] = v[6] := by decide
  simp only [vex3Fields, vexMode32, h, reduceCtorEq, if_false]

/-- `MODE32` reads the same prefix whatever `vvvv'[3]` is (R57). -/
theorem vex3Fields_mode32_flipV (v1 v2 : Byte) : vex3Fields .mode32 v1 (v2 ^^^ 0x40#8) = vex3Fields .mode32 v1 v2 := by
  have h : ∀ v : Byte, (v ^^^ 0x40#8)[7] = v[7] ∧
      ~~~((v ^^^ 0x40#8).extractLsb' 3 4) &&& 7#4 = ~~~(v.extractLsb' 3 4) &&& 7#4 := by decide
  simp only [vex3Fields, vexMode32, h, reduceCtorEq, if_false]

/-- Settles O13: the body is read in `MODE32` right after the legacy prefixes, and its VEX prefixes as R57 says. -/
theorem mode32ReadsPrefixBytesItsOwnWay : Obligations.Mode32ReadsPrefixBytesItsOwnWay := by
  intro P rest hP
  have hC5 : ∀ bs, decode .mode32 (P ++ 0xC5#8 :: bs) = parseC5 .mode32 P false bs := decode_mode32 hP (by decide)
  have hC4 : ∀ bs, decode .mode32 (P ++ 0xC4#8 :: bs) = parseC4 .mode32 P false bs := decode_mode32 hP (by decide)
  refine ⟨fun b hlo hhi => ?_, fun v1 hv1 => ?_, fun v1 v2 => ?_⟩
  · have hrex := (isRexByte_iff b).2 ⟨hlo, hhi⟩
    have hnot : ∀ c ∈ [0x0F#8, 0xC4#8, 0xC5#8], isRexByte c = false := by decide
    have hne : ∀ c ∈ [0x0F#8, 0xC4#8, 0xC5#8], b ≠ c := fun c hc e => by
      rw [e, hnot c hc] at hrex
      cases hrex
    rw [decode_mode32 hP (not_isLegacyPrefix_of_isRexByte hrex),
      parseBody_outOfScope _ _ _ (hne _ (by simp)) (hne _ (by simp)) (hne _ (by simp))]
  · have hbits : ∀ v : Byte, v.toNat < 0xC0 → v.extractLsb' 6 2 ≠ 3#2 := by decide
    have hother : Mode.mode32 ≠ .mode64 ∧ v1.extractLsb' 6 2 ≠ 3#2 := ⟨nofun, hbits v1 hv1⟩
    refine ⟨?_, ?_⟩
    · rw [hC5, parseC5_cons, if_pos hother]
    · rw [hC4]
      exact if_pos hother
  · have hB : ∀ v : Byte, (v ^^^ 0x20#8).extractLsb' 6 2 = v.extractLsb' 6 2 ∧
        (v ^^^ 0x20#8).extractLsb' 0 5 = v.extractLsb' 0 5 := by decide
    have hV : ∀ v : Byte, (v ^^^ 0x40#8).extractLsb' 0 2 = v.extractLsb' 0 2 ∧ (v ^^^ 0x40#8)[2] = v[2] := by decide
    refine ⟨?_, ?_⟩
    · rw [hC4, hC4, parseC4_cons_cons, parseC4_cons_cons, vex3Fields_mode32_flipB, (hB v1).1, (hB v1).2]
    · simp only [hC4, parseC4_cons_cons, vex3Fields_mode32_flipV, hV]

end Sys2Proof

/-! ### What a step does with the bytes at `RIP` (spec/30_encoding.md R51, R52, spec/20_memory.md R42) -/

namespace Sys2Proof.Machine

/-- A step whose bytes decode to an instruction executes it. -/
theorem step_of_decode_instr {s : State} {i : Instr} (hl : launchRefusal s = none)
    (h : decode s.cfg.mode s.fetchWindow = .instr i) : step s = exec i s := by
  simp [step, hl, h]

/-- A step whose bytes the decoder refuses is refused for the decoder's reason (R75). -/
theorem step_of_decode_refused {s : State} {why : NotInSpec} (hl : launchRefusal s = none)
    (h : decode s.cfg.mode s.fetchWindow = .refused why) : step s = .refused (NotInSpec.toRefusal why) := by
  simp [step, hl, h]

/-- A step whose bytes end before an instruction does stops as the next byte's fetch says. -/
theorem step_of_decode_truncated {s : State} (hl : launchRefusal s = none)
    (h : decode s.cfg.mode s.fetchWindow = .truncated) : step s = s.fetchStop.outcome := by
  simp [step, hl, h]

/-- Settles O2: the encoding is the first the decoder sees, and decoding gives it back whatever follows. -/
theorem encodedInstructionAtRipIsExecuted : Obligations.EncodedInstructionAtRipIsExecuted := by
  intro s i hl hwf hcode
  obtain ⟨rest, hwindow⟩ := hcode.fetchWindow_startsWith ((encode_length_le i).trans (by decide))
  exact step_of_decode_instr hl (hwindow ▸ decode_encode hwf rest)

/-- Settles O1: one case of a step each. -/
theorem stepRunsDecodedInstruction : Obligations.StepRunsDecodedInstruction := fun _ hl =>
  ⟨fun _ => step_of_decode_instr hl, step_of_decode_ud hl, step_of_decode_refused hl, step_of_decode_refused hl⟩

/-! #### Where the fetched bytes end -/

/-- No more bytes are fetched than asked for. -/
theorem State.fetchFrom_length_le (s : State) (n k : Nat) : (s.fetchFrom n k).length ≤ n := by
  induction n generalizing k with
  | zero => exact Nat.le_refl 0
  | succ n ih =>
    rw [State.fetchFrom]
    split
    · exact Nat.zero_le _
    · exact Nat.succ_le_succ (ih (k + 1))

/-- No byte is fetched from one on that the platform does not admit. -/
theorem State.fetchFrom_length_le_of_stop (s : State) {m k : Nat} {stop : Stop}
    (h : s.access .fetch (s.byteAddr s.rip (k + m)) 1 = some stop) (n : Nat) : (s.fetchFrom n k).length ≤ m := by
  induction m generalizing n k with
  | zero =>
    cases n with
    | zero => exact Nat.le_refl 0
    | succ n => simp only [Nat.add_zero] at h; simp [State.fetchFrom, h]
  | succ m ih =>
    cases n with
    | zero => exact Nat.zero_le _
    | succ n =>
      rw [State.fetchFrom]
      split
      · exact Nat.zero_le _
      · exact Nat.succ_le_succ (ih (by rwa [Nat.add_right_comm]) n)

/-- Fifteen bytes that stand at `RIP` and can be fetched are all the decoder sees (R52). -/
theorem CodeAt.fetchWindow_eq {s : State} {bytes : List Byte} (h : CodeAt s bytes) (hlen : bytes.length = maxLen) :
    s.fetchWindow = bytes :=
  ((h.fetchWindow_startsWith hlen.le).eq_of_length_le (hlen ▸ s.fetchFrom_length_le maxLen 0)).symm

/-- Bytes that stand at `RIP` before one that cannot be fetched are all the decoder sees (R42). -/
theorem CodeAt.fetchWindow_eq_of_stop {s : State} {bytes : List Byte} {stop : Stop} (h : CodeAt s bytes)
    (hlen : bytes.length ≤ maxLen) (hstop : s.access .fetch (s.byteAddr s.rip bytes.length) 1 = some stop) :
    s.fetchWindow = bytes :=
  ((h.fetchWindow_startsWith hlen).eq_of_length_le
    (s.fetchFrom_length_le_of_stop (k := 0) (by rwa [Nat.zero_add]) maxLen)).symm

/-- Settles O45: the decoder asks for a byte that cannot be fetched. -/
theorem fetchFaultComesFirst : Obligations.FetchFaultComesFirst := by
  intro s bytes stop hl hlen hcode htrunc hstop
  have hwindow := hcode.fetchWindow_eq_of_stop hlen.le hstop
  rw [step_of_decode_truncated hl (hwindow ▸ htrunc), State.fetchStop, hwindow, if_pos hlen, hstop, Option.getD_some]

/-- Settles O46: the decoder asks for a sixteenth byte. -/
theorem sequenceOverFifteenBytesRaisesGp : Obligations.SequenceOverFifteenBytesRaisesGp := by
  intro s bytes hl hlen hcode htrunc
  have hwindow := hcode.fetchWindow_eq hlen
  rw [step_of_decode_truncated hl (hwindow ▸ htrunc), State.fetchStop, hwindow, if_neg hlen.not_lt]
  rfl

/-! #### A table word placed at `RIP` (spec/70_reset_and_hazards.md R170 to R174) -/

@[simp] theorem State.placeBytes_rip (bytes : List Byte) (s : State) (k : Nat) :
    (s.placeBytes k bytes).rip = s.rip := by
  induction bytes generalizing s k with
  | nil => rfl
  | cons b bs ih => exact ih _ _

@[simp] theorem State.placeBytes_cfg (bytes : List Byte) (s : State) (k : Nat) :
    (s.placeBytes k bytes).cfg = s.cfg := by
  induction bytes generalizing s k with
  | nil => rfl
  | cons b bs ih => exact ih _ _

@[simp] theorem State.placeBytes_eflags (bytes : List Byte) (s : State) (k : Nat) :
    (s.placeBytes k bytes).eflags = s.eflags := by
  induction bytes generalizing s k with
  | nil => rfl
  | cons b bs ih => exact ih _ _

/-- Bytes placed from byte `k` of the instruction on leave the bytes before it. -/
theorem State.readByte_placeBytes_of_lt (bytes : List Byte) {s : State} {j k : Nat} (hwf : Memory.wf s.mem = true)
    (hlen : k + bytes.length < 2 ^ 32) (hj : j < k) :
    (s.placeBytes k bytes).readByte (s.byteAddr s.rip j) = s.readByte (s.byteAddr s.rip j) := by
  induction bytes generalizing s k with
  | nil => rfl
  | cons b bs ih =>
    rw [List.length_cons] at hlen
    have hne : (s.byteAddr s.rip j).toNat ≠ (s.byteAddr s.rip k).toNat := fun e =>
      absurd (s.byteAddr_inj s.rip j k (by omega) (by omega) (BitVec.eq_of_toNat_eq e)) hj.ne
    have hkeep : Memory.read (Memory.write s.mem (s.byteAddr s.rip k).toNat b) (s.byteAddr s.rip j).toNat =
        s.readByte (s.byteAddr s.rip j) := by
      rw [Memory.read_write _ _ _ _ hwf, if_neg hne, State.readByte]
    exact (ih (s := { s with mem := Memory.write s.mem (s.byteAddr s.rip k).toNat b })
      (Memory.write_wf _ _ _ (s.byteAddr s.rip k).isLt hwf) (by omega) (by omega)).trans hkeep

/-- Bytes placed from byte `k` of the instruction on are read back there. -/
theorem State.readByte_placeBytes (bytes : List Byte) {s : State} {j k : Nat} (hwf : Memory.wf s.mem = true)
    (hlen : k + bytes.length < 2 ^ 32) (hj : j < bytes.length) :
    (s.placeBytes k bytes).readByte (s.byteAddr s.rip (k + j)) = bytes[j] := by
  induction bytes generalizing s j k with
  | nil => exact absurd hj (Nat.not_lt_zero j)
  | cons b bs ih =>
    rw [List.length_cons] at hlen
    have hwf' := Memory.write_wf _ _ b (s.byteAddr s.rip k).isLt hwf
    cases j with
    | zero =>
      have hwritten : Memory.read (Memory.write s.mem (s.byteAddr s.rip k).toNat b) (s.byteAddr s.rip k).toNat = b := by
        rw [Memory.read_write _ _ _ _ hwf, if_pos rfl]
      exact (State.readByte_placeBytes_of_lt bs
        (s := { s with mem := Memory.write s.mem (s.byteAddr s.rip k).toNat b }) hwf' (by omega)
        (Nat.lt_succ_self k)).trans hwritten
    | succ j =>
      rw [← Nat.add_assoc, Nat.add_right_comm]
      exact ih (s := { s with mem := Memory.write s.mem (s.byteAddr s.rip k).toNat b }) hwf' (by omega)
        (by simpa using hj)

/-- Bytes placed at `RIP` stand there, where the platform lets them be fetched. -/
theorem State.codeAt_placeBytes {s : State} {bytes : List Byte} (hwf : Memory.wf s.mem = true)
    (hlen : bytes.length < 2 ^ 32)
    (hfetch : ∀ k < bytes.length, s.access .fetch (s.byteAddr s.rip k) 1 = none) :
    CodeAt (s.placeBytes 0 bytes) bytes := by
  intro k hk
  have hcfg := s.placeBytes_cfg bytes 0
  have hrip := s.placeBytes_rip bytes 0
  rw [State.access_congr hcfg hrip, hrip, State.byteAddr_congr hcfg]
  refine ⟨hfetch k hk, ?_⟩
  simpa using State.readByte_placeBytes bytes (k := 0) hwf (by omega) hk

theorem bytesOfWord_length (n w : Nat) : (bytesOfWord n w).length = n := by
  induction n with
  | zero => rfl
  | succ n ih => rw [bytesOfWord, List.length_cons, ih]

theorem tableBytes_length {nbits : Nat} (w : Nat) (h : nbits / 8 ≤ maxLen) : (tableBytes nbits w).length = maxLen := by
  rw [tableBytes, List.length_append, bytesOfWord_length, List.length_replicate]
  omega

/-- A table word that decodes to an instruction is read as it from its fifteen bytes. -/
theorem decode_tableBytes {nbits w : Nat} {i : Instr} (h : decodeTableWord nbits w = some i) :
    decode .mode64 (tableBytes nbits w) = .instr i := by
  unfold decodeTableWord at h
  split at h
  · next hdecode => rw [hdecode, Option.some.inj h]
  · cases h

/-- Settles O3: the placed bytes are all the decoder sees, in the mode in which the word was decoded. -/
theorem fetchWordIsExecutedNext : Obligations.FetchWordIsExecutedNext := by
  intro s nbits w i hwf hbits hdecode hl hfetch
  have hlen := tableBytes_length w hbits
  have hcode : CodeAt (s.withFetchWord nbits w) (tableBytes nbits w) :=
    State.codeAt_placeBytes hwf (hlen ▸ by decide) (hlen ▸ hfetch)
  have hcfg : (s.withFetchWord nbits w).cfg = s.launched.cfg := State.placeBytes_cfg ..
  have hl' : launchRefusal (s.withFetchWord nbits w) = none :=
    (launchRefusal_congr hcfg (State.placeBytes_eflags ..)).trans hl
  refine step_of_decode_instr hl' ?_
  rw [hcode.fetchWindow_eq hlen, hcfg]
  exact decode_tableBytes hdecode

end Sys2Proof.Machine

/-! ### Launches that are refused (spec/00_scope.md R3, spec/60_exceptions.md R144, R165) -/

namespace Sys2Proof.Machine

theorem mode_modelled_iff (mode : Mode) : mode.modelled = true ↔ mode = .mode64 ∨ mode = .mode32 := by
  cases mode <;> simp [Mode.modelled]

/-- A launch is admitted exactly when its mode is modelled, its features are consistent, and it is no debug launch. -/
theorem launchRefusal_none (s : State) :
    launchRefusal s = none ↔
      (s.cfg.mode = .mode64 ∨ s.cfg.mode = .mode32) ∧ (s.cfg.features.avx2 = true → s.cfg.features.avx = true) ∧
        s.tf = false ∧ s.cfg.debugArmed = false := by
  rw [← mode_modelled_iff]
  unfold launchRefusal
  split_ifs with hmode hfeatures hdebug
  · simp [hmode]
  · simp_all
  · rcases Bool.or_eq_true_iff.1 hdebug with h | h <;> simp [h]
  · simp_all

/-- A refused launch refuses every step. -/
theorem step_of_launchRefusal {s : State} {r : Refusal} (h : launchRefusal s = some r) : step s = .refused r := by
  simp [step, h]

/-- A form that does not pass `Precheck` stops as `Precheck` says. -/
theorem exec_of_precheck {s : State} {i : Instr} {stop : Stop} (h : precheck i.formClass s = some stop) :
    exec i s = stop.outcome := by
  obtain ⟨N, reg, finish, -, hexec, -⟩ := exec_runForm i s
  rw [hexec, runForm, h]

/-- A refused launch refuses every form. -/
theorem exec_of_launchRefusal {s : State} {r : Refusal} (h : launchRefusal s = some r) (i : Instr) :
    exec i s = .refused r :=
  exec_of_precheck (stop := .refused r) (by rw [precheck, h])

/-- Settles O47. -/
theorem refusedLaunches : Obligations.RefusedLaunches := fun s =>
  ⟨launchRefusal_none s, fun _ h => ⟨step_of_launchRefusal h, exec_of_launchRefusal h⟩⟩

/-- Settles O37: `exec_ud_iff` at the two VEX classes; a byte before a VEX prefix as O11 says; and the refused
launches. -/
theorem vexFormsRaiseUd : Obligations.VexFormsRaiseUd := by
  intro s i
  have hrefused {r : Refusal} (h : launchRefusal s = some r) : step s = .refused r ∧ exec i s = .refused r :=
    ⟨step_of_launchRefusal h, exec_of_launchRefusal h i⟩
  refine ⟨fun hl hcls => ?_, fun hl hcls => ?_, fun hl hcls hwf b hb hcode => ?_, fun h64 h32 => hrefused ?_,
    fun hmode havx2 havx => hrefused ?_⟩
  · rw [exec_ud_iff hl, hcls]
    simp [udCondition, or_iff_not_imp_left]
  · rw [exec_ud_iff hl, hcls]
    simp [udCondition, or_iff_not_imp_left]
  · rcases hb with hb | ⟨hmode, hrex⟩
    · have hP : ∀ c ∈ [b], c ∈ [0x66#8, 0xF2#8, 0xF3#8, 0xF0#8] := by
        simp only [List.mem_cons, List.not_mem_nil, or_false] at hb ⊢
        rintro c rfl
        tauto
      obtain ⟨hprefixed, -⟩ := prefixedVexRaisesUd s i [b] hl hwf hcls hP
      exact (hprefixed (by simp)).2 (by simp) hcode
    · obtain ⟨hlo, hhi⟩ := (isRexByte_iff b).1 (by rw [isRexByte, hrex]; rfl)
      obtain ⟨-, hprefixed⟩ := prefixedVexRaisesUd s i [] hl hwf hcls (by simp)
      exact (hprefixed b hmode hlo hhi).2 (by simp) hcode
  · have hmode : s.cfg.mode.modelled = false := by
      rw [← Bool.not_eq_true, mode_modelled_iff]
      exact not_or.2 ⟨h64, h32⟩
    simp [launchRefusal, hmode]
  · simp [launchRefusal, hmode, havx2, havx]

/-! ### Stops of a memory operand (spec/20_memory.md R35, R36, spec/60_exceptions.md R147, R152) -/

/-- A form whose `Precheck` passes stops as the checks on its memory operand say. -/
theorem exec_of_readCheck {s : State} {i : Instr} {m : MemForm} {stop : Stop} (hpre : precheck i.formClass s = none)
    (hm : i.rmOp = .mem m)
    (h : readCheck i.formClass i.formClass.operandBytes (s.linearAddr i.ext i.length m) s = some stop) :
    exec i s = stop.outcome := by
  obtain ⟨N, reg, finish, hN, hexec, -⟩ := exec_runForm i s
  rw [hexec, runForm, hpre, hm]
  simp only [readSrc, hN, h]

/-- Settles O40: #AC is the last of the checks on a memory operand, which names the MMX class, and no case of
`Precheck`. -/
theorem alignmentCheckRaisesAcInMmxFormsOnly : Obligations.AlignmentCheckRaisesAcInMmxFormsOnly := by
  refine fun s i => ⟨fun m hcls hm henabled hadmitted hac halign => ?_, fun hcls rip hexec => ?_⟩
  · have haccess : s.access .read (s.linearAddr i.ext i.length m) 8 = none :=
      (State.access_none ..).2 fun k hk => (hadmitted k hk).1
    have hdevice : s.touchesDevice (s.linearAddr i.ext i.length m) 8 = false :=
      (State.touchesDevice_false ..).2 fun k hk => (hadmitted k hk).2
    have hread : readCheck .mmx 8 (s.linearAddr i.ext i.length m) s = some (.fault (.ac s.rip)) :=
      readCheck_fault_iff.2 (.inr ⟨nofun, .inr ⟨haccess, hdevice, ⟨rfl, hac, halign⟩, rfl⟩⟩)
    rw [← hcls] at henabled
    exact exec_of_readCheck henabled.precheck hm (by rw [hcls]; exact hread)
  · rcases exec_fault_iff.1 hexec with hpre | ⟨-, m, -, hread⟩
    · obtain ⟨-, ⟨-, hf⟩ | ⟨-, -, hf⟩ | ⟨-, -, -, -, hf⟩⟩ := precheck_fault_iff.1 hpre <;> cases hf
    · obtain ⟨-, hf⟩ | ⟨-, haccess | ⟨-, -, ⟨hmmx, -⟩, -⟩⟩ := readCheck_fault_iff.1 hread
      · cases hf
      · obtain ⟨k, p, -, -, -, hstop⟩ := (State.access_some ..).1 haccess
        have hvector := PlatFault.toFault_vector p (s.byteAddr (s.linearAddr i.ext i.length m) k) s.rip
        rw [← Stop.fault.inj hstop] at hvector
        exact absurd hvector (by simp [Fault.vector])
      · exact hcls hmmx

/-- Settles O42: the platform is asked once the legacy SSE alignment has passed, and answers for the first failing
byte. -/
theorem platformFaultIsThatOfTheFirstFailingByte : Obligations.PlatformFaultIsThatOfTheFirstFailingByte := by
  intro s i m k f hm henabled halign hk hfault hfirst
  refine exec_of_readCheck henabled.precheck hm (readCheck_fault_iff.2 (.inr ⟨?_, .inl ?_⟩))
  · exact fun ⟨hsse, hne⟩ => hne (halign hsse)
  · exact (State.access_some ..).2 ⟨k, f, hk, hfault, hfirst, rfl⟩

/-- A read that is aligned and that the platform admits is refused where one of its bytes is a device's (R35). -/
theorem readCheck_deviceRead {cls : FormClass} {n : Nat} {a : Addr} {s : State} (halign : cls = .sse → a.toNat % 16 = 0)
    (haccess : s.access .read a n = none) (hdevice : s.touchesDevice a n = true) :
    readCheck cls n a s = some (.refused .deviceRead) := by
  have hsse : ¬(cls = .sse ∧ a.toNat % 16 ≠ 0) := fun ⟨hsse, hne⟩ => hne (halign hsse)
  simp only [readCheck, if_neg hsse, haccess, hdevice, if_true]

/-- Settles O43: the platform admits the read, and byte `k` of it is a device's. -/
theorem deviceReadIsRefused : Obligations.DeviceReadIsRefused := by
  intro s i m k sp hm henabled halign hadmitted hk hsp hcovers
  refine exec_of_readCheck henabled.precheck hm (readCheck_deviceRead halign ((State.access_none ..).2 hadmitted) ?_)
  rw [← Bool.not_eq_false, State.touchesDevice_false]
  intro hnone
  rw [hnone k hk sp hsp] at hcovers
  cases hcovers

/-! ### Faults (spec/60_exceptions.md R141, R150) -/

/-- A platform fault reports the `RIP` it is given. -/
theorem PlatFault.toFault_rip (p : PlatFault) (addr rip : Addr) : (PlatFault.toFault p addr rip).rip = rip := by
  cases p <;> rfl

/-- An access that faults reports the `RIP` of the instruction. -/
theorem State.access_fault_rip {s : State} {kind : AccessKind} {a : Addr} {n : Nat} {f : Fault}
    (h : s.access kind a n = some (.fault f)) : f.rip = s.rip := by
  obtain ⟨k, p, -, -, -, hstop⟩ := (State.access_some ..).1 h
  rw [Stop.fault.inj hstop, PlatFault.toFault_rip]

/-- A form's fault reports the `RIP` of the instruction. -/
theorem exec_fault_rip {i : Instr} {s : State} {f : Fault} (h : exec i s = .fault f) : f.rip = s.rip := by
  rcases exec_fault_iff.1 h with hpre | ⟨-, m, -, hread⟩
  · obtain ⟨-, ⟨-, rfl⟩ | ⟨-, -, rfl⟩ | ⟨-, -, -, -, rfl⟩⟩ := precheck_fault_iff.1 hpre <;> rfl
  · obtain ⟨-, rfl⟩ | ⟨-, haccess | ⟨-, -, -, rfl⟩⟩ := readCheck_fault_iff.1 hread
    · rfl
    · exact State.access_fault_rip haccess
    · rfl

/-- The stop of a fetch is a fault at `RIP`. -/
theorem State.fetchStop_rip (s : State) : ∃ f, s.fetchStop = .fault f ∧ f.rip = s.rip := by
  rw [State.fetchStop]
  split_ifs
  · cases h : s.access .fetch (s.byteAddr s.rip s.fetchWindow.length) 1 with
    | none => exact ⟨_, rfl, rfl⟩
    | some stop =>
      obtain ⟨k, p, -, -, -, rfl⟩ := (State.access_some ..).1 h
      exact ⟨_, rfl, PlatFault.toFault_rip ..⟩
  · exact ⟨_, rfl, rfl⟩

/-- A step's fault reports the `RIP` it was taken at. -/
theorem step_fault_rip {s : State} {f : Fault} (h : step s = .fault f) : f.rip = s.rip := by
  cases hl : launchRefusal s with
  | some r => rw [step_of_launchRefusal hl] at h; cases h
  | none =>
    cases hdecode : decode s.cfg.mode s.fetchWindow with
    | instr i => exact exec_fault_rip ((step_of_decode_instr hl hdecode).symm.trans h)
    | ud => cases (step_of_decode_ud hl hdecode).symm.trans h; rfl
    | refused why => cases (step_of_decode_refused hl hdecode).symm.trans h
    | truncated =>
      obtain ⟨g, hstop, hrip⟩ := s.fetchStop_rip
      have hg := (step_of_decode_truncated hl hdecode).symm.trans h
      rw [hstop] at hg
      cases hg
      exact hrip

/-- Settles O44: the table's columns hold of every fault; what a step or a form adds is the `RIP` it reports. -/
theorem faultsAreThoseOfTheTable : Obligations.FaultsAreThoseOfTheTable := by
  intro s f h
  have hrip : f.rip = s.rip := h.elim step_fault_rip fun ⟨_, hexec⟩ => exec_fault_rip hexec
  refine ⟨hrip, ?_⟩
  cases f <;> simp [Fault.vector, Fault.errorCode, Fault.info]

/-! ### Flags (spec/10_state.md R18) -/

/-- No form sees a write of EFLAGS. -/
theorem Unseen.setEflags (fl : BitVec 32) : Unseen fun s => { s with eflags := fl } where
  mm _ := rfl
  ymm _ := rfl
  gpr _ := rfl
  rip _ := rfl
  mem _ := rfl
  cfg _ := rfl
  writeMm _ _ _ := rfl
  writeYmm _ _ _ := rfl
  advance _ _ := rfl

/-- Settles O55: replacing EFLAGS is an update no form sees, and the launch check looks at its TF only. -/
theorem flagsAreNeitherReadNorWritten : Obligations.FlagsAreNeitherReadNorWritten := fun i s fl htf =>
  (Unseen.setEflags fl).exec (s := s) (by simp only [launchRefusal, htf]) i

end Sys2Proof.Machine

/-! ### What each form does when it completes (spec/40_padd_legacy.md R104 to R109, spec/41_vpadd_vex.md R122 to R127)

The 24 instructions are their shapes: family, vector length and lane width. Each of the four patterns of a form has one
lemma that says everything about its next state; the statements about single instructions read it at their shape. -/

namespace Sys2Proof.Machine

/-- The lane width in bits that an opcode selects (R50). -/
def elemWidth : Elem → Nat
  | .byte => 8
  | .word => 16
  | .dword => 32

/-- Every lane width divides every operand width (R100). -/
theorem elemWidth_dvd (e : Elem) {N : Nat} (hN : N = 64 ∨ N = 128 ∨ N = 256) : elemWidth e ∣ N :=
  laneWidth_dvd (by cases e <;> simp [elemWidth]) hN

/-! #### `exec` at a shape -/

/-- A legacy form with destination field `reg` and operand `rm`, with or without a REX byte (R55). -/
def IsLegacy (i : Instr) (sse : Bool) (e : Elem) (reg : BitVec 3) (rm : RmOp) : Prop :=
  ∃ rex, i.shape = .legacy sse rex e reg rm

/-- A VEX form of vector length `l` with first source `v`, destination field `reg` and operand `rm`, in either spelling
(R56). -/
def IsVex (i : Instr) (l : Bool) (v : BitVec 4) (e : Elem) (reg : BitVec 3) (rm : RmOp) : Prop :=
  (∃ r, i.shape = .c5 l r v e reg rm) ∨ (∃ x, i.shape = .c4 l x v e reg rm)

section
variable {i : Instr} {e : Elem} {reg : BitVec 3} {rm : RmOp}

/-- The two spellings of a legacy form. -/
theorem isLegacy_of_eq {sse : Bool} {rex : Rex}
    (h : i = (Shape.legacy sse none e reg rm).toInstr ∨ i = (Shape.legacy sse (some rex) e reg rm).toInstr) :
    IsLegacy i sse e reg rm := by
  rcases h with rfl | rfl <;> exact ⟨_, Shape.shape_toInstr _⟩

/-- The two spellings of a VEX form. -/
theorem isVex_of_eq {l r : Bool} {x : Vex3} {v : BitVec 4}
    (h : i = (Shape.c5 l r v e reg rm).toInstr ∨ i = (Shape.c4 l x v e reg rm).toInstr) : IsVex i l v e reg rm := by
  rcases h with rfl | rfl
  · exact .inl ⟨r, Shape.shape_toInstr _⟩
  · exact .inr ⟨x, Shape.shape_toInstr _⟩

theorem IsLegacy.rmOp {sse : Bool} (h : IsLegacy i sse e reg rm) : i.rmOp = rm := by
  obtain ⟨rex, h⟩ := h
  rw [Instr.rmOp, h]

theorem IsVex.rmOp {l : Bool} {v : BitVec 4} (h : IsVex i l v e reg rm) : i.rmOp = rm := by
  rcases h with ⟨r, h⟩ | ⟨x, h⟩ <;> rw [Instr.rmOp, h]

theorem formClass_mmx (h : IsLegacy i false e reg rm) : i.formClass = .mmx := by
  obtain ⟨rex, h⟩ := h
  rw [Instr.formClass, h]

theorem formClass_sse (h : IsLegacy i true e reg rm) : i.formClass = .sse := by
  obtain ⟨rex, h⟩ := h
  rw [Instr.formClass, h]

theorem formClass_vex128 {v : BitVec 4} (h : IsVex i false v e reg rm) : i.formClass = .vex128 := by
  rcases h with ⟨r, h⟩ | ⟨x, h⟩ <;> rw [Instr.formClass, h]

theorem formClass_vex256 {v : BitVec 4} (h : IsVex i true v e reg rm) : i.formClass = .vex256 := by
  rcases h with ⟨r, h⟩ | ⟨x, h⟩ <;> rw [Instr.formClass, h]

theorem exec_mmx (h : IsLegacy i false e reg rm) (s : State) :
    exec i s = mmxForm (elemWidth e) i.ext reg i.rmOp i.length s := by
  obtain ⟨rex, h⟩ := h
  rw [← Instr.toInstr_shape i, h]
  cases rex <;> cases e <;> rfl

theorem exec_sse (h : IsLegacy i true e reg rm) (s : State) :
    exec i s = sseForm (elemWidth e) i.ext reg i.rmOp i.length s := by
  obtain ⟨rex, h⟩ := h
  rw [← Instr.toInstr_shape i, h]
  cases rex <;> cases e <;> rfl

theorem exec_vex128 {v : BitVec 4} (h : IsVex i false v e reg rm) (s : State) :
    exec i s = vex128Form (elemWidth e) i.ext v reg i.rmOp i.length s := by
  rw [← Instr.toInstr_shape i]
  rcases h with ⟨r, h⟩ | ⟨x, h⟩ <;> rw [h] <;> cases e <;> rfl

theorem exec_vex256 {v : BitVec 4} (h : IsVex i true v e reg rm) (s : State) :
    exec i s = vex256Form (elemWidth e) i.ext v reg i.rmOp i.length s := by
  rw [← Instr.toInstr_shape i]
  rcases h with ⟨r, h⟩ | ⟨x, h⟩ <;> rw [h] <;> cases e <;> rfl

end

/-! #### Completion -/

/-- An enabled form with a readable source completes (R171). -/
theorem exec_completes {i : Instr} {s : State} (henabled : FormEnabled i.formClass s) (hsource : SourceReadable i s) :
    ∃ t, exec i s = .next t := by
  obtain ⟨N, reg, finish, hN, hexec, -⟩ := exec_runForm i s
  rw [hexec]
  exact ⟨_, (runForm_next ..).2 ⟨henabled.precheck, _, hsource.readSrc N reg hN, rfl⟩⟩

/-- A source that is read has the value of the operand. -/
theorem readSrc_eq_sourceValue {cls : FormClass} {N : Nat} {reg : BitVec 3 → BitVec N} {i : Instr} {s : State}
    {src : BitVec N} (h : readSrc cls N reg i.ext i.length i.rmOp s = .ok src) : src = sourceValue N reg i s := by
  unfold sourceValue
  obtain ⟨r, hr, rfl⟩ | ⟨m, hm, -, rfl⟩ := (readSrc_ok ..).1 h
  · rw [hr]
  · rw [hm]

theorem untouched_writeMm (s : State) (i : BitVec 3) (v : Mm) (n : Nat) : Untouched s ((s.writeMm i v).advance n) :=
  ⟨rfl, rfl, rfl, rfl, fun _ => rfl, rfl⟩

theorem untouched_writeYmm (s : State) (i : BitVec 4) (v : Ymm) (n : Nat) : Untouched s ((s.writeYmm i v).advance n) :=
  ⟨rfl, rfl, rfl, rfl, fun _ => rfl, rfl⟩

section
variable {i : Instr} {e : Elem} {reg : BitVec 3} {rm : RmOp} {s t : State}

/-- The next state of an MMX form (R104 to R106). -/
theorem mmx_completed (hsh : IsLegacy i false e reg rm) (h : exec i s = .next t) :
    MmxCompleted (elemWidth e) i reg s t := by
  rw [exec_mmx hsh, mmxForm, runForm_next] at h
  obtain ⟨-, src, hsrc, rfl⟩ := h
  obtain rfl := readSrc_eq_sourceValue hsrc
  refine ⟨fun k hk => ?_, fun j hj => ?_, ?_, rfl, fun k hk => ?_, rfl, rfl, untouched_writeMm ..⟩
  · rw [State.advance_readMm, State.readMm_writeMm, if_pos rfl, lane_padd _ _ _ _ _ hk]
  · exact (State.readX87_writeMm ..).trans (if_neg hj)
  · rw [State.advance_readMm, State.readMm_writeMm, if_pos rfl]
    exact (State.readX87_writeMm ..).trans (if_pos rfl)
  · simp

/-- The next state of a legacy SSE2 form (R107 to R109). -/
theorem sse_completed (hsh : IsLegacy i true e reg rm) (h : exec i s = .next t) :
    SseCompleted (elemWidth e) i (regNum i.ext.r reg) s t := by
  rw [exec_sse hsh, sseForm, runForm_next] at h
  obtain ⟨-, src, hsrc, rfl⟩ := h
  obtain rfl := readSrc_eq_sourceValue hsrc
  refine ⟨fun k hk => ?_, State.upper_writeXmm .., fun j hj => ?_, rfl, rfl, rfl, untouched_writeYmm ..⟩
  · rw [State.advance_readXmm, State.readXmm_writeXmm, if_pos rfl, lane_padd _ _ _ _ _ hk]
  · rw [State.advance_readYmm, State.readYmm_writeXmm, if_neg hj]

/-- The next state of a VEX.128 form (R122 to R124). -/
theorem vex128_completed {v : BitVec 4} (hsh : IsVex i false v e reg rm) (h : exec i s = .next t) :
    Vex128Completed (elemWidth e) i v (regNum i.ext.r reg) s t := by
  rw [exec_vex128 hsh, vex128Form, runForm_next] at h
  obtain ⟨-, src, hsrc, rfl⟩ := h
  obtain rfl := readSrc_eq_sourceValue hsrc
  refine ⟨fun k hk => ?_, State.upper_writeXmmZext .., fun j hj => ?_, rfl, rfl, rfl, untouched_writeYmm ..⟩
  · rw [State.advance_readXmm, State.readXmm_writeXmmZext, if_pos rfl, lane_padd _ _ _ _ _ hk]
  · rw [State.advance_readYmm, State.readYmm_writeXmmZext, if_neg hj]

/-- The next state of a VEX.256 form (R125 to R127). -/
theorem vex256_completed {v : BitVec 4} (hsh : IsVex i true v e reg rm) (h : exec i s = .next t) :
    Vex256Completed (elemWidth e) i v (regNum i.ext.r reg) s t := by
  rw [exec_vex256 hsh, vex256Form, runForm_next] at h
  obtain ⟨-, src, hsrc, rfl⟩ := h
  obtain rfl := readSrc_eq_sourceValue hsrc
  refine ⟨fun k hk => ?_, fun j hj => ?_, rfl, rfl, rfl, untouched_writeYmm ..⟩
  · rw [State.advance_readYmm, State.readYmm_writeYmm, if_pos rfl, lane_padd _ _ _ _ _ hk]
  · rw [State.advance_readYmm, State.readYmm_writeYmm, if_neg hj]

/-- An enabled MMX form with a readable source completes as R104 to R106 say. -/
theorem mmx_completes (hsh : IsLegacy i false e reg rm) (henabled : FormEnabled .mmx s)
    (hsource : SourceReadable i s) : ∃ t, exec i s = .next t ∧ MmxCompleted (elemWidth e) i reg s t := by
  obtain ⟨t, ht⟩ := exec_completes ((formClass_mmx hsh).symm ▸ henabled) hsource
  exact ⟨t, ht, mmx_completed hsh ht⟩

/-- An enabled SSE2 form with a readable source completes as R107 to R109 say. -/
theorem sse_completes (hsh : IsLegacy i true e reg rm) (henabled : FormEnabled .sse s)
    (hsource : SourceReadable i s) :
    ∃ t, exec i s = .next t ∧ SseCompleted (elemWidth e) i (regNum i.ext.r reg) s t := by
  obtain ⟨t, ht⟩ := exec_completes ((formClass_sse hsh).symm ▸ henabled) hsource
  exact ⟨t, ht, sse_completed hsh ht⟩

/-- An enabled VEX.128 form with a readable source completes as R122 to R124 say. -/
theorem vex128_completes {v : BitVec 4} (hsh : IsVex i false v e reg rm) (henabled : FormEnabled .vex128 s)
    (hsource : SourceReadable i s) :
    ∃ t, exec i s = .next t ∧ Vex128Completed (elemWidth e) i v (regNum i.ext.r reg) s t := by
  obtain ⟨t, ht⟩ := exec_completes ((formClass_vex128 hsh).symm ▸ henabled) hsource
  exact ⟨t, ht, vex128_completed hsh ht⟩

/-- An enabled VEX.256 form with a readable source completes as R125 to R127 say. -/
theorem vex256_completes {v : BitVec 4} (hsh : IsVex i true v e reg rm) (henabled : FormEnabled .vex256 s)
    (hsource : SourceReadable i s) :
    ∃ t, exec i s = .next t ∧ Vex256Completed (elemWidth e) i v (regNum i.ext.r reg) s t := by
  obtain ⟨t, ht⟩ := exec_completes ((formClass_vex256 hsh).symm ▸ henabled) hsource
  exact ⟨t, ht, vex256_completed hsh ht⟩

end

/-! #### The statements, form by form -/

/-- Settles O23. -/
theorem paddbMmxAddsByteLanes : Obligations.PaddbMmxAddsByteLanes := fun _ _ _ _ _ h =>
  mmx_completes (isLegacy_of_eq (sse := false) (e := .byte) h)

/-- Settles O24. -/
theorem paddwMmxAddsWordLanes : Obligations.PaddwMmxAddsWordLanes := fun _ _ _ _ _ h =>
  mmx_completes (isLegacy_of_eq (sse := false) (e := .word) h)

/-- Settles O25. -/
theorem padddMmxAddsDwordLanes : Obligations.PadddMmxAddsDwordLanes := fun _ _ _ _ _ h =>
  mmx_completes (isLegacy_of_eq (sse := false) (e := .dword) h)

/-- Settles O26. -/
theorem paddbSseAddsByteLanes : Obligations.PaddbSseAddsByteLanes := fun _ _ _ _ _ h =>
  sse_completes (isLegacy_of_eq (sse := true) (e := .byte) h)

/-- Settles O27. -/
theorem paddwSseAddsWordLanes : Obligations.PaddwSseAddsWordLanes := fun _ _ _ _ _ h =>
  sse_completes (isLegacy_of_eq (sse := true) (e := .word) h)

/-- Settles O28. -/
theorem padddSseAddsDwordLanes : Obligations.PadddSseAddsDwordLanes := fun _ _ _ _ _ h =>
  sse_completes (isLegacy_of_eq (sse := true) (e := .dword) h)

/-- Settles O29. -/
theorem vpaddb128AddsByteLanes : Obligations.Vpaddb128AddsByteLanes := fun _ _ _ _ _ _ _ h =>
  vex128_completes (isVex_of_eq (l := false) (e := .byte) h)

/-- Settles O30. -/
theorem vpaddw128AddsWordLanes : Obligations.Vpaddw128AddsWordLanes := fun _ _ _ _ _ _ _ h =>
  vex128_completes (isVex_of_eq (l := false) (e := .word) h)

/-- Settles O31. -/
theorem vpaddd128AddsDwordLanes : Obligations.Vpaddd128AddsDwordLanes := fun _ _ _ _ _ _ _ h =>
  vex128_completes (isVex_of_eq (l := false) (e := .dword) h)

/-- Settles O32. -/
theorem vpaddb256AddsByteLanes : Obligations.Vpaddb256AddsByteLanes := fun _ _ _ _ _ _ _ h =>
  vex256_completes (isVex_of_eq (l := true) (e := .byte) h)

/-- Settles O33. -/
theorem vpaddw256AddsWordLanes : Obligations.Vpaddw256AddsWordLanes := fun _ _ _ _ _ _ _ h =>
  vex256_completes (isVex_of_eq (l := true) (e := .word) h)

/-- Settles O34. -/
theorem vpaddd256AddsDwordLanes : Obligations.Vpaddd256AddsDwordLanes := fun _ _ _ _ _ _ _ h =>
  vex256_completes (isVex_of_eq (l := true) (e := .dword) h)

end Sys2Proof.Machine

/-! ### What a step changes, and what it keeps (spec/10_state.md R10, R12, R15, R16) -/

namespace Sys2Proof.Machine

/-- A form that completes has made one register write of its class and advanced `RIP` by its length. -/
theorem exec_next {i : Instr} {s t : State} (h : exec i s = .next t) :
    ∃ u, OneWrite i.formClass s u ∧ t = u.advance i.length := by
  obtain ⟨N, reg, finish, -, hexec, hwrite⟩ := exec_runForm i s
  rw [hexec, runForm_next] at h
  obtain ⟨-, src, -, rfl⟩ := h
  exact ⟨_, hwrite src, rfl⟩

/-- A form that completes leaves everything no form writes. -/
theorem exec_untouched {i : Instr} {s t : State} (h : exec i s = .next t) : Untouched s t := by
  obtain ⟨u, ⟨-, r, v, rfl⟩ | ⟨-, d, v, rfl⟩, rfl⟩ := exec_next h
  · exact untouched_writeMm ..
  · exact untouched_writeYmm ..

/-- A form that completes advances `RIP` by its length (R16). -/
theorem exec_rip {i : Instr} {s t : State} (h : exec i s = .next t) : t.rip = s.nextRip i.length := by
  obtain ⟨u, ⟨-, r, v, rfl⟩ | ⟨-, d, v, rfl⟩, rfl⟩ := exec_next h <;> rfl

/-- A step that gives a next state has executed an instruction. -/
theorem step_next {s t : State} (h : step s = .next t) : ∃ i, exec i s = .next t := by
  cases hl : launchRefusal s with
  | some r => rw [step_of_launchRefusal hl] at h; cases h
  | none =>
    cases hdecode : decode s.cfg.mode s.fetchWindow with
    | instr i => exact ⟨i, (step_of_decode_instr hl hdecode).symm.trans h⟩
    | ud => cases (step_of_decode_ud hl hdecode).symm.trans h
    | refused why => cases (step_of_decode_refused hl hdecode).symm.trans h
    | truncated =>
      obtain ⟨f, hstop, -⟩ := s.fetchStop_rip
      rw [step_of_decode_truncated hl hdecode, hstop] at h
      cases h

/-- A form that completes keeps the invariant: memory is as it was, and outside 64-bit mode the next address has 32
bits. -/
theorem exec_keeps_inv {i : Instr} {s t : State} (hinv : s.Inv) (h : exec i s = .next t) : t.Inv := by
  obtain ⟨-, -, -, hmem, -, hcfg⟩ := exec_untouched h
  refine ⟨hmem ▸ hinv.1, fun hmode => ?_⟩
  rw [hcfg] at hmode
  rw [exec_rip h]
  exact s.nextRip_lt _ hmode

/-- Settles O48: a step that gives a next state has executed an instruction. -/
theorem stepKeepsInvariant : Obligations.StepKeepsInvariant := fun _ _ hinv h =>
  let ⟨_, hexec⟩ := step_next h
  exec_keeps_inv hinv hexec

/-- Settles O49. -/
theorem resetMeetsInvariant : Obligations.ResetMeetsInvariant := ⟨Memory.reset_wf, fun _ => by decide⟩

/-- Settles O50: the one register write of a form, case by case. -/
theorem stepChangesOneDestinationOnly : Obligations.StepChangesOneDestinationOnly := by
  intro s t h
  obtain ⟨i, hexec⟩ := step_next h
  refine ⟨exec_untouched hexec, ⟨i.length, i.three_le_length, i.length_le_ten, exec_rip hexec⟩, ?_⟩
  obtain ⟨u, ⟨-, r, v, rfl⟩ | ⟨-, d, v, rfl⟩, rfl⟩ := exec_next hexec
  · refine .inl ⟨r, rfl, fun j hj => (State.readX87_writeMm ..).trans (if_neg hj), ?_, rfl, fun k hk => by simp⟩
    rw [State.advance_readMm, State.readMm_writeMm, if_pos rfl]
    exact (State.readX87_writeMm ..).trans (if_pos rfl)
  · exact .inr ⟨d, rfl, rfl, fun j hj => (State.readYmm_writeYmm ..).trans (if_neg hj)⟩

/-! ### Runs (spec/70_reset_and_hazards.md R173, R174) -/

theorem Untouched.refl (s : State) : Untouched s s := ⟨rfl, rfl, rfl, rfl, fun _ => rfl, rfl⟩

theorem Untouched.trans {s t u : State} (h : Untouched s t) (h' : Untouched t u) : Untouched s u := by
  obtain ⟨hgpr, heflags, hmxcsr, hmem, hbyte, hcfg⟩ := h
  obtain ⟨hgpr', heflags', hmxcsr', hmem', hbyte', hcfg'⟩ := h'
  exact ⟨hgpr'.trans hgpr, heflags'.trans heflags, hmxcsr'.trans hmxcsr, hmem'.trans hmem,
    fun a => (hbyte' a).trans (hbyte a), hcfg'.trans hcfg⟩

/-- Steps that each give a next state leave everything no form writes. -/
theorem StepsTo.untouched {endAddr : Addr} {k : Nat} {s t : State} (h : StepsTo endAddr k s t) : Untouched s t := by
  induction k generalizing s with
  | zero => cases h; exact .refl _
  | succ k ih =>
    obtain ⟨-, u, hstep, hrest⟩ := h
    obtain ⟨i, hexec⟩ := step_next hstep
    exact (exec_untouched hexec).trans (ih hrest)

/-- A run with its end address elsewhere that begins with an instruction which stops is stopped by it. -/
theorem run_of_step_stop {endAddr : Addr} {s : State} (hend : s.rip ≠ endAddr) {n : Nat} (hn : 0 < n) :
    (∀ f, step s = .fault f → run endAddr n s = .faulted f s) ∧
      (∀ r, step s = .refused r → run endAddr n s = .refused r s) := by
  obtain ⟨m, rfl⟩ := Nat.exists_eq_add_one.2 hn
  exact ⟨fun f hf => by simp only [run, hend, hf, if_false], fun r hr => by simp only [run, hend, hr, if_false]⟩

/-- Settles O53, by induction on the number of steps the run is allowed. -/
theorem runEndsAsItsLastStepSays : Obligations.RunEndsAsItsLastStepSays := by
  intro endAddr n
  induction n with
  | zero =>
    intro s
    by_cases hend : s.rip = endAddr
    · subst hend
      rw [run_at_end]
      exact ⟨rfl, 0, Nat.le_refl 0, rfl⟩
    · rw [run, if_neg hend]
      exact ⟨hend, rfl⟩
  | succ n ih =>
    intro s
    by_cases hend : s.rip = endAddr
    · subst hend
      rw [run_at_end]
      exact ⟨rfl, 0, Nat.zero_le _, rfl⟩
    · obtain ⟨hfault, hrefused⟩ := run_of_step_stop hend n.succ_pos
      cases hstep : step s with
      | fault f =>
        rw [hfault f hstep]
        exact ⟨hend, hstep, step_fault_rip hstep, 0, Nat.succ_pos n, rfl⟩
      | refused r =>
        rw [hrefused r hstep]
        exact ⟨hend, hstep, 0, Nat.succ_pos n, rfl⟩
      | next u =>
        have hsteps {k : Nat} {t : State} (h : StepsTo endAddr k u t) : StepsTo endAddr (k + 1) s t :=
          ⟨hend, u, hstep, h⟩
        have hu := ih u
        rw [run_step n hend hstep]
        cases hrun : run endAddr n u with
        | done t =>
          rw [hrun] at hu
          obtain ⟨ht, k, hk, h⟩ := hu
          exact ⟨ht, k + 1, Nat.succ_le_succ hk, hsteps h⟩
        | running t =>
          rw [hrun] at hu
          obtain ⟨ht, h⟩ := hu
          exact ⟨ht, hsteps h⟩
        | faulted f t =>
          rw [hrun] at hu
          obtain ⟨ht, hf, hrip, k, hk, h⟩ := hu
          exact ⟨ht, hf, hrip, k + 1, Nat.succ_lt_succ hk, hsteps h⟩
        | refused r t =>
          rw [hrun] at hu
          obtain ⟨ht, hr, k, hk, h⟩ := hu
          exact ⟨ht, hr, k + 1, Nat.succ_lt_succ hk, hsteps h⟩

/-- The state a run has come to is reached by steps that each give a next state. -/
theorem exists_stepsTo_run (endAddr : Addr) (n : Nat) (s : State) :
    ∃ k, StepsTo endAddr k s (run endAddr n s).state := by
  have h := runEndsAsItsLastStepSays endAddr n s
  cases hrun : run endAddr n s with
  | done t => rw [hrun] at h; obtain ⟨-, k, -, h⟩ := h; exact ⟨k, h⟩
  | running t => rw [hrun] at h; exact ⟨n, h.2⟩
  | faulted f t => rw [hrun] at h; obtain ⟨-, -, -, k, -, h⟩ := h; exact ⟨k, h⟩
  | refused r t => rw [hrun] at h; obtain ⟨-, -, k, -, h⟩ := h; exact ⟨k, h⟩

/-- Settles O51: the steps of a run leave what no form writes. -/
theorem runLeavesLaunchDataUntouched : Obligations.RunLeavesLaunchDataUntouched := fun endAddr n s =>
  let ⟨_, h⟩ := exists_stepsTo_run endAddr n s
  h.untouched

/-- A run takes the steps there are, and goes on from where they lead. -/
theorem StepsTo.run_add {endAddr : Addr} {k : Nat} {s t : State} (h : StepsTo endAddr k s t) (n : Nat) :
    run endAddr (k + n) s = run endAddr n t := by
  induction k generalizing s with
  | zero => cases h; rw [Nat.zero_add]
  | succ k ih =>
    obtain ⟨hne, u, hstep, hrest⟩ := h
    rw [Nat.succ_add, run_step _ hne hstep, ih hrest]

/-- Steps are taken one part after another. -/
theorem StepsTo.split {endAddr : Addr} {j k : Nat} {s t : State} (h : StepsTo endAddr (j + k) s t) :
    ∃ u, StepsTo endAddr j s u ∧ StepsTo endAddr k u t := by
  induction j generalizing s with
  | zero => rw [Nat.zero_add] at h; exact ⟨s, rfl, h⟩
  | succ j ih =>
    rw [Nat.succ_add] at h
    obtain ⟨hne, v, hstep, hrest⟩ := h
    obtain ⟨u, hu, ht⟩ := ih hrest
    exact ⟨u, ⟨hne, v, hstep, hu⟩, ht⟩

/-- A run with steps left to take is on its way after any smaller number of them. -/
theorem StepsTo.run_running {endAddr : Addr} {n k : Nat} {s t : State} (h : StepsTo endAddr k s t) (hn : n < k) :
    ∃ u, run endAddr n s = .running u ∧ StepsTo endAddr n s u ∧ StepsTo endAddr (k - n) u t := by
  obtain ⟨m, rfl⟩ := Nat.exists_eq_add_of_lt hn
  obtain ⟨u, hu, ht⟩ := StepsTo.split (j := n) (k := m + 1) h
  have hrun : run endAddr n s = .running u := by
    have hgo := hu.run_add 0
    rwa [Nat.add_zero, run, if_neg ht.1] at hgo
  rw [Nat.add_assoc, Nat.add_sub_cancel_left]
  exact ⟨u, hrun, hu, ht⟩

/-- Steps that lead to the end address are a run that is done there, once it is allowed as many. -/
theorem StepsTo.run_done {endAddr : Addr} {n k : Nat} {s t : State} (h : StepsTo endAddr k s t)
    (hend : t.rip = endAddr) (hn : k ≤ n) : run endAddr n s = .done t := by
  obtain ⟨m, rfl⟩ := Nat.exists_eq_add_of_le hn
  rw [h.run_add, ← hend, run_at_end]

/-! #### A program of encoded instructions -/

/-- Code that stands at `RIP` begins with its first part. -/
theorem CodeAt.left {s : State} {first rest : List Byte} (h : CodeAt s (first ++ rest)) : CodeAt s first := by
  intro k hk
  obtain ⟨hfetch, hbyte⟩ := h k (by rw [List.length_append]; omega)
  exact ⟨hfetch, by rw [hbyte, List.getElem_append_left hk]⟩

/-- Outside 64-bit mode `RIP` has 32 bits, so it is the address of its own byte 0. -/
theorem byteAddr_rip_zero {s : State} (hinv : s.Inv) : s.byteAddr s.rip 0 = s.rip := by
  have hzero : s.rip + BitVec.ofNat 64 0 = s.rip := by simp
  rw [State.byteAddr, hzero]
  by_cases hm : s.cfg.mode = .mode64
  · exact State.wrapAddr_mode64 s _ hm
  · refine BitVec.eq_of_toNat_eq ?_
    rw [State.wrapAddr_toNat s _ hm, Nat.mod_eq_of_lt (hinv.2 hm)]

section
variable {i : Instr} {s t : State} (h : exec i s = .next t)
include h

/-- An address counted from the next instruction, in the state after this one. -/
theorem byteAddr_after (k : Nat) : t.byteAddr t.rip k = s.byteAddr s.rip (i.length + k) := by
  obtain ⟨-, -, -, -, -, hcfg⟩ := exec_untouched h
  rw [State.byteAddr_congr hcfg, exec_rip h]
  exact s.byteAddr_add s.rip i.length k

/-- The code after an instruction stands at `RIP` when the instruction has completed. -/
theorem CodeAt.after {rest : List Byte} (hcode : CodeAt s (encode i ++ rest)) : CodeAt t rest := by
  obtain ⟨-, -, -, -, hbyte, hcfg⟩ := exec_untouched h
  have hlen : (encode i).length = i.length := Shape.encode_length _
  intro k hk
  obtain ⟨hfetch, hread⟩ := hcode (i.length + k) (by rw [List.length_append]; omega)
  rw [byteAddr_after h, State.access_none, hbyte, hread, List.getElem_append_right (by omega)]
  refine ⟨fun j hj => ?_, by simp [hlen]⟩
  rw [State.byteFault_congr hcfg]
  exact (State.access_none ..).1 hfetch j hj

end

/-- The outcomes of a program at `RIP` whose end address is `endAddr`: all its instructions complete, one step each, or
one of them stops. -/
def ProgramRuns (endAddr : Addr) (program : List Instr) (s : State) : Prop :=
  (∃ t, StepsTo endAddr program.length s t ∧ t.rip = endAddr) ∨
    ∃ (k : Nat) (h : k < program.length) (u : State), StepsTo endAddr k s u ∧ u.rip ≠ endAddr ∧
      step u = exec program[k] u ∧ ∀ t, exec program[k] u ≠ .next t

/-- A program goes on with its other instructions once the first has completed. -/
theorem ProgramRuns.cons {endAddr : Addr} {i : Instr} {program : List Instr} {s t : State} (hend : s.rip ≠ endAddr)
    (hstep : step s = .next t) (h : ProgramRuns endAddr program t) : ProgramRuns endAddr (i :: program) s := by
  rcases h with ⟨u, hu, hrip⟩ | ⟨k, hk, u, hu, hrest⟩
  · exact .inl ⟨u, ⟨hend, t, hstep, hu⟩, hrip⟩
  · exact .inr ⟨k + 1, Nat.succ_lt_succ hk, u, ⟨hend, t, hstep, hu⟩, hrest⟩

/-- A program of well-formed instructions at `RIP` runs as `ProgramRuns` says, by induction on its instructions: the end
address, counted from `RIP` and the bytes still to come, is the same after each. -/
theorem programRuns {endAddr : Addr} {program : List Instr} {s : State} (hinv : s.Inv) (hl : launchRefusal s = none)
    (hwf : ∀ i ∈ program, i.wf s.cfg.mode = true) (hcode : CodeAt s (program.flatMap encode))
    (hlen : (program.flatMap encode).length < 2 ^ 32)
    (hend : endAddr = s.byteAddr s.rip (program.flatMap encode).length) : ProgramRuns endAddr program s := by
  induction program generalizing s with
  | nil =>
    rw [List.flatMap_nil, List.length_nil, byteAddr_rip_zero hinv] at hend
    exact .inl ⟨s, rfl, hend.symm⟩
  | cons i program ih =>
    obtain ⟨hi, hprogram⟩ := List.forall_mem_cons.1 hwf
    rw [List.flatMap_cons] at hcode hlen hend
    have hi3 := i.three_le_length
    have hilen : (encode i).length = i.length := Shape.encode_length _
    rw [List.length_append, hilen] at hlen hend
    have hne : s.rip ≠ endAddr := by
      rw [hend]
      intro e
      have := s.byteAddr_inj s.rip 0 _ (by omega) hlen ((byteAddr_rip_zero hinv).trans e)
      omega
    have hstep : step s = exec i s := encodedInstructionAtRipIsExecuted s i hl hi hcode.left
    cases hexec : exec i s with
    | next t =>
      obtain ⟨-, hflags, -, -, -, hcfg⟩ := exec_untouched hexec
      refine ProgramRuns.cons hne (hstep.trans hexec) (ih (exec_keeps_inv hinv hexec) ?_ ?_ (hcode.after hexec) ?_ ?_)
      · exact (launchRefusal_congr hcfg hflags).trans hl
      · exact hcfg ▸ hprogram
      · omega
      · rw [byteAddr_after hexec, hend]
    | fault f => exact .inr ⟨0, Nat.succ_pos _, s, rfl, hne, hstep, by simp [hexec]⟩
    | refused r => exact .inr ⟨0, Nat.succ_pos _, s, rfl, hne, hstep, by simp [hexec]⟩

/-- Settles O52: a run takes the steps there are, and the steps of a program are its instructions. -/
theorem runReachesEndAfterItsSteps : Obligations.RunReachesEndAfterItsSteps := by
  refine ⟨fun endAddr k s t h hend => ?_, fun s program hinv hl hwf hcode hlen => ?_⟩
  · exact ⟨⟨t, h.run_done hend le_rfl⟩, fun n hn => h.run_done hend hn, fun n hn => h.run_running hn⟩
  · rcases programRuns hinv hl hwf hcode hlen rfl with ⟨t, h, hend⟩ | ⟨k, hk, u, h, hend, hstep, hstop⟩
    · exact .inl ⟨t, h, h.run_done hend le_rfl⟩
    · refine .inr ⟨k, hk, u, h, fun n hn => ?_⟩
      obtain ⟨m, rfl⟩ := Nat.exists_eq_add_of_lt hn
      obtain ⟨hfault, hrefused⟩ := run_of_step_stop hend m.succ_pos
      rw [Nat.add_assoc, h.run_add]
      cases hexec : exec program[k] u with
      | next t => exact absurd hexec (hstop t)
      | fault f => exact .inl ⟨f, rfl, hfault f (hstep.trans hexec)⟩
      | refused r => exact .inr ⟨r, rfl, hrefused r (hstep.trans hexec)⟩

/-! ### Reset (spec/10_state.md R27) -/

/-- Settles O60: the reset state is written out, its launch is refused, and the #UD conditions are `udCondition`. -/
theorem resetValuesOfTheHardware : Obligations.ResetValuesOfTheHardware := by
  refine ⟨fun i => ?_, fun i => ?_, fun k hk => ?_, rfl, rfl, rfl, rfl, rfl, rfl, rfl, rfl, rfl, rfl, rfl,
    step_of_launchRefusal rfl, fun s i hl hcls hfxsr hxsave _ _ => (exec_ud_iff hl).2 ?_⟩
  · simp [State.readYmm, State.reset]
  · simp [State.readX87, State.readMm, State.reset]
  · simp [State.reset]
  · replace hfxsr : s.cfg.env.cr4Osfxsr = false := hfxsr
    replace hxsave : s.cfg.env.cr4Osxsave = false := hxsave
    cases hc : i.formClass with
    | mmx => exact absurd hc hcls
    | sse => simp [udCondition, hfxsr]
    | vex128 => simp [udCondition, hxsave]
    | vex256 => simp [udCondition, hxsave]

end Sys2Proof.Machine

/-! ### Laws of the lane-wise sum (spec/40_padd_legacy.md R102) -/

namespace Sys2Proof.Machine

/-- A lane is a range of bits. -/
theorem getLsbD_of_lane (w : Nat) {N : Nat} (v : BitVec N) (i j : Nat) :
    (lane w v i).getLsbD j = (decide (j < w) && v.getLsbD (w * i + j)) := by
  rw [lane, BitVec.getLsbD_extractLsb']

/-- The lanes below the upper half are the lanes of the lower half. -/
theorem lane_append_low {w N M k : Nat} (u : BitVec M) (v : BitVec N) (hk : k < N / w) :
    lane w (u ++ v) k = lane w v k := by
  have htop := lane_top w N k hk
  refine BitVec.eq_of_getLsbD_eq fun j hj => ?_
  rw [getLsbD_of_lane, getLsbD_of_lane, BitVec.getLsbD_append, if_pos (by omega)]

/-- The lanes from the upper half on are the lanes of the upper half. -/
theorem lane_append_high {w N M : Nat} (hdvd : w ∣ N) (u : BitVec M) (v : BitVec N) (k : Nat) :
    lane w (u ++ v) (N / w + k) = lane w u k := by
  have hstart : w * (N / w + k) = N + w * k := by rw [Nat.mul_add, Nat.mul_div_cancel' hdvd]
  refine BitVec.eq_of_getLsbD_eq fun j hj => ?_
  rw [getLsbD_of_lane, getLsbD_of_lane, hstart, BitVec.getLsbD_append, if_neg (by omega), Nat.add_assoc,
    Nat.add_sub_cancel_left]

section
variable {w N : Nat} (hdvd : w ∣ N)
include hdvd

theorem padd_comm (a b : BitVec N) : padd w N a b = padd w N b a :=
  eq_of_lane_eq hdvd fun k hk => by rw [lane_padd _ _ _ _ _ hk, lane_padd _ _ _ _ _ hk, BitVec.add_comm]

theorem padd_assoc (a b c : BitVec N) : padd w N (padd w N a b) c = padd w N a (padd w N b c) :=
  eq_of_lane_eq hdvd fun k hk => by
    rw [lane_padd _ _ _ _ _ hk, lane_padd _ _ _ _ _ hk, lane_padd _ _ _ _ _ hk, lane_padd _ _ _ _ _ hk,
      BitVec.add_assoc]

theorem padd_zero (a : BitVec N) : padd w N a 0 = a :=
  eq_of_lane_eq hdvd fun k hk => by
    have hzero : lane w (0 : BitVec N) k = 0#w := by simp [lane]
    rw [lane_padd _ _ _ _ _ hk, hzero, BitVec.add_zero]

/-- A wide sum is the sums of the halves side by side. -/
theorem padd_append (ah al bh bl : BitVec N) :
    padd w (N + N) (ah ++ al) (bh ++ bl) = padd w N ah bh ++ padd w N al bl := by
  refine eq_of_lane_eq (Nat.dvd_add hdvd hdvd) fun k hk => ?_
  rw [lane_padd _ _ _ _ _ hk]
  by_cases hlow : k < N / w
  · rw [lane_append_low _ _ hlow, lane_append_low _ _ hlow, lane_append_low _ _ hlow, lane_padd _ _ _ _ _ hlow]
  · obtain ⟨j, rfl⟩ := Nat.exists_eq_add_of_le (Nat.le_of_not_lt hlow)
    have hj : j < N / w := by
      rw [Nat.add_div_of_dvd_right hdvd] at hk
      omega
    rw [lane_append_high hdvd, lane_append_high hdvd, lane_append_high hdvd, lane_padd _ _ _ _ _ hj]

end

/-- The lanes of a part of a value that begins at a lane. -/
theorem lane_extractLsb' {w N M n k : Nat} (hdvd : w ∣ n) (v : BitVec N) (hk : k < M / w) :
    lane w (v.extractLsb' n M) k = lane w v (n / w + k) := by
  have htop := lane_top w M k hk
  have hstart : w * (n / w + k) = n + w * k := by rw [Nat.mul_add, Nat.mul_div_cancel' hdvd]
  refine BitVec.eq_of_getLsbD_eq fun j hj => ?_
  rw [getLsbD_of_lane, getLsbD_of_lane, BitVec.getLsbD_extractLsb', decide_eq_true (by omega : w * k + j < M),
    Bool.true_and, hstart, Nat.add_assoc]

/-- A part of a sum that begins and ends at lanes is the sum of the parts. -/
theorem padd_extractLsb' {w N M n : Nat} (hn : w ∣ n) (hM : w ∣ M) (hle : n + M ≤ N) (a b : BitVec N) :
    (padd w N a b).extractLsb' n M = padd w M (a.extractLsb' n M) (b.extractLsb' n M) := by
  refine eq_of_lane_eq hM fun k hk => ?_
  have hin : n / w + k < N / w := by
    calc n / w + k < n / w + M / w := Nat.add_lt_add_left hk _
      _ = (n + M) / w := (Nat.add_div_of_dvd_right hn).symm
      _ ≤ N / w := Nat.div_le_div_right hle
  rw [lane_padd _ _ _ _ _ hk, lane_extractLsb' hn _ hk, lane_extractLsb' hn _ hk, lane_extractLsb' hn _ hk,
    lane_padd _ _ _ _ _ hin]

/-- The low part of a sum is the sum of the low parts. -/
theorem padd_setWidth {w N M : Nat} (hM : w ∣ M) (hle : M ≤ N) (a b : BitVec N) :
    (padd w N a b).setWidth M = padd w M (a.setWidth M) (b.setWidth M) := by
  simpa only [BitVec.setWidth_eq_extractLsb' hle] using padd_extractLsb' (Nat.dvd_zero w) hM (by omega) a b

/-- A word added to itself is the word shifted left by one. -/
theorem add_self_eq_shiftLeft {w : Nat} (x : BitVec w) : x + x = x <<< 1 := by
  refine BitVec.eq_of_toNat_eq ?_
  rw [BitVec.toNat_add, BitVec.toNat_shiftLeft, Nat.shiftLeft_eq, pow_one, Nat.mul_two]

/-- Settles O17, law by law. -/
theorem paddLaws : Obligations.PaddLaws := by
  intro w N hw hN
  have hdvd := laneWidth_dvd hw hN
  refine ⟨padd_comm hdvd, padd_assoc hdvd, padd_zero hdvd, fun a k hk => ?_, padd_append hdvd⟩
  rw [lane_padd _ _ _ _ _ hk, add_self_eq_shiftLeft]

/-! #### Carries between the lanes of a wider lane -/

/-- A lane of a value is a lane of the wider lane it lies in. -/
theorem lane_eq_lane_lane {w m N : Nat} (hm : 0 < m) (v : BitVec N) (k : Nat) :
    lane w v k = lane w (lane (w * m) v (k / m)) (k % m) := by
  have hmod := Nat.mod_lt k hm
  refine BitVec.eq_of_getLsbD_eq fun j hj => ?_
  have hin : w * (k % m) + j < w * m := by
    calc w * (k % m) + j < w * (k % m) + w := by omega
      _ = w * (k % m + 1) := by ring
      _ ≤ w * m := Nat.mul_le_mul_left w hmod
  have hplace : w * m * (k / m) + (w * (k % m) + j) = w * k + j := by
    calc w * m * (k / m) + (w * (k % m) + j) = w * (m * (k / m) + k % m) + j := by ring
      _ = w * k + j := by rw [Nat.div_add_mod]
  rw [getLsbD_of_lane, getLsbD_of_lane, getLsbD_of_lane, hplace, decide_eq_true hin, Bool.true_and]

/-- A lane as a number. -/
theorem lane_toNat (w : Nat) {N : Nat} (v : BitVec N) (i : Nat) :
    (lane w v i).toNat = v.toNat / 2 ^ (w * i) % 2 ^ w := by
  rw [lane, BitVec.extractLsb'_toNat, Nat.shiftRight_eq_div_pow]

/-- One more changes a number modulo `n`, for every `n` above one. -/
theorem add_one_mod_ne {n : Nat} (hn : 1 < n) (x : Nat) : (x + 1) % n ≠ x % n := by
  rw [Nat.add_mod, Nat.mod_eq_of_lt hn]
  have hx := Nat.mod_lt x (by omega : 0 < n)
  by_cases h : x % n + 1 = n
  · rw [h, Nat.mod_self]
    omega
  · rw [Nat.mod_eq_of_lt (by omega)]
    omega

/-- Lane `j` of a sum is the sum of the lanes `j` exactly when the parts below it sum without a carry. -/
theorem lane_add_iff {w W j : Nat} (hw : 0 < w) (hj : w * j + w ≤ W) (A B : BitVec W) :
    lane w (A + B) j = lane w A j + lane w B j ↔
      A.toNat % 2 ^ (w * j) + B.toNat % 2 ^ (w * j) < 2 ^ (w * j) := by
  have hP : 0 < 2 ^ (w * j) := Nat.two_pow_pos _
  have h1 : 1 < 2 ^ w := Nat.one_lt_two_pow hw.ne'
  have hsum : (A.toNat + B.toNat) % 2 ^ W / 2 ^ (w * j) % 2 ^ w = (A.toNat + B.toNat) / 2 ^ (w * j) % 2 ^ w := by
    rw [← Nat.mod_mul_right_div_self, ← Nat.mod_mul_right_div_self, ← pow_add,
      Nat.mod_mod_of_dvd _ (pow_dvd_pow 2 hj)]
  rw [← BitVec.toNat_inj, BitVec.toNat_add, lane_toNat, lane_toNat, lane_toNat, BitVec.toNat_add, hsum,
    ← Nat.add_mod, Nat.add_div hP]
  split_ifs with hcarry
  · exact iff_of_false (add_one_mod_ne h1 _) hcarry.not_gt
  · exact iff_of_true rfl (Nat.lt_of_not_le hcarry)

/-- Settles O18: the narrower lane lies in a wider one, whose sum it follows as long as no carry comes from below. -/
theorem paddWidthsDifferAtCarries : Obligations.PaddWidthsDifferAtCarries := by
  intro w W N k a b hwW hN hk
  obtain ⟨m, rfl, hw, hm⟩ : ∃ m, W = w * m ∧ 0 < w ∧ 0 < m := by
    rcases hwW with ⟨rfl, rfl⟩ | ⟨rfl, rfl⟩ | ⟨rfl, rfl⟩
    exacts [⟨2, by decide⟩, ⟨4, by decide⟩, ⟨2, by decide⟩]
  have hdvd : w * m ∣ N := laneWidth_dvd (by omega) hN
  have hdiv : w * m / w = m := Nat.mul_div_cancel_left m hw
  have hwide : k / m < N / (w * m) := by
    rw [← Nat.div_div_eq_div_mul]
    refine Nat.div_lt_div_of_lt_of_dvd ?_ hk
    rw [← hdiv]
    exact Nat.div_dvd_div (Nat.dvd_mul_right w m) hdvd
  have hin : w * (k % m) + w ≤ w * m := by
    rw [← Nat.mul_succ]
    exact Nat.mul_le_mul_left w (Nat.mod_lt k hm)
  simp only [hdiv]
  rw [lane_padd w N k a b hk, lane_eq_lane_lane hm (padd (w * m) N a b) k, lane_padd _ _ _ _ _ hwide,
    lane_eq_lane_lane (w := w) hm a k, lane_eq_lane_lane (w := w) hm b k]
  exact lane_add_iff hw hin _ _

/-! ### Memory operands (spec/20_memory.md R22, R30) -/

/-- A lane of double width is two lanes side by side. -/
theorem lane_double (w : Nat) {N : Nat} (v : BitVec N) (j : Nat) :
    lane (w + w) v j = lane w v (2 * j + 1) ++ lane w v (2 * j) := by
  refine BitVec.eq_of_getLsbD_eq fun l hl => ?_
  have hlow : (w + w) * j + l = w * (2 * j) + l := by ring
  rw [BitVec.getLsbD_append, getLsbD_of_lane, getLsbD_of_lane, getLsbD_of_lane]
  split_ifs with h
  · simp [h, hl, hlow]
  · have hhigh : (w + w) * j + l = w * (2 * j + 1) + (l - w) := by
      rw [hlow, Nat.mul_succ, Nat.add_assoc, Nat.add_sub_cancel' (Nat.le_of_not_lt h)]
    simp [hl, hhigh, Nat.sub_lt_left_of_lt_add (Nat.le_of_not_lt h) hl]

/-- Settles O19. -/
theorem loadIsLittleEndian : Obligations.LoadIsLittleEndian := fun s a N _ =>
  ⟨fun k hk => lane_load s a N k hk, fun j _ => lane_double 8 _ j, fun j _ => lane_double 16 _ j⟩

/-- A canonical memory lists no byte at an address below its first. -/
theorem Memory.head_unlisted {a x : Nat} {v : Byte} {m : Memory} (hwf : Memory.wf ((a, v) :: m) = true) (hx : x < a) :
    Memory.read ((a, v) :: m) x = Memory.unlisted := by
  obtain ⟨-, -, hlt, -⟩ := (Memory.wf_cons a v m).1 hwf
  refine Memory.read_of_lt _ _ (List.forall_mem_cons.2 ⟨hx, fun c hc => hx.trans (hlt c hc)⟩)

/-- A canonical memory reads something listed at its first address. -/
theorem Memory.head_listed {a : Nat} {v : Byte} {m : Memory} (hwf : Memory.wf ((a, v) :: m) = true) :
    Memory.read ((a, v) :: m) a ≠ Memory.unlisted := by
  obtain ⟨-, hv, -, -⟩ := (Memory.wf_cons a v m).1 hwf
  simpa [Memory.read] using hv

/-- Settles O22, by induction on the two lists: their first addresses are the same, for a smaller one would read as
unlisted in the other; so are their first bytes; and the rests read alike. -/
theorem canonicalMemoriesThatReadAlikeAreEqual : Obligations.CanonicalMemoriesThatReadAlikeAreEqual := by
  intro m
  induction m with
  | nil =>
    intro m' _ hwf' h
    cases m' with
    | nil => rfl
    | cons e m' => exact absurd (h e.1).symm (Memory.head_listed hwf')
  | cons e m ih =>
    intro m' hwf hwf' h
    cases m' with
    | nil => exact absurd (h e.1) (Memory.head_listed hwf)
    | cons e' m' =>
      obtain ⟨a, v⟩ := e
      obtain ⟨a', v'⟩ := e'
      have hle : ¬a < a' := fun hlt => Memory.head_listed hwf ((h a).trans (Memory.head_unlisted hwf' hlt))
      have hge : ¬a' < a := fun hlt => Memory.head_listed hwf' ((h a').symm.trans (Memory.head_unlisted hwf hlt))
      obtain rfl : a = a' := by omega
      obtain rfl : v = v' := by simpa [Memory.read] using h a
      obtain ⟨-, -, hlt, hm⟩ := (Memory.wf_cons a v m).1 hwf
      obtain ⟨-, -, hlt', hm'⟩ := (Memory.wf_cons a v m').1 hwf'
      rw [ih m' hm hm' fun x => ?_]
      by_cases hx : x = a
      · rw [hx, Memory.read_of_lt m a hlt, Memory.read_of_lt m' a hlt']
      · simpa [Memory.read, hx] using h x

/-! ### Effective addresses (spec/30_encoding.md R66 to R70) -/

/-- The addressing table as one sum of integers over the registers' values `gpr`; `origin` is what a displacement alone
is added to. -/
def addrSum (gpr : BitVec 4 → Int) (origin : Int) (e : Ext) : MemForm → Int
  | .base rm => gpr (regNum e.b rm)
  | .disp32 d => origin + d.toInt
  | .baseDisp8 rm d => gpr (regNum e.b rm) + d.toInt
  | .baseDisp32 rm d => gpr (regNum e.b rm) + d.toInt
  | .sib sc ix bs => gpr (regNum e.b bs) + scaledIndex sc ix
  | .sibNoBase sc ix d => scaledIndex sc ix + d.toInt
  | .sibDisp8 sc ix bs d => gpr (regNum e.b bs) + scaledIndex sc ix + d.toInt
  | .sibDisp32 sc ix bs d => gpr (regNum e.b bs) + scaledIndex sc ix + d.toInt
where
  /-- The index register times its scale, unless its number is 4 (R67). -/
  scaledIndex (sc : BitVec 2) (ix : BitVec 3) : Int :=
    if regNum e.x ix = 4#4 then 0 else gpr (regNum e.x ix) * 2 ^ sc.toNat

/-- A shift left is a multiplication by a power of two. -/
theorem ofInt_shiftLeft (w : Nat) (x : Int) (n : Nat) : BitVec.ofInt w x <<< n = BitVec.ofInt w (x * 2 ^ n) := by
  have hpow : BitVec.twoPow w n = BitVec.ofInt w (2 ^ n) := by
    refine BitVec.eq_of_toNat_eq ?_
    rw [BitVec.toNat_twoPow, BitVec.toNat_ofInt]
    norm_cast
  rw [BitVec.shiftLeft_eq_mul_twoPow, BitVec.ofInt_mul, hpow]

/-- An effective address is the table's sum modulo 2^w. -/
theorem effectiveAddr_eq_ofInt {w : Nat} {reg : BitVec 4 → BitVec w} {gpr : BitVec 4 → Int}
    (hreg : ∀ n, reg n = BitVec.ofInt w (gpr n)) {origin : BitVec w} {o : Int} (horigin : origin = BitVec.ofInt w o)
    (e : Ext) (m : MemForm) : effectiveAddr reg origin e m = BitVec.ofInt w (addrSum gpr o e m) := by
  have hindex : ∀ sc ix, sibIndex reg e.x sc ix = BitVec.ofInt w (addrSum.scaledIndex gpr e sc ix) := by
    intro sc ix
    rw [sibIndex, addrSum.scaledIndex, hreg]
    split_ifs
    · simp
    · exact ofInt_shiftLeft ..
  cases m <;> simp only [effectiveAddr, addrSum, hreg, hindex, horigin, BitVec.signExtend, BitVec.ofInt_add]

/-- A word is the integer it stands for. -/
theorem ofInt_toNat_cast {w : Nat} (v : BitVec w) : BitVec.ofInt w (v.toNat : Int) = v := by
  rw [BitVec.ofInt_natCast, BitVec.ofNat_toNat, BitVec.setWidth_eq]

/-- A sum modulo 2^w as a number. -/
theorem toNat_ofInt_cast (w : Nat) (x : Int) : ((BitVec.ofInt w x).toNat : Int) = x % 2 ^ w := by
  rw [BitVec.toNat_ofInt, Int.toNat_of_nonneg (Int.emod_nonneg _ (by positivity))]
  norm_cast

/-- A register number as the rules write it: `hi:lo` (R63). -/
theorem regNum_eq_ofNat (hi : Bool) (lo : BitVec 3) : regNum hi lo = BitVec.ofNat 4 (8 * hi.toNat + lo.toNat) := by
  revert hi lo
  decide

/-- The one index number that names no register (R67). -/
theorem regNum_eq_four (x : Bool) (ix : BitVec 3) : regNum x ix = 4#4 ↔ x = false ∧ ix = 4#3 := by
  revert x ix
  decide

/-- Settles O20: over 64-bit registers, a displacement alone counting from the next instruction. -/
theorem addressIn64BitMode : Obligations.AddressIn64BitMode := by
  intro s e len m hmode
  have hnext : s.nextRip len = BitVec.ofInt 64 (s.rip.toNat + len) := by
    rw [State.nextRip, State.wrapAddr_mode64 s _ hmode, BitVec.ofInt_add, ofInt_toNat_cast, BitVec.ofInt_natCast]
  rw [State.linearAddr, if_pos hmode,
    effectiveAddr_eq_ofInt (gpr := fun n => (s.readGpr n).toNat) (fun n => (ofInt_toNat_cast _).symm) hnext,
    toNat_ofInt_cast]
  cases m <;> simp only [addrSum, addrSum.scaledIndex, regNum_eq_ofNat, ← regNum_eq_four]

/-- Settles O21: over the low halves of the registers, without extension bits, a displacement alone counting from 0. -/
theorem addressIn32BitMode : Obligations.AddressIn32BitMode := by
  intro s e len m hmode
  have hreg : ∀ n, (s.readGpr n).setWidth 32 = BitVec.ofInt 32 ((s.readGpr n).toNat % 2 ^ 32) := fun n => by
    refine BitVec.eq_of_toNat_eq (Int.ofNat_inj.1 ?_)
    rw [toNat_ofInt_cast, BitVec.toNat_setWidth, Int.emod_emod, Int.natCast_mod]
    rfl
  have hnum : ∀ lo : BitVec 3, regNum false lo = BitVec.ofNat 4 lo.toNat := by decide
  have hfour : ∀ ix : BitVec 3, BitVec.ofNat 4 ix.toNat = 4#4 ↔ ix = 4#3 := by decide
  have horigin : 0#32 = BitVec.ofInt 32 0 := by decide
  rw [State.linearAddr, if_neg (by rw [hmode]; nofun), effectiveAddr_eq_ofInt hreg horigin,
    BitVec.toNat_setWidth_of_le (by decide), toNat_ofInt_cast]
  cases m <;> simp only [addrSum, addrSum.scaledIndex, Ext.none, hnum, hfour, zero_add]

end Sys2Proof.Machine

/-! ### Which fields of an encoding a form looks at (spec/30_encoding.md R55, R56, R58, R64, R68) -/

namespace Sys2Proof.Machine

/-! #### Ignored extension bits -/

/-- The address of a memory operand depends on the extension bits it looks at. -/
theorem State.linearAddr_sameBits (s : State) {e e' : Ext} (len : Nat) {m : MemForm}
    (h : (RmOp.mem m).SameBits e.x e.b e'.x e'.b) : s.linearAddr e len m = s.linearAddr e' len m := by
  obtain ⟨hx, hb⟩ := h
  cases m
  case disp32 => rfl
  case base | baseDisp8 | baseDisp32 => simp only [State.linearAddr, effectiveAddr, hb rfl]
  case sibNoBase => simp only [State.linearAddr, effectiveAddr, hx rfl]
  case sib | sibDisp8 | sibDisp32 => simp only [State.linearAddr, effectiveAddr, hx rfl, hb rfl]

/-- A source operand depends on the extension bits it looks at. -/
theorem readSrc_sameBits (cls : FormClass) {N : Nat} {reg reg' : BitVec 3 → BitVec N} {e e' : Ext} (len : Nat)
    {rm : RmOp} (s : State) (hreg : ∀ r, rm = .reg r → reg r = reg' r)
    (hmem : ∀ m, rm = .mem m → rm.SameBits e.x e.b e'.x e'.b) :
    readSrc cls N reg e len rm s = readSrc cls N reg' e' len rm s := by
  cases rm with
  | reg r => simp only [readSrc, hreg r rfl]
  | mem m => simp only [readSrc, s.linearAddr_sameBits len (hmem m rfl)]

/-- An MMX form looks at the extension bits of a memory operand only (R64). -/
theorem mmxForm_sameBits (w : Nat) {e e' : Ext} (reg : BitVec 3) {rm : RmOp} (len : Nat) (s : State)
    (h : rm.SameBits e.x e.b e'.x e'.b ∨ ∃ r, rm = .reg r) : mmxForm w e reg rm len s = mmxForm w e' reg rm len s := by
  have hsrc : readSrc .mmx 64 s.readMm e len rm s = readSrc .mmx 64 s.readMm e' len rm s := by
    refine readSrc_sameBits .mmx len s (fun _ _ => rfl) fun m hm => ?_
    rcases h with h | ⟨r, hr⟩
    · exact h
    · exact absurd (hr.symm.trans hm) nofun
  simp only [mmxForm, runForm, hsrc]

section
variable {e e' : Ext} {rm : RmOp} (hr : e.r = e'.r) (h : rm.SameBits e.x e.b e'.x e'.b)
include h

/-- A source operand in a vector register or in memory depends on the extension bits it looks at. -/
theorem readSrc_vector_sameBits (cls : FormClass) {N : Nat} (file : BitVec 4 → BitVec N) (len : Nat) (s : State) :
    readSrc cls N (fun r => file (regNum e.b r)) e len rm s =
      readSrc cls N (fun r => file (regNum e'.b r)) e' len rm s := by
  refine readSrc_sameBits cls len s (fun r hrm => ?_) fun _ _ => h
  rw [h.2 (by rw [hrm]; rfl)]

include hr

theorem sseForm_sameBits (w : Nat) (reg : BitVec 3) (len : Nat) (s : State) :
    sseForm w e reg rm len s = sseForm w e' reg rm len s := by
  simp only [sseForm, runForm, readSrc_vector_sameBits h, hr]

theorem vex128Form_sameBits (w : Nat) (v : BitVec 4) (reg : BitVec 3) (len : Nat) (s : State) :
    vex128Form w e v reg rm len s = vex128Form w e' v reg rm len s := by
  simp only [vex128Form, runForm, readSrc_vector_sameBits h, hr]

theorem vex256Form_sameBits (w : Nat) (v : BitVec 4) (reg : BitVec 3) (len : Nat) (s : State) :
    vex256Form w e v reg rm len s = vex256Form w e' v reg rm len s := by
  simp only [vex256Form, runForm, readSrc_vector_sameBits h, hr]

end

/-- Settles O14: no pattern of a form has `W`, and each looks at the other bits where its operand does. -/
theorem ignoredBitsOfPrefixesChangeNothing : Obligations.IgnoredBitsOfPrefixesChangeNothing := by
  refine ⟨fun x x' v reg rm s hr h => ?_, fun rex rex' reg rm s h => ?_, fun rex rex' reg rm s hr h => ?_⟩
  · have h128 (w : Nat) :=
      vex128Form_sameBits (e := Ext.ofC4 x) (e' := Ext.ofC4 x') hr h w v reg (5 + rm.trailerLength) s
    have h256 (w : Nat) :=
      vex256Form_sameBits (e := Ext.ofC4 x) (e' := Ext.ofC4 x') hr h w v reg (5 + rm.trailerLength) s
    exact ⟨h128 8, h128 16, h128 32, h256 8, h256 16, h256 32⟩
  · have hmmx (w : Nat) :=
      mmxForm_sameBits w (e := Ext.ofRex rex) (e' := Ext.ofRex rex') reg (4 + rm.trailerLength) s h
    exact ⟨hmmx 8, hmmx 16, hmmx 32⟩
  · have hsse (w : Nat) :=
      sseForm_sameBits (e := Ext.ofRex rex) (e' := Ext.ofRex rex') hr h w reg (5 + rm.trailerLength) s
    exact ⟨hsse 8, hsse 16, hsse 32⟩

/-! #### The length of an instruction -/

/-- The address of a memory operand depends on the instruction's length for a displacement with no register only
(R68). -/
theorem State.linearAddr_length (s : State) (e : Ext) (len len' : Nat) {m : MemForm} (hm : ∀ d, m ≠ .disp32 d) :
    s.linearAddr e len m = s.linearAddr e len' m := by
  cases m
  case disp32 d => exact absurd rfl (hm d)
  all_goals rfl

/-- A source operand depends on the instruction's length for a displacement with no register only. -/
theorem readSrc_length (cls : FormClass) {N : Nat} (reg : BitVec 3 → BitVec N) (e : Ext) (len len' : Nat) {rm : RmOp}
    (s : State) (hrm : ∀ d, rm ≠ .mem (.disp32 d)) :
    readSrc cls N reg e len rm s = readSrc cls N reg e len' rm s := by
  cases rm with
  | reg r => rfl
  | mem m => simp only [readSrc, s.linearAddr_length e len len' fun d hd => hrm d (congrArg RmOp.mem hd)]

/-- The length of an instruction changes nothing but `RIP` after it, where no displacement counts from its end. -/
theorem runForm_length (cls : FormClass) {N : Nat} (reg : BitVec 3 → BitVec N) (e : Ext) (len len' : Nat) {rm : RmOp}
    {finish : BitVec N → State} {s : State} (hrm : ∀ d, rm ≠ .mem (.disp32 d))
    (hfinish : ∀ src, (finish src).nextRip len' = s.nextRip len') :
    runForm cls N reg e len' rm finish s =
      mapNext (fun t => { t with rip := s.nextRip len' }) (runForm cls N reg e len rm finish s) := by
  rw [runForm, runForm, readSrc_length cls reg e len' len s hrm]
  cases precheck cls s with
  | some stop => cases stop <;> rfl
  | none =>
    cases readSrc cls N reg e len rm s with
    | error stop => cases stop <;> rfl
    | ok src => simp only [mapNext, State.advance, hfinish]

theorem vex128Form_length (w : Nat) (e : Ext) (v : BitVec 4) (reg : BitVec 3) {rm : RmOp} (len len' : Nat) (s : State)
    (hrm : ∀ d, rm ≠ .mem (.disp32 d)) :
    vex128Form w e v reg rm len' s =
      mapNext (fun t => { t with rip := s.nextRip len' }) (vex128Form w e v reg rm len s) :=
  runForm_length .vex128 _ e len len' hrm fun _ => rfl

theorem vex256Form_length (w : Nat) (e : Ext) (v : BitVec 4) (reg : BitVec 3) {rm : RmOp} (len len' : Nat) (s : State)
    (hrm : ∀ d, rm ≠ .mem (.disp32 d)) :
    vex256Form w e v reg rm len' s =
      mapNext (fun t => { t with rip := s.nextRip len' }) (vex256Form w e v reg rm len s) :=
  runForm_length .vex256 _ e len len' hrm fun _ => rfl

/-- Settles O15: with X = 0 and B = 0 the spellings have the same extension bits, and the lengths differ by one. -/
theorem twoByteAndThreeByteVexAgree : Obligations.TwoByteAndThreeByteVexAgree := by
  intro r w v reg rm s hrm
  have h128 (w : Nat) := vex128Form_length w (Ext.ofC5 r) v reg (4 + rm.trailerLength) (5 + rm.trailerLength) s hrm
  have h256 (w : Nat) := vex256Form_length w (Ext.ofC5 r) v reg (4 + rm.trailerLength) (5 + rm.trailerLength) s hrm
  exact ⟨h128 8, h128 16, h128 32, h256 8, h256 16, h256 32⟩

/-! ### Forms compared (spec/95_test_vectors.md section 9) -/

/-- The value of a source operand is the same for two instructions with the same operand and extension bits, where their
lengths are the same or no displacement counts from their end. -/
theorem sourceValue_congr {N : Nat} {reg : BitVec 3 → BitVec N} {i i' : Instr} {s : State} (hrm : i'.rmOp = i.rmOp)
    (hext : i'.ext = i.ext) (hlen : i'.length = i.length ∨ ∀ d, i.rmOp ≠ .mem (.disp32 d)) :
    sourceValue N reg i' s = sourceValue N reg i s := by
  unfold sourceValue
  rw [hrm, hext]
  cases h : i.rmOp with
  | reg r => rfl
  | mem m =>
    rcases hlen with hlen | hno
    · rw [hlen]
    · simp only [s.linearAddr_length i.ext i'.length i.length fun d hd => hno d (h.trans (congrArg RmOp.mem hd))]

/-- The value of a register source is the register. -/
theorem sourceValue_reg {N : Nat} {reg : BitVec 3 → BitVec N} {i : Instr} {q : BitVec 3} (h : i.rmOp = .reg q)
    (s : State) : sourceValue N reg i s = reg q := by
  unfold sourceValue
  rw [h]

section
variable {i : Instr} {e : Elem} {v : BitVec 4} {reg : BitVec 3} {rm : RmOp} {s t : State}

/-- The destination of an MMX form. -/
theorem mmx_result (hi : IsLegacy i false e reg rm) (h : exec i s = .next t) :
    t.readMm reg = padd (elemWidth e) 64 (s.readMm reg) (sourceValue 64 s.readMm i s) :=
  (eq_padd_iff_laneSums (elemWidth_dvd e (by simp)) ..).2 (mmx_completed hi h).1

/-- The low half of the destination of an SSE2 form. -/
theorem sse_result (hi : IsLegacy i true e reg rm) (h : exec i s = .next t) :
    t.readXmm (regNum i.ext.r reg) = padd (elemWidth e) 128 (s.readXmm (regNum i.ext.r reg))
      (sourceValue 128 (fun r => s.readXmm (regNum i.ext.b r)) i s) :=
  (eq_padd_iff_laneSums (elemWidth_dvd e (by simp)) ..).2 (sse_completed hi h).1

/-- The low half of the destination of a VEX.128 form. -/
theorem vex128_result (hi : IsVex i false v e reg rm) (h : exec i s = .next t) :
    t.readXmm (regNum i.ext.r reg) = padd (elemWidth e) 128 (s.readXmm v)
      (sourceValue 128 (fun r => s.readXmm (regNum i.ext.b r)) i s) :=
  (eq_padd_iff_laneSums (elemWidth_dvd e (by simp)) ..).2 (vex128_completed hi h).1

/-- The destination of a VEX.256 form. -/
theorem vex256_result (hi : IsVex i true v e reg rm) (h : exec i s = .next t) :
    t.readYmm (regNum i.ext.r reg) = padd (elemWidth e) 256 (s.readYmm v)
      (sourceValue 256 (fun r => s.readYmm (regNum i.ext.b r)) i s) :=
  (eq_padd_iff_laneSums (elemWidth_dvd e (by simp)) ..).2 (vex256_completed hi h).1

end

/-- Settles O57: both destinations are the lane-wise sum of the same two values. -/
theorem destructiveFormAgreesWithThreeOperandForm : Obligations.DestructiveFormAgreesWithThreeOperandForm := by
  intro i i' rex r x reg rm s t t' d hforms hext hlen ht ht'
  obtain ⟨e, hi, hi'⟩ : ∃ e, IsLegacy i true e reg rm ∧ IsVex i' false d e reg rm := by
    rcases hforms with ⟨h, h'⟩ | ⟨h, h'⟩ | ⟨h, h'⟩
    · exact ⟨.byte, isLegacy_of_eq (sse := true) h, isVex_of_eq (l := false) h'⟩
    · exact ⟨.word, isLegacy_of_eq (sse := true) h, isVex_of_eq (l := false) h'⟩
    · exact ⟨.dword, isLegacy_of_eq (sse := true) h, isVex_of_eq (l := false) h'⟩
  have hrm : i'.rmOp = i.rmOp := hi'.rmOp.trans hi.rmOp.symm
  have hresult := vex128_result hi' ht'
  rw [hext, sourceValue_congr hrm hext (hi.rmOp ▸ hlen)] at hresult
  refine ⟨(sse_result hi ht).trans hresult.symm, fun hsame => ?_⟩
  rw [exec_rip ht, exec_rip ht', hsame]

/-- Settles O58: each half of the wide sum is the sum of the halves. -/
theorem vex256IsTwoVex128 : Obligations.Vex256IsTwoVex128 := by
  intro wide narrow r r' x x' v reg q s t ymm hforms hr hb henabled hymm ht d
  obtain ⟨e, hwide, hnarrow⟩ : ∃ e, IsVex wide true v e reg (.reg q) ∧ IsVex narrow false v e reg (.reg q) := by
    rcases hforms with ⟨h, h'⟩ | ⟨h, h'⟩ | ⟨h, h'⟩
    · exact ⟨.byte, isVex_of_eq (l := true) h, isVex_of_eq (l := false) h'⟩
    · exact ⟨.word, isVex_of_eq (l := true) h, isVex_of_eq (l := false) h'⟩
    · exact ⟨.dword, isVex_of_eq (l := true) h, isVex_of_eq (l := false) h'⟩
  have hcls := formClass_vex128 hnarrow
  have hreadable (u : State) : SourceReadable narrow u := fun m hm => by rw [hnarrow.rmOp] at hm; cases hm
  have h128 : elemWidth e ∣ 128 := elemWidth_dvd e (by simp)
  have hresult := vex256_result hwide ht
  rw [sourceValue_reg hwide.rmOp] at hresult
  constructor
  · obtain ⟨low, hlow⟩ := exec_completes (i := narrow) (hcls ▸ henabled) (hreadable s)
    have hnarrowResult := vex128_result hnarrow hlow
    rw [sourceValue_reg hnarrow.rmOp, hr, hb] at hnarrowResult
    refine ⟨low, hlow, ?_⟩
    rw [hnarrowResult, State.readXmm, hresult]
    exact padd_setWidth h128 (by decide) _ _
  · have henabled' : FormEnabled .vex128 { s with ymm := ymm } := henabled
    obtain ⟨high, hhigh⟩ := exec_completes (i := narrow) (hcls ▸ henabled') (hreadable _)
    have hnarrowResult := vex128_result hnarrow hhigh
    rw [sourceValue_reg hnarrow.rmOp, hr, hb, hymm, hymm] at hnarrowResult
    refine ⟨high, hhigh, ?_⟩
    rw [hnarrowResult, hresult]
    exact padd_extractLsb' h128 h128 (by decide) _ _

/-- Settles O59: the low half of the SSE2 form's sum is the sum of the low halves. -/
theorem mmxIsTheLowHalfOfSse : Obligations.MmxIsTheLowHalfOfSse := by
  intro i i' rex rex' reg q s t t' hforms hreg hq ht ht'
  obtain ⟨e, hi, hi'⟩ : ∃ e, IsLegacy i false e reg (.reg q) ∧ IsLegacy i' true e reg (.reg q) := by
    rcases hforms with ⟨h, h'⟩ | ⟨h, h'⟩ | ⟨h, h'⟩
    · exact ⟨.byte, isLegacy_of_eq (sse := false) h, isLegacy_of_eq (sse := true) h'⟩
    · exact ⟨.word, isLegacy_of_eq (sse := false) h, isLegacy_of_eq (sse := true) h'⟩
    · exact ⟨.dword, isLegacy_of_eq (sse := false) h, isLegacy_of_eq (sse := true) h'⟩
  rw [mmx_result hi ht, sse_result hi' ht', sourceValue_reg hi.rmOp, sourceValue_reg hi'.rmOp, hreg, hq]
  exact (padd_setWidth (elemWidth_dvd e (by simp)) (by decide) _ _).symm

/-! #### Upper halves of sources (spec/41_vpadd_vex.md R121) -/

/-- A source operand is read from the registers, memory and the launch configuration, and its stop from `RIP` too. -/
theorem readSrc_congr {s u : State} (hc : u.cfg = s.cfg) (hr : u.rip = s.rip) (hg : u.gpr = s.gpr) (hm : u.mem = s.mem)
    (cls : FormClass) (N : Nat) (reg : BitVec 3 → BitVec N) (e : Ext) (len : Nat) (rm : RmOp) :
    readSrc cls N reg e len rm u = readSrc cls N reg e len rm s := by
  cases rm with
  | reg r => rfl
  | mem m =>
    simp only [readSrc, State.linearAddr_congr hc hr hg, readCheck_congr hc hr, State.load_congr hc hm]

/-- With other vector registers whose low halves are the same, a VEX.128 form stops alike, or it completes with the same
destination and the other registers as they were given. -/
theorem vex128Form_ymm {s : State} {ymm : Vector Ymm 16}
    (hxmm : ∀ j, State.readXmm { s with ymm := ymm } j = s.readXmm j) (w : Nat) (e : Ext) (v : BitVec 4)
    (reg : BitVec 3) (rm : RmOp) (len : Nat) :
    vex128Form w e v reg rm len { s with ymm := ymm } =
      mapNext (fun t => State.writeYmm { t with ymm := ymm } (regNum e.r reg) (t.readYmm (regNum e.r reg)))
        (vex128Form w e v reg rm len s) := by
  have hpre : precheck .vex128 { s with ymm := ymm } = precheck .vex128 s :=
    precheck_congr rfl rfl (launchRefusal_congr rfl rfl) _
  have hsrc (file : BitVec 3 → BitVec 128) :
      readSrc .vex128 128 file e len rm { s with ymm := ymm } = readSrc .vex128 128 file e len rm s :=
    readSrc_congr rfl rfl rfl rfl ..
  simp only [vex128Form, runForm, hpre, hsrc, hxmm]
  cases precheck .vex128 s with
  | some stop => cases stop <;> rfl
  | none =>
    cases readSrc .vex128 128 (fun r => s.readXmm (regNum e.b r)) e len rm s with
    | error stop => cases stop <;> rfl
    | ok src =>
      simp only [mapNext, State.advance_readYmm, State.readYmm_writeXmmZext, if_true]
      rfl

/-- Settles O56: the two outcomes are the same but for the registers the states differ in. -/
theorem vex128IgnoresUpperHalvesOfSources : Obligations.Vex128IgnoresUpperHalvesOfSources := by
  intro i r x v reg rm s ymm hforms hxmm
  obtain ⟨e, hi⟩ : ∃ e, IsVex i false v e reg rm := by
    rcases hforms with h | h | h | h | h | h
    exacts [⟨.byte, .inl ⟨r, h ▸ rfl⟩⟩, ⟨.byte, .inr ⟨x, h ▸ rfl⟩⟩, ⟨.word, .inl ⟨r, h ▸ rfl⟩⟩,
      ⟨.word, .inr ⟨x, h ▸ rfl⟩⟩, ⟨.dword, .inl ⟨r, h ▸ rfl⟩⟩, ⟨.dword, .inr ⟨x, h ▸ rfl⟩⟩]
  have hsame := vex128Form_ymm hxmm (elemWidth e) i.ext v reg i.rmOp i.length
  rw [← exec_vex128 hi, ← exec_vex128 hi] at hsame
  refine ⟨fun t ht => ?_, fun f hf => ?_, fun why hwhy => ?_⟩
  · rw [ht] at hsame
    exact ⟨_, hsame, (State.readYmm_writeYmm ..).trans (if_pos rfl), rfl,
      fun j hj => (State.readYmm_writeYmm ..).trans (if_neg hj)⟩
  · rw [hsame, hf]
    rfl
  · rw [hsame, hwhy]
    rfl

end Sys2Proof.Machine
